-- ==== Sys2Proof/Word.lean ====
section
/-!
DEFINITION. The words of the machine (00_scope.md R9, R10): names for the widths and nothing else. Arithmetic on
them is that of `BitVec`, modulo 2 to the width, as R10 asks.
-/

namespace Sys2Proof

/-- A register, an address, a word of memory: 32 bits (00_scope.md R6, `XLEN`). -/
abbrev Word := BitVec 32

/-- A half-word; also an instruction word (00_scope.md R6, `ILEN`). -/
abbrev Half := BitVec 16

/-- The smallest addressable unit of memory (20_memory.md R60). -/
abbrev Byte := BitVec 8

end Sys2Proof
end

