-- ==== Sys2Proof/Syntax.lean ====
section
/-!
DEFINITION. The instructions: one constructor per row of spec/opcode_table.json (30_encoding.md R100), in the order
of Tables 16.1, 16.2, 16.3. A constructor holds the operand fields of its format (R91, R92), each at its exact width.
-/

namespace Sys2Proof

/-- The number of a visible register, `%r0` to `%r31` (10_state.md R21). -/
abbrev RegNum := BitVec 5

/-- The second operand of AND, ANDN, OR, XOR: bits 9..5 name a register, or hold IMM5 when the previous
instruction was PFX (30_encoding.md R102). -/
inductive LogicOperand where
  | reg (b : RegNum)
  | imm (imm5 : BitVec 5)
  deriving DecidableEq, Repr

/-- The 69 instructions of the opcode table. -/
inductive Instr where
  -- Table 16.1
  | add (a b : RegNum)
  | addi (a : RegNum) (imm5 : BitVec 5)
  | sub (a b : RegNum)
  | subi (a : RegNum) (imm5 : BitVec 5)
  | cmp (a b : RegNum)
  | cmpi (a : RegNum) (imm5 : BitVec 5)
  | lsl (a b : RegNum)
  | lsli (a : RegNum) (imm5 : BitVec 5)
  | lsr (a b : RegNum)
  | lsri (a : RegNum) (imm5 : BitVec 5)
  | asr (a b : RegNum)
  | asri (a : RegNum) (imm5 : BitVec 5)
  | mov (a b : RegNum)
  | movi (a : RegNum) (imm5 : BitVec 5)
  | and (a : RegNum) (o : LogicOperand)
  | andn (a : RegNum) (o : LogicOperand)
  | or (a : RegNum) (o : LogicOperand)
  | xor (a : RegNum) (o : LogicOperand)
  | bgen (a : RegNum) (imm5 : BitVec 5)
  | ext8d (a b : RegNum)
  | skp0 (a : RegNum) (imm5 : BitVec 5)
  | skp1 (a : RegNum) (imm5 : BitVec 5)
  | ld (a b : RegNum)
  -- Table 16.2
  | st (a b : RegNum)
  | sts8s (imm10 : BitVec 10)
  | sts16s (imm9 : BitVec 9)
  | ext16d (a b : RegNum)
  | movhi (a : RegNum) (imm5 : BitVec 5)
  | usr0 (a b : RegNum)
  | ext8s (a : RegNum) (imm2 : BitVec 2)
  | ext16s (a : RegNum) (imm1 : BitVec 1)
  | st8s (a : RegNum) (imm2 : BitVec 2)
  | st16s (a : RegNum) (imm1 : BitVec 1)
  | save (imm8 : BitVec 8)
  | trap (imm6 : BitVec 6)
  | not (a : RegNum)
  | neg (a : RegNum)
  | abs (a : RegNum)
  | sext8 (a : RegNum)
  | sext16 (a : RegNum)
  | rlc (a : RegNum)
  | rrc (a : RegNum)
  | swap (a : RegNum)
  | usr1 (a : RegNum)
  | usr2 (a : RegNum)
  | usr3 (a : RegNum)
  | usr4 (a : RegNum)
  | restore
  | tret (a : RegNum)
  -- Table 16.3
  | st8d (a : RegNum)
  | st16d (a : RegNum)
  | fill8 (a : RegNum)
  | fill16 (a : RegNum)
  | mstep (a : RegNum)
  | mul (a : RegNum)
  | skprz (a : RegNum)
  | skps (imm4 : BitVec 4)
  | wrctl (a : RegNum)
  | rdctl (a : RegNum)
  | skprnz (a : RegNum)
  | jmp (a : RegNum)
  | call (a : RegNum)
  | br (imm11 : BitVec 11)
  | bsr (imm11 : BitVec 11)
  | pfx (imm11 : BitVec 11)
  | stp (a : RegNum) (p : BitVec 2) (imm5 : BitVec 5)
  | ldp (a : RegNum) (p : BitVec 2) (imm5 : BitVec 5)
  | sts (a : RegNum) (imm8 : BitVec 8)
  | lds (a : RegNum) (imm8 : BitVec 8)
  deriving DecidableEq, Repr

end Sys2Proof
end

