-- ==== Sys2Proof/Config.lean ====
section
/-!
DEFINITION. What the builder of a CPU and its platform fix (00_scope.md R6), and the values the spec leaves free.
The parameters are plain data, held in State under `cfg` (log 6); the free values are constants with no body, so no
proof can see what they are (logs 5 and 20).
-/

namespace Sys2Proof

/-- A range of byte addresses that hold memory: `size` bytes from `base` (20_memory.md R75). -/
structure Region where
  base : Nat
  size : Nat
  deriving DecidableEq, Repr

/-- Is the byte address in the range? -/
def Region.holds (r : Region) (a : Nat) : Bool := decide (r.base ≤ a) && decide (a < r.base + r.size)

/-- What stands behind the opcode of a custom instruction (47_custom.md R321, R322). -/
inductive CustomLogic where
  /-- No logic block was configured. -/
  | absent
  /-- A total function of the two register operands. -/
  | pure
  /-- A block with state of its own, or with a path to memory or to logic outside the CPU. -/
  | impure
  deriving DecidableEq, Repr

/-- The bit positions of the fields of STATUS and ISTATUS, of each its lowest bit: `STATUS_LAYOUT` (10_state.md R31;
log 7). IPRI has six bits and CWP five, the others one. -/
structure StatusLayout where
  ie : Nat
  ipri : Nat
  cwp : Nat
  n : Nat
  v : Nat
  z : Nat
  c : Nat
  deriving DecidableEq, Repr

/-- The fourteen conditions of SKPS, by the names of Table 17 (45_control_transfer.md R268). -/
inductive Condition where
  | c
  | nc
  | z
  | nz
  | mi
  | pl
  | ge
  | lt
  | le
  | gt
  | v
  | nv
  | ls
  | hi
  deriving DecidableEq, Repr

/-- STATUS and ISTATUS by their fields (10_state.md R30, R35); where the fields stand in the register is the layout's
matter (R31, log 7). -/
structure Machine.Status where
  ie : Bool
  ipri : BitVec 6
  cwp : BitVec 5
  n : Bool
  v : Bool
  z : Bool
  c : Bool
  deriving DecidableEq, Repr

/-- The parameters of a built CPU and its platform (00_scope.md R6). -/
structure Config where
  /-- The number of register windows, `NWIN`. -/
  nwin : Nat
  /-- The width of a memory address and of the pc, `ADDR_BITS` (20_memory.md R74; log 31). -/
  addrBits : Nat
  /-- The byte address of vector 0, `VECBASE`. -/
  vecbase : Word
  /-- The byte addresses that hold memory, `Admitted`. -/
  admitted : List Region
  /-- The visible register that is `%sp`, `SP_REG` (log 8). -/
  spReg : RegNum
  /-- The visible register that is `%fp`, `FP_REG` (log 8). -/
  fpReg : RegNum
  /-- The visible registers that the p-fields 0 to 3 select, `PREG` (log 9). -/
  preg0 : RegNum
  preg1 : RegNum
  preg2 : RegNum
  preg3 : RegNum
  /-- The places of the fields of STATUS, `STATUS_LAYOUT` (log 7). -/
  layout : StatusLayout
  /-- The number of ISTATUS among the control registers, `CTL_ISTATUS` (log 10). -/
  ctlIstatus : BitVec 11
  /-- The number of the limits register, `CTL_WVALID` (log 10). -/
  ctlWvalid : BitVec 11
  /-- The condition each code of SKPS names, code 0 first, `CC` (45_control_transfer.md R268; log 11). -/
  cc : List (Option Condition)
  /-- The pc after reset, `RESET_PC` (log 2). -/
  resetPc : Word
  /-- STATUS after reset, `RESET_STATUS` (log 3). -/
  resetStatus : Machine.Status
  usr0 : CustomLogic
  usr1 : CustomLogic
  usr2 : CustomLogic
  usr3 : CustomLogic
  usr4 : CustomLogic
  deriving DecidableEq, Repr

/-- The size of the register file, `NREGS = 16 * NWIN + 16` (10_state.md R20). -/
def Config.nregs (c : Config) : Nat := 16 * c.nwin + 16

/-- Is the byte address in the admitted set (20_memory.md R75)? -/
def Config.admits (c : Config) (a : Nat) : Bool := c.admitted.any (·.holds a)

/-- The configuration State.reset carries: the defaults of 00_scope.md R6 where it gives one, and the values of the
test vectors for RESET_STATUS (10_state.md R42, log 3); for `Admitted` and RESET_PC, which it leaves open, the whole
address space (log 6) and `0x1000` (log 2). -/
def Config.default : Config where
  nwin := 7
  addrBits := 32
  vecbase := 0x100#32
  admitted := [⟨0, 4294967296⟩]
  spReg := 14#5
  fpReg := 30#5
  preg0 := 16#5
  preg1 := 17#5
  preg2 := 18#5
  preg3 := 19#5
  layout := { ie := 15, ipri := 9, cwp := 4, n := 3, v := 2, z := 1, c := 0 }
  ctlIstatus := 1#11
  ctlWvalid := 2#11
  cc := [some .c, some .nc, some .z, some .nz, some .mi, some .pl, some .ge, some .lt, some .le, some .gt, some .v,
    some .nv, some .ls, some .hi, none, none]
  resetPc := 0x1000#32
  resetStatus := { ie := false, ipri := 0x3F#6, cwp := 6#5, n := false, v := false, z := false, c := false }
  usr0 := .absent
  usr1 := .absent
  usr2 := .absent
  usr3 := .absent
  usr4 := .absent

/-- FREE VALUE (log 5). The byte of the platform's memory image at an address: what a byte that has no listed value
reads as (10_state.md R42, R43; U13: a free draw). -/
opaque Config.imageByte : Nat → BitVec 8

/-- FREE VALUE (log 20). The operation of USR0 where its block is pure (47_custom.md R321). -/
opaque Config.usrOp0 : BitVec 32 → BitVec 32 → BitVec 32

/-- FREE VALUE (log 20). The operation of USR1. -/
opaque Config.usrOp1 : BitVec 32 → BitVec 32 → BitVec 32

/-- FREE VALUE (log 20). The operation of USR2. -/
opaque Config.usrOp2 : BitVec 32 → BitVec 32 → BitVec 32

/-- FREE VALUE (log 20). The operation of USR3. -/
opaque Config.usrOp3 : BitVec 32 → BitVec 32 → BitVec 32

/-- FREE VALUE (log 20). The operation of USR4. -/
opaque Config.usrOp4 : BitVec 32 → BitVec 32 → BitVec 32

end Sys2Proof
end

