-- ==== Sys2Proof/WellFormed.lean ====
section
/-!
DEFINITION. The checks that the types do not make: which reading of AND, ANDN, OR, XOR an instruction may have
(30_encoding.md R102), and which configurations the spec describes (00_scope.md R6).
-/

namespace Sys2Proof

/-- The operand is the immediate one exactly when the previous instruction was PFX (30_encoding.md R102). -/
def LogicOperand.fits (pfx : Bool) : LogicOperand → Bool
  | .reg _ => !pfx
  | .imm _ => pfx

/-- Can the instruction stand after a PFX (`pfx` true) or after another instruction (`pfx` false)? Only the four
instructions of 30_encoding.md R102 have a form for each. -/
def Instr.wellFormed (pfx : Bool) : Instr → Bool
  | .and _ o | .andn _ o | .or _ o | .xor _ o => o.fits pfx
  | .add .. | .addi .. | .sub .. | .subi .. | .cmp .. | .cmpi .. | .lsl .. | .lsli .. | .lsr .. | .lsri ..
  | .asr .. | .asri .. | .mov .. | .movi .. | .bgen .. | .ext8d .. | .skp0 .. | .skp1 .. | .ld .. | .st ..
  | .sts8s .. | .sts16s .. | .ext16d .. | .movhi .. | .usr0 .. | .ext8s .. | .ext16s .. | .st8s .. | .st16s ..
  | .save .. | .trap .. | .not .. | .neg .. | .abs .. | .sext8 .. | .sext16 .. | .rlc .. | .rrc .. | .swap ..
  | .usr1 .. | .usr2 .. | .usr3 .. | .usr4 .. | .restore | .tret .. | .st8d .. | .st16d .. | .fill8 ..
  | .fill16 .. | .mstep .. | .mul .. | .skprz .. | .skps .. | .wrctl .. | .rdctl .. | .skprnz .. | .jmp ..
  | .call .. | .br .. | .bsr .. | .pfx .. | .stp .. | .ldp .. | .sts .. | .lds .. => true

/-- The number of windows is one the spec describes: at least two (10_state.md R20), and few enough that the value
NWIN, which RESTORE puts into ISTATUS, fits the five bits of CWP (R31, 46_window_trap_control.md R291; log 17). -/
def Config.nwinOk (c : Config) : Bool := decide (2 ≤ c.nwin) && decide (c.nwin ≤ 31)

/-- `ADDR_BITS` is at most the width of a register, in which addresses are computed, and enough for the four bytes of a
word (20_memory.md R74; log 31). -/
def Config.addrBitsOk (c : Config) : Bool := decide (2 ≤ c.addrBits) && decide (c.addrBits ≤ 32)

/-- `VECBASE` is a multiple of 4 and an address (20_memory.md R71). -/
def Config.vecbaseOk (c : Config) : Bool := c.vecbase &&& 3#32 == 0#32 && decide (c.vecbase.toNat < 2 ^ c.addrBits)

/-- The admitted ranges lie in the address space (20_memory.md R74). -/
def Config.admittedOk (c : Config) : Bool := c.admitted.all fun r => decide (r.base + r.size ≤ 2 ^ c.addrBits)

/-- `%sp` is an out register other than the link register, and `%fp` the in register with the same index, as SAVE's
formula needs (92_eei_decisions.md D4; log 8). -/
def Config.stackOk (c : Config) : Bool :=
  decide (8 ≤ c.spReg.toNat) && decide (c.spReg.toNat < 15) && c.fpReg == c.spReg + 16#5

/-- The fields of STATUS: the lowest bit and the width of each (10_state.md R31). -/
def StatusLayout.fields (l : StatusLayout) : List (Nat × Nat) :=
  [(l.ie, 1), (l.ipri, 6), (l.cwp, 5), (l.n, 1), (l.v, 1), (l.z, 1), (l.c, 1)]

/-- Does the bit belong to a field? -/
def StatusLayout.covers (l : StatusLayout) (j : Nat) : Bool :=
  l.fields.any fun f => decide (f.1 ≤ j) && decide (j < f.1 + f.2)

/-- The fields lie in the 32 bits of the register and no two overlap (10_state.md R31). -/
def StatusLayout.wellFormed (l : StatusLayout) : Bool :=
  l.fields.all (fun f => decide (f.1 + f.2 ≤ 32)) &&
    decide (l.fields.Pairwise fun f g => f.1 + f.2 ≤ g.1 ∨ g.1 + g.2 ≤ f.1)

/-- The three control registers have three numbers; that of STATUS is 0 (10_state.md R30, R37). -/
def Config.ctlOk (c : Config) : Bool :=
  c.ctlIstatus != 0#11 && c.ctlWvalid != 0#11 && c.ctlIstatus != c.ctlWvalid

/-- The fourteen conditions. -/
def Condition.all : List Condition := [.c, .nc, .z, .nz, .mi, .pl, .ge, .lt, .le, .gt, .v, .nv, .ls, .hi]

/-- `CC` is a numbering of the fourteen conditions by four-bit codes: each has one code (45_control_transfer.md R268). -/
def Config.ccOk (c : Config) : Bool :=
  c.cc.length == 16 && Condition.all.all fun name => c.cc.count (some name) == 1

/-- RESET_PC is an even address, and RESET_STATUS names a window of the file (70_reset_and_hazards.md R370). -/
def Config.resetOk (c : Config) : Bool :=
  !c.resetPc.getLsbD 0 && decide (c.resetPc.toNat < 2 ^ c.addrBits) && decide (c.resetStatus.cwp.toNat < c.nwin)

/-- A configuration the spec describes. -/
def Config.wellFormed (c : Config) : Bool :=
  c.nwinOk && c.addrBitsOk && c.vecbaseOk && c.admittedOk && c.stackOk && c.layout.wellFormed && c.ctlOk && c.ccOk &&
    c.resetOk

end Sys2Proof
end

