-- ==== Sys2Proof/Decode.lean ====
section
/-!
DEFINITION. From bits to instructions and back (30_encoding.md). `decode` is rule R101; `encode` writes the word of
an instruction from the formats of R91 and the opcodes of R100.
-/

namespace Sys2Proof

/-- Why a decoder gives no instruction. -/
inductive DecodeError where
  /-- The opcode is marked "Unused" (30_encoding.md R103). -/
  | unusedOpcode
  /-- Table 16 does not list the word, or a must-be-zero bit is one (30_encoding.md R94, R104). -/
  | unlistedOpcode
  /-- Fewer than the two bytes an instruction has (30_encoding.md R90). -/
  | truncated
  deriving DecidableEq, Repr

/-- The field A, bits 4..0 (30_encoding.md R92). -/
def fieldA (w : Half) : RegNum := w.extractLsb' 0 5

/-- The field B, bits 9..5; the same bits hold IMM5 in Ri5 and RPi5, and op5w in Rw (30_encoding.md R91). -/
def fieldB (w : Half) : BitVec 5 := w.extractLsb' 5 5

/-- The second operand of AND, ANDN, OR, XOR (30_encoding.md R102). -/
def fieldLogic (w : Half) (pfx : Bool) : LogicOperand := if pfx then .imm (fieldB w) else .reg (fieldB w)

/-- The instructions of op6 `011101`, selected by op3u, bits 9..7; bit 5 must be zero in format Ri1u
(30_encoding.md R94, R101). -/
def decodeU (w : Half) : Except DecodeError Instr :=
  match (w.extractLsb' 7 3).toNat with
  | 0 => .ok (.ext8s (fieldA w) (w.extractLsb' 5 2))
  | 1 => if w.getLsbD 5 then .error .unlistedOpcode else .ok (.ext16s (fieldA w) (w.extractLsb' 6 1))
  | 2 => .error .unusedOpcode
  | 3 => .error .unusedOpcode
  | 4 => .ok (.st8s (fieldA w) (w.extractLsb' 5 2))
  | 5 => if w.getLsbD 5 then .error .unlistedOpcode else .ok (.st16s (fieldA w) (w.extractLsb' 6 1))
  | _ => .error .unlistedOpcode

/-- The instructions of op6 `011110`, selected by op2v, bits 9..8; bits 7..6 of TRAP must be zero
(30_encoding.md R94, R101). -/
def decodeV (w : Half) : Except DecodeError Instr :=
  match (w.extractLsb' 8 2).toNat with
  | 0 => .ok (.save (w.extractLsb' 0 8))
  | 1 => if w.extractLsb' 6 2 = 0#2 then .ok (.trap (w.extractLsb' 0 6)) else .error .unlistedOpcode
  | _ => .error .unlistedOpcode

/-- The instructions of op6 `011111`, selected by op5w, bits 9..5; bit 4 of SKPS and bits 4..0 of RESTORE must be
zero (30_encoding.md R94, R101). -/
def decodeW (w : Half) : Except DecodeError Instr :=
  match (fieldB w).toNat with
  | 0 => .ok (.not (fieldA w))
  | 1 => .ok (.neg (fieldA w))
  | 2 => .ok (.abs (fieldA w))
  | 3 => .ok (.sext8 (fieldA w))
  | 4 => .ok (.sext16 (fieldA w))
  | 5 => .ok (.rlc (fieldA w))
  | 6 => .ok (.rrc (fieldA w))
  | 7 => .error .unusedOpcode
  | 8 => .ok (.swap (fieldA w))
  | 9 => .ok (.usr1 (fieldA w))
  | 10 => .ok (.usr2 (fieldA w))
  | 11 => .ok (.usr3 (fieldA w))
  | 12 => .ok (.usr4 (fieldA w))
  | 13 => if fieldA w = 0#5 then .ok .restore else .error .unlistedOpcode
  | 14 => .ok (.tret (fieldA w))
  | 15 => .error .unusedOpcode
  | 16 => .ok (.st8d (fieldA w))
  | 17 => .ok (.st16d (fieldA w))
  | 18 => .ok (.fill8 (fieldA w))
  | 19 => .ok (.fill16 (fieldA w))
  | 20 => .ok (.mstep (fieldA w))
  | 21 => .ok (.mul (fieldA w))
  | 22 => .ok (.skprz (fieldA w))
  | 23 => if w.getLsbD 4 then .error .unlistedOpcode else .ok (.skps (w.extractLsb' 0 4))
  | 24 => .ok (.wrctl (fieldA w))
  | 25 => .ok (.rdctl (fieldA w))
  | 26 => .ok (.skprnz (fieldA w))
  | 27 => .error .unusedOpcode
  | 28 => .error .unusedOpcode
  | 29 => .error .unusedOpcode
  | 30 => .ok (.jmp (fieldA w))
  | _ => .ok (.call (fieldA w))

/-- The words with bit 15 zero, selected by op6, bits 15..10; bit 0 of STS16S must be zero
(30_encoding.md R94, R100, R101). -/
def decodeOp6 (w : Half) (pfx : Bool) : Except DecodeError Instr :=
  match (w.extractLsb' 10 6).toNat with
  | 0 => .ok (.add (fieldA w) (fieldB w))
  | 1 => .ok (.addi (fieldA w) (fieldB w))
  | 2 => .ok (.sub (fieldA w) (fieldB w))
  | 3 => .ok (.subi (fieldA w) (fieldB w))
  | 4 => .ok (.cmp (fieldA w) (fieldB w))
  | 5 => .ok (.cmpi (fieldA w) (fieldB w))
  | 6 => .ok (.lsl (fieldA w) (fieldB w))
  | 7 => .ok (.lsli (fieldA w) (fieldB w))
  | 8 => .ok (.lsr (fieldA w) (fieldB w))
  | 9 => .ok (.lsri (fieldA w) (fieldB w))
  | 10 => .ok (.asr (fieldA w) (fieldB w))
  | 11 => .ok (.asri (fieldA w) (fieldB w))
  | 12 => .ok (.mov (fieldA w) (fieldB w))
  | 13 => .ok (.movi (fieldA w) (fieldB w))
  | 14 => .ok (.and (fieldA w) (fieldLogic w pfx))
  | 15 => .ok (.andn (fieldA w) (fieldLogic w pfx))
  | 16 => .ok (.or (fieldA w) (fieldLogic w pfx))
  | 17 => .ok (.xor (fieldA w) (fieldLogic w pfx))
  | 18 => .ok (.bgen (fieldA w) (fieldB w))
  | 19 => .ok (.ext8d (fieldA w) (fieldB w))
  | 20 => .ok (.skp0 (fieldA w) (fieldB w))
  | 21 => .ok (.skp1 (fieldA w) (fieldB w))
  | 22 => .ok (.ld (fieldA w) (fieldB w))
  | 23 => .ok (.st (fieldA w) (fieldB w))
  | 24 => .ok (.sts8s (w.extractLsb' 0 10))
  | 25 => if w.getLsbD 0 then .error .unlistedOpcode else .ok (.sts16s (w.extractLsb' 1 9))
  | 26 => .ok (.ext16d (fieldA w) (fieldB w))
  | 27 => .ok (.movhi (fieldA w) (fieldB w))
  | 28 => .ok (.usr0 (fieldA w) (fieldB w))
  | 29 => decodeU w
  | 30 => decodeV w
  | _ => decodeW w

/-- The instruction a word is, given whether the previous instruction was PFX (30_encoding.md R101). Bits 15..13
select; under `101` bit 12 tells STP from LDP, under `100` bits 12..11 tell BR, BSR, PFX and the unlisted code
`10010` apart (R104, R105). -/
def decode (w : Half) (pfx : Bool) : Except DecodeError Instr :=
  match (w.extractLsb' 13 3).toNat with
  | 7 => .ok (.lds (fieldA w) (w.extractLsb' 5 8))
  | 6 => .ok (.sts (fieldA w) (w.extractLsb' 5 8))
  | 5 =>
    if w.getLsbD 12 then .ok (.ldp (fieldA w) (w.extractLsb' 10 2) (fieldB w))
    else .ok (.stp (fieldA w) (w.extractLsb' 10 2) (fieldB w))
  | 4 =>
    match (w.extractLsb' 11 2).toNat with
    | 0 => .ok (.br (w.extractLsb' 0 11))
    | 1 => .ok (.bsr (w.extractLsb' 0 11))
    | 2 => .error .unlistedOpcode
    | _ => .ok (.pfx (w.extractLsb' 0 11))
  | _ => decodeOp6 w pfx

/-- The instruction word two bytes hold, the one at the lower address in bits 7..0 (20_memory.md R66). -/
def halfOfBytes (lo hi : Byte) : Half := hi ++ lo

/-- Decode from the front of any bytes: the instruction and the bytes after it (30_encoding.md R90). -/
def decodeBytes (pfx : Bool) : List Byte → Except DecodeError (Instr × List Byte)
  | lo :: hi :: rest => (decode (halfOfBytes lo hi) pfx).map fun i => (i, rest)
  | _ => .error .truncated

/-- Is the word a PFX (30_encoding.md R100)? -/
def isPfxWord (w : Half) : Bool := w.extractLsb' 11 5 == 0b10011#5

/-- The bits of the second operand of AND, ANDN, OR, XOR: the same place for both readings (30_encoding.md R102). -/
def LogicOperand.bits : LogicOperand → BitVec 5
  | .reg b => b
  | .imm i => i

/-- The formats RR and Ri5: `op6`, bits 9..5, A (30_encoding.md R91). -/
def encodeRR (op6 : BitVec 6) (b a : BitVec 5) : Half := op6 ++ b ++ a

/-- The format Rw: `011111`, `op5w`, A (30_encoding.md R91). -/
def encodeRw (op5w : BitVec 5) (a : BitVec 5) : Half := 0b011111#6 ++ op5w ++ a

/-- The word of an instruction: its format of 30_encoding.md R91 with the opcode of R100. -/
def encode : Instr → Half
  | .add a b => encodeRR 0b000000#6 b a
  | .addi a i => encodeRR 0b000001#6 i a
  | .sub a b => encodeRR 0b000010#6 b a
  | .subi a i => encodeRR 0b000011#6 i a
  | .cmp a b => encodeRR 0b000100#6 b a
  | .cmpi a i => encodeRR 0b000101#6 i a
  | .lsl a b => encodeRR 0b000110#6 b a
  | .lsli a i => encodeRR 0b000111#6 i a
  | .lsr a b => encodeRR 0b001000#6 b a
  | .lsri a i => encodeRR 0b001001#6 i a
  | .asr a b => encodeRR 0b001010#6 b a
  | .asri a i => encodeRR 0b001011#6 i a
  | .mov a b => encodeRR 0b001100#6 b a
  | .movi a i => encodeRR 0b001101#6 i a
  | .and a o => encodeRR 0b001110#6 o.bits a
  | .andn a o => encodeRR 0b001111#6 o.bits a
  | .or a o => encodeRR 0b010000#6 o.bits a
  | .xor a o => encodeRR 0b010001#6 o.bits a
  | .bgen a i => encodeRR 0b010010#6 i a
  | .ext8d a b => encodeRR 0b010011#6 b a
  | .skp0 a i => encodeRR 0b010100#6 i a
  | .skp1 a i => encodeRR 0b010101#6 i a
  | .ld a b => encodeRR 0b010110#6 b a
  | .st a b => encodeRR 0b010111#6 b a
  | .sts8s i => 0b011000#6 ++ i
  | .sts16s i => 0b011001#6 ++ i ++ 0#1
  | .ext16d a b => encodeRR 0b011010#6 b a
  | .movhi a i => encodeRR 0b011011#6 i a
  | .usr0 a b => encodeRR 0b011100#6 b a
  | .ext8s a i => 0b011101#6 ++ 0b000#3 ++ i ++ a
  | .ext16s a i => 0b011101#6 ++ 0b001#3 ++ i ++ 0#1 ++ a
  | .st8s a i => 0b011101#6 ++ 0b100#3 ++ i ++ a
  | .st16s a i => 0b011101#6 ++ 0b101#3 ++ i ++ 0#1 ++ a
  | .save i => 0b011110#6 ++ 0b00#2 ++ i
  | .trap i => 0b011110#6 ++ 0b01#2 ++ 0b00#2 ++ i
  | .not a => encodeRw 0b00000#5 a
  | .neg a => encodeRw 0b00001#5 a
  | .abs a => encodeRw 0b00010#5 a
  | .sext8 a => encodeRw 0b00011#5 a
  | .sext16 a => encodeRw 0b00100#5 a
  | .rlc a => encodeRw 0b00101#5 a
  | .rrc a => encodeRw 0b00110#5 a
  | .swap a => encodeRw 0b01000#5 a
  | .usr1 a => encodeRw 0b01001#5 a
  | .usr2 a => encodeRw 0b01010#5 a
  | .usr3 a => encodeRw 0b01011#5 a
  | .usr4 a => encodeRw 0b01100#5 a
  | .restore => encodeRw 0b01101#5 0#5
  | .tret a => encodeRw 0b01110#5 a
  | .st8d a => encodeRw 0b10000#5 a
  | .st16d a => encodeRw 0b10001#5 a
  | .fill8 a => encodeRw 0b10010#5 a
  | .fill16 a => encodeRw 0b10011#5 a
  | .mstep a => encodeRw 0b10100#5 a
  | .mul a => encodeRw 0b10101#5 a
  | .skprz a => encodeRw 0b10110#5 a
  | .skps c => encodeRw 0b10111#5 (0#1 ++ c)
  | .wrctl a => encodeRw 0b11000#5 a
  | .rdctl a => encodeRw 0b11001#5 a
  | .skprnz a => encodeRw 0b11010#5 a
  | .jmp a => encodeRw 0b11110#5 a
  | .call a => encodeRw 0b11111#5 a
  | .br i => 0b10000#5 ++ i
  | .bsr i => 0b10001#5 ++ i
  | .pfx i => 0b10011#5 ++ i
  | .stp a p i => 0b1010#4 ++ p ++ i ++ a
  | .ldp a p i => 0b1011#4 ++ p ++ i ++ a
  | .sts a i => 0b110#3 ++ i ++ a
  | .lds a i => 0b111#3 ++ i ++ a

/-- The bytes of a number of `n` bytes, least significant first. -/
def bytesOfNat : Nat → Nat → List Byte
  | 0, _ => []
  | n + 1, w => BitVec.ofNat 8 w :: bytesOfNat n (w / 256)

/-- The bytes an instruction of `nbits` bits whose bits are `w` has in memory, every bit above `nbits` zero, up to
the two bytes an instruction has (30_encoding.md R90; 20_memory.md R66). -/
def tableBytes (nbits w : Nat) : List Byte := bytesOfNat 2 (w % 2 ^ nbits)

/-- What the decoder reads from an instruction of `nbits` bits whose bits are `w`, the previous instruction not
being PFX. -/
def decodeTableWord (nbits w : Nat) : Option Instr :=
  match decodeBytes false (tableBytes nbits w) with
  | .ok (i, _) => some i
  | .error _ => none

end Sys2Proof
end

