-- ==== Sys2Proof/Machine/State.lean ====
section
/-!
DEFINITION. The state of the machine as plain data (10_state.md), the reasons a step can stop, and the state right
after reset. INVENTORY.md, heading State, lists every field with its rule and its reset value.
-/

namespace Sys2Proof.Machine

/-- Why the machine stops with a fault: the spec gives the situation no meaning or forbids it, and the state is not
final (00_scope.md R15). Each is SAFE: a machine that goes on does more than the model lets be proved. -/
inductive Fault where
  /-- Raised by `step`: the fetched word's opcode is marked "Unused" (30_encoding.md R103). Safe. -/
  | unusedOpcode
  /-- Raised by `step`: Table 16 does not list the fetched word (30_encoding.md R94, R104). Safe. -/
  | unlistedOpcode
  /-- Raised by `step`: an instruction of the forbidden list stands in a delay slot (45_control_transfer.md R253).
  Safe. -/
  | badDelaySlot
  /-- Raised by SAVE and RESTORE: the window trap would be taken in a delay slot (45_control_transfer.md R253). Safe. -/
  | trapInDelaySlot
  /-- Raised by `step`: the instruction after a WRCTL to STATUS is not NOP (70_reset_and_hazards.md R381). Safe. -/
  | wrctlNotFollowedByNop
  /-- Raised by every register access, by SAVE, RESTORE, trap entry, TRET and WRCTL: a cell or a window outside the
  register file (10_state.md R22, R32). Safe. -/
  | windowOutOfFile
  /-- Raised by RDCTL and WRCTL: K names a control register the spec does not define (10_state.md R37). Safe. -/
  | unknownControlRegister
  /-- Raised by SKPS with condition code 14 or 15 (45_control_transfer.md R265). Safe. -/
  | badCondition
  /-- Raised by USR0 to USR4: no logic block is configured (47_custom.md R321). Safe. -/
  | customAbsent
  /-- Raised by fetch, loads, stores and the vector read: an address outside the admitted set. The agent has no step,
  it is stuck (20_memory.md R75). Safe. -/
  | notAdmitted
  /-- Raised by the five skips: every half-word of memory is a PFX, so the loop of 45_control_transfer.md R260 has no
  end; no skip that `step` fetched meets it, since its own word is no PFX (log 27). Safe. -/
  | skipWithoutEnd
  deriving DecidableEq, Repr

/-- Why the model refuses to go on: the spec puts the situation outside the model. Each is SAFE. -/
inductive Refusal where
  /-- Raised by an arm of `exec` whose instruction has no meaning; no arm of this model is one. Safe. -/
  | notModelled (mnemonic : String)
  /-- Raised by fetch: the program has stored to the byte since launch (20_memory.md R79). Safe. -/
  | selfModifiedFetch
  /-- Raised by USR0 to USR4: the configured block has state or a path outside the CPU (47_custom.md R322). Safe. -/
  | customNotPure
  /-- Raised by fetch: the address is odd, which no instruction makes and the spec excludes of the start pc
  (10_state.md R25, 20_memory.md R62, R67; log 25). Safe. -/
  | oddPc
  deriving DecidableEq, Repr

/-- What an operation of the machine answers. -/
abbrev Result (α : Type) := Host.Outcome α Fault Refusal

/-- The state of the machine. -/
structure State where
  /-- The configuration of the built CPU and its platform; no step changes it (00_scope.md R6; log 6). -/
  cfg : Config
  /-- The internal register file, `Reg[0]` first (10_state.md R20). -/
  regs : List Word
  /-- The byte address of the instruction to execute (10_state.md R25). -/
  pc : Word
  /-- Control register 0 (10_state.md R30). -/
  status : Status
  /-- The register that receives STATUS on trap entry (10_state.md R35). -/
  istatus : Status
  /-- HI_LIMIT (10_state.md R36). -/
  hiLimit : BitVec 5
  /-- LO_LIMIT (10_state.md R36). -/
  loLimit : BitVec 5
  /-- The prefix register K (10_state.md R27). -/
  k : BitVec 11
  /-- Was the previous instruction PFX (10_state.md R28)? -/
  pfx : Bool
  /-- The target of a branch whose delay slot has not executed (10_state.md R29). -/
  delay : Option Word
  /-- Was the previous instruction a WRCTL to STATUS (10_state.md R39)? -/
  wrctlHazard : Bool
  /-- The bytes of memory with a known value, by rising address (20_memory.md R60; log 5). -/
  mem : List Host.Cell
  /-- The addresses of the bytes stored to since launch, rising (20_memory.md R79; log 21). -/
  stored : List Nat
  /-- The interrupt request the platform presents, an input no step changes (60_exceptions.md R340; log 22). -/
  request : Option (BitVec 6)
  deriving DecidableEq, Repr

/-- A STATUS of zeros: ISTATUS after reset (DESIGN CHOICE, log 4). -/
def Status.zero : Status := ⟨false, 0#6, 0#5, false, false, false, false⟩

/-- The start state of the machine that a configuration describes (70_reset_and_hazards.md R370, R371): the pc, STATUS
and the limits are the configuration's. The registers (log 1) and ISTATUS (log 4) hold values the spec does not give:
DESIGN CHOICE, UNSAFE. -/
def State.resetWith (c : Config) : State where
  cfg := c
  regs := List.replicate c.nregs 0#32
  pc := c.resetPc
  status := c.resetStatus
  istatus := Status.zero
  hiLimit := BitVec.ofNat 5 (c.nwin - 1)
  loLimit := 1#5
  k := 0#11
  pfx := false
  delay := none
  wrctlHazard := false
  mem := []
  stored := []
  request := none

/-- The machine right after reset, in the configuration of the spec's defaults (00_scope.md R6; logs 2, 3 and 6). -/
def State.reset : State := State.resetWith Config.default

end Sys2Proof.Machine
end

