-- ==== Sys2Proof/Machine/Flags.lean ====
section
/-!
DEFINITION. The flags N, V, Z, C (10_state.md R33), the packed form of STATUS (R31) and the conditions of SKPS
(45_control_transfer.md R268).
-/

namespace Sys2Proof.Machine

/-- The four flags an arithmetic instruction writes. -/
structure Flags where
  n : Bool
  v : Bool
  z : Bool
  c : Bool
  deriving DecidableEq, Repr

/-- N: bit 31 of the result (10_state.md R33). -/
def flagN (r : Word) : Bool := r.getLsbD 31

/-- Z: the result is zero (10_state.md R33). -/
def flagZ (r : Word) : Bool := r == 0#32

/-- The flags of an addition: C the carry out of bit 31, V the signed overflow (10_state.md R33; log 12). -/
def addFlags (a b : Word) : Flags where
  n := flagN (a + b)
  v := a.getLsbD 31 == b.getLsbD 31 && (a + b).getLsbD 31 != a.getLsbD 31
  z := flagZ (a + b)
  c := decide (4294967296 ≤ a.toNat + b.toNat)

/-- The flags of a subtraction or comparison: C the borrow, V the signed overflow (10_state.md R33; log 12). -/
def subFlags (a b : Word) : Flags where
  n := flagN (a - b)
  v := a.getLsbD 31 != b.getLsbD 31 && (a - b).getLsbD 31 != a.getLsbD 31
  z := flagZ (a - b)
  c := decide (a.toNat < b.toNat)

/-- STATUS with all four flags replaced. -/
def Status.withFlags (st : Status) (f : Flags) : Status := { st with n := f.n, v := f.v, z := f.z, c := f.c }

/-- STATUS after a logic instruction with result `r`: N and Z written, V and C kept (10_state.md R33). -/
def Status.withNZ (st : Status) (r : Word) : Status := { st with n := flagN r, z := flagZ r }

/-- STATUS with C replaced: RLC and RRC (10_state.md R33). -/
def Status.withC (st : Status) (c : Bool) : Status := { st with c := c }

/-- A field at its place in a register. -/
def placeField {n : Nat} (x : BitVec n) (pos : Nat) : Word := x.setWidth 32 <<< pos

/-- STATUS as a register: every field at its place, every other bit zero (10_state.md R31; log 7). -/
def Status.pack (l : StatusLayout) (st : Status) : Word :=
  placeField (BitVec.ofBool st.ie) l.ie ||| placeField st.ipri l.ipri ||| placeField st.cwp l.cwp |||
    placeField (BitVec.ofBool st.n) l.n ||| placeField (BitVec.ofBool st.v) l.v |||
    placeField (BitVec.ofBool st.z) l.z ||| placeField (BitVec.ofBool st.c) l.c

/-- STATUS from a register: the fields, every other bit ignored (10_state.md R31; log 7). -/
def Status.unpack (l : StatusLayout) (w : Word) : Status where
  ie := w.getLsbD l.ie
  ipri := w.extractLsb' l.ipri 6
  cwp := w.extractLsb' l.cwp 5
  n := w.getLsbD l.n
  v := w.getLsbD l.v
  z := w.getLsbD l.z
  c := w.getLsbD l.c

/-- Does the condition hold on the flags (45_control_transfer.md R268; log 11)? -/
def conditionHolds (st : Status) : Condition → Bool
  | .c => st.c
  | .nc => !st.c
  | .z => st.z
  | .nz => !st.z
  | .mi => st.n
  | .pl => !st.n
  | .ge => st.n == st.v
  | .lt => st.n != st.v
  | .le => st.z || st.n != st.v
  | .gt => !st.z && st.n == st.v
  | .v => st.v
  | .nv => !st.v
  | .ls => st.c || st.z
  | .hi => !st.c && !st.z

/-- The condition a code of SKPS names in the platform's numbering, on the flags; none for a code that names none
(45_control_transfer.md R268; log 11). -/
def condition (cc : List (Option Condition)) (code : BitVec 4) (st : Status) : Option Bool :=
  (cc.getD code.toNat none).map (conditionHolds st)

end Sys2Proof.Machine
end

