-- ==== Sys2Proof/Machine/Memory.lean ====
section
/-!
DEFINITION. Memory as a list of (address, byte) pairs in one canonical form, and the list of addresses stored to
(20_memory.md R60 to R64, R79).
-/

namespace Sys2Proof.Machine

/-- What an address with no entry holds: no value the model names (10_state.md R43; log 5). -/
def Memory.unlisted : Option Byte := none

/-- The byte an address holds, where it has a known value. -/
def Memory.read : List Host.Cell → Nat → Option Byte
  | [], _ => Memory.unlisted
  | (b, v) :: rest, a => if b = a then some v else Memory.read rest a

/-- Give an address a byte, keeping the addresses rising. -/
def Memory.write : List Host.Cell → Nat → Byte → List Host.Cell
  | [], a, v => [(a, v)]
  | (b, w) :: rest, a, v =>
    if a < b then (a, v) :: (b, w) :: rest
    else if a = b then (a, v) :: rest
    else (b, w) :: Memory.write rest a v

/-- The canonical form: strictly rising addresses, all in the 32-bit address space (20_memory.md R74). An unlisted
address holds no value, so no entry can equal what an unlisted address reads as. -/
abbrev Memory.wf (m : List Host.Cell) : Prop :=
  m.Pairwise (fun c d => c.1 < d.1) ∧ ∀ c ∈ m, c.1 < 4294967296

/-- Put an address into a rising list of addresses. -/
def Marks.insert : List Nat → Nat → List Nat
  | [], a => [a]
  | b :: rest, a =>
    if a < b then a :: b :: rest
    else if a = b then b :: rest
    else b :: Marks.insert rest a

/-- The canonical form of a list of addresses: strictly rising, all in the 32-bit address space. -/
abbrev Marks.wf (l : List Nat) : Prop := l.Pairwise (· < ·) ∧ ∀ a ∈ l, a < 4294967296

/-- The byte address that a 32-bit value is in a system with `ADDR_BITS` address bits: its low bits (00_scope.md R16,
20_memory.md R74; log 31). -/
def State.address (s : State) (a : Word) : Word := (a.setWidth s.cfg.addrBits).setWidth 32

/-- The byte at an address: its known value, else a free draw from the platform's image (10_state.md R42, R43;
log 5). -/
def State.byteAt (s : State) (a : Word) : Byte :=
  (Memory.read s.mem (s.address a).toNat).getD (Config.imageByte (s.address a).toNat)

/-- Does the address hold memory (20_memory.md R75)? -/
def State.admits (s : State) (a : Word) : Bool := s.cfg.admits (s.address a).toNat

/-- Has the program stored to the byte since launch (20_memory.md R79)? -/
def State.wasStored (s : State) (a : Word) : Bool := s.stored.contains (s.address a).toNat

/-- Store one byte, and note that the program stored it (20_memory.md R63, R79). -/
def State.putByte (s : State) (a : Word) (v : Byte) : State :=
  { s with
    mem := Memory.write s.mem (s.address a).toNat v
    stored := Marks.insert s.stored (s.address a).toNat }

end Sys2Proof.Machine
end

