-- ==== Sys2Proof/Machine/Operands.lean ====
section
/-!
DEFINITION. Operand forms: registers through the window (10_state.md R22), immediates and offsets (30_encoding.md R96
to R98), effective addresses (44_load_store.md R220), lanes of a word (00_scope.md R8).
-/

namespace Sys2Proof.Machine

/-- `%r15`, which is `%o7`: the link register (10_state.md R24). -/
def linkReg : RegNum := 15#5

/-- `%r0`, the implicit operand (43_move_extract_multiply.md R208). -/
def zeroReg : RegNum := 0#5

/-- The register the 2-bit p-field names (00_scope.md R6, `PREG`; log 9). -/
def State.pReg (s : State) (p : BitVec 2) : RegNum :=
  match p.toNat with
  | 0 => s.cfg.preg0
  | 1 => s.cfg.preg1
  | 2 => s.cfg.preg2
  | _ => s.cfg.preg3

/-- The cell a visible register is, in the current window (10_state.md R22). -/
def State.regIndex (s : State) (i : RegNum) : Nat :=
  if i.toNat < 8 then i.toNat else 16 * s.status.cwp.toNat + i.toNat

/-- Is the visible register a cell of the register file (10_state.md R22)? -/
def State.inFile (s : State) (i : RegNum) : Bool := decide (s.regIndex i < s.cfg.nregs)

/-- A cell of the register file, `Reg[n]` (10_state.md R20). -/
def State.cell (s : State) (n : Nat) : Word := s.regs.getD n 0#32

/-- The value of a visible register (00_scope.md R12). -/
def State.reg (s : State) (i : RegNum) : Word := s.cell (s.regIndex i)

/-- The 16-bit immediate `(0x00.00 : K : IMM5)`, zero-extended (30_encoding.md R96). -/
def State.imm16 (s : State) (i : BitVec 5) : Word := (s.k ++ i).setWidth 32

/-- The signed word offset `sext_11(K) * 4` in bytes (30_encoding.md R97). -/
def State.offsetK (s : State) : Word := s.k.signExtend 32 * 4#32

/-- The signed word offset `sext_16(K : IMM5) * 4` in bytes (30_encoding.md R97). -/
def State.offsetK5 (s : State) (i : BitVec 5) : Word := (s.k ++ i).signExtend 32 * 4#32

/-- Truncation to a multiple of four (20_memory.md R65). -/
def align32 (x : Word) : Word := x &&& 0xFFFFFFFC#32

/-- The word address of LD, ST, ST8D, ST8S, ST16D, ST16S from the base register (44_load_store.md R221). -/
def State.addrK (s : State) (base : RegNum) : Word := align32 (s.reg base + s.offsetK)

/-- The word address of LDP and STP (44_load_store.md R224). -/
def State.addrP (s : State) (p : BitVec 2) (i : BitVec 5) : Word := align32 (s.reg (s.pReg p) + s.offsetK5 i)

/-- The word address at a byte offset from `%sp`: LDS, STS, STS8S, STS16S (44_load_store.md R228, R240, R242). -/
def State.addrSp (s : State) (offset : Word) : Word := align32 (s.reg s.cfg.spReg + offset)

/-- Byte lane `n` of a word (00_scope.md R8, `bnX`). -/
def byteLane (x : Word) (n : BitVec 2) : Byte := x.extractLsb' (8 * n.toNat) 8

/-- Half-word lane `n` of a word (00_scope.md R8, `hnX`). -/
def halfLane (x : Word) (n : BitVec 1) : Half := x.extractLsb' (16 * n.toNat) 16

/-- The byte address of lane `n` of the word at `w` (20_memory.md R64). -/
def byteLaneAddr (w : Word) (n : BitVec 2) : Word := w + n.setWidth 32

/-- The byte address of half-word lane `n` of the word at `w` (20_memory.md R64). -/
def halfLaneAddr (w : Word) (n : BitVec 1) : Word := w + 2#32 * n.setWidth 32

end Sys2Proof.Machine
end

