-- ==== Sys2Proof/Machine/Ops.lean ====
section
/-!
DEFINITION. The operations the meanings share: reading and writing registers and memory, the end of an instruction
(00_scope.md R16), taking a trap and returning from one (60_exceptions.md R332, R338), fetching (20_memory.md R66)
and skipping (45_control_transfer.md R260).
-/

namespace Sys2Proof.Machine

/-- Go on with the value of an operation, or stop as it stopped. -/
def andThen {α β : Type} (o : Result α) (f : α → Result β) : Result β :=
  match o with
  | .next a => f a
  | .fault r => .fault r
  | .refused r => .refused r

/-- Read a visible register (10_state.md R22). -/
def State.readReg (s : State) (i : RegNum) : Result Word :=
  if s.inFile i then .next (s.reg i) else .fault .windowOutOfFile

/-- The state with a visible register replaced (10_state.md R22). -/
def State.setReg (s : State) (i : RegNum) (v : Word) : State := { s with regs := s.regs.set (s.regIndex i) v }

/-- Write a visible register (10_state.md R22). -/
def State.writeReg (s : State) (i : RegNum) (v : Word) : Result State :=
  if s.inFile i then .next (s.setReg i v) else .fault .windowOutOfFile

/-- The state with STATUS replaced. -/
def State.setStatus (s : State) (st : Status) : State := { s with status := st }

/-- The state with ISTATUS replaced. -/
def State.setIstatus (s : State) (st : Status) : State := { s with istatus := st }

/-- The state with the window limits replaced (10_state.md R36). -/
def State.setLimits (s : State) (hi lo : BitVec 5) : State := { s with hiLimit := hi, loLimit := lo }

/-- The state after a WRCTL to STATUS: the next instruction must be NOP (70_reset_and_hazards.md R381). -/
def State.markHazard (s : State) : State := { s with wrctlHazard := true }

/-- The state after a PFX: K loaded, the next instruction prefixed (40_prefix.md R130). -/
def State.setPrefix (s : State) (k : BitVec 11) : State := { s with k := k, pfx := true }

/-- The end of an instruction that is not PFX (00_scope.md R16; 40_prefix.md R131): K and `pfx` cleared; in a delay
slot the pending target becomes the pc, otherwise the instruction's own next pc and pending target take effect, each
modulo 2^`ADDR_BITS`. -/
def State.retire (s : State) (pcNext : Word) (delayNext : Option Word) : State :=
  { s with
    pc := s.delay.getD (s.address pcNext)
    delay := if s.delay.isSome then none else delayNext.map s.address
    k := 0#11
    pfx := false
    wrctlHazard := false }

/-- The end of an instruction that goes on at the next one (10_state.md R26). -/
def State.advance (s : State) : State := s.retire (s.pc + 2#32) none

/-- The end of BR, BSR, JMP, CALL: the delay slot comes next, then the target (45_control_transfer.md R252). -/
def State.branch (s : State) (target : Word) : State := s.retire (s.pc + 2#32) (some target)

/-- Are the `n` bytes from the address on all admitted (20_memory.md R75)? -/
def State.admitsAll (s : State) (a : Word) : Nat → Bool
  | 0 => true
  | n + 1 => s.admits a && s.admitsAll (a + 1#32) n

/-- The bytes of a word, least significant first (20_memory.md R61). -/
def wordBytes (v : Word) : List Byte := [byteLane v 0#2, byteLane v 1#2, byteLane v 2#2, byteLane v 3#2]

/-- The bytes of a half-word, least significant first (20_memory.md R61). -/
def halfBytes (v : Half) : List Byte := [v.extractLsb' 0 8, v.extractLsb' 8 8]

/-- The word at an address, little-endian (20_memory.md R61, R62). -/
def State.wordAt (s : State) (a : Word) : Word :=
  s.byteAt (a + 3#32) ++ s.byteAt (a + 2#32) ++ s.byteAt (a + 1#32) ++ s.byteAt a

/-- `MemRead(a, 4)` (20_memory.md R62). -/
def State.load32 (s : State) (a : Word) : Result Word :=
  if s.admitsAll a 4 then .next (s.wordAt a) else .fault .notAdmitted

/-- Store bytes from an address on (20_memory.md R63). -/
def State.putBytes (s : State) (a : Word) : List Byte → State
  | [] => s
  | v :: rest => (s.putByte a v).putBytes (a + 1#32) rest

/-- `MemWrite`: all the bytes, or none of them where one is not admitted (20_memory.md R63, R75). -/
def State.store (s : State) (a : Word) (bytes : List Byte) : Result State :=
  if s.admitsAll a bytes.length then .next (s.putBytes a bytes) else .fault .notAdmitted

/-- Store the byte lane `n` of `%r0` into lane `n` of the word at `w`, and go on (20_memory.md R64;
44_load_store.md R243). -/
def State.storeByteLane (s : State) (w : Word) (n : BitVec 2) : Result State :=
  andThen (s.readReg zeroReg) fun r =>
  andThen (s.store (byteLaneAddr w n) [byteLane r n]) fun t => .next t.advance

/-- Store the half-word lane `n` of `%r0` into lane `n` of the word at `w`, and go on (20_memory.md R64;
44_load_store.md R243). -/
def State.storeHalfLane (s : State) (w : Word) (n : BitVec 1) : Result State :=
  andThen (s.readReg zeroReg) fun r =>
  andThen (s.store (halfLaneAddr w n) (halfBytes (halfLane r n))) fun t => .next t.advance

/-- Write a register and go on. -/
def State.assign (s : State) (a : RegNum) (v : Word) : Result State :=
  andThen (s.writeReg a v) fun t => .next t.advance

/-- `RA <- f(RA)`, no flag written. -/
def State.mapReg (s : State) (a : RegNum) (f : Word → Word) : Result State :=
  andThen (s.readReg a) fun x => s.assign a (f x)

/-- `RA <- f(RA, RB)`, no flag written; both are read before RA is written (41_arithmetic.md R140). -/
def State.mapRegs (s : State) (a b : RegNum) (f : Word → Word → Word) : Result State :=
  andThen (s.readReg a) fun x => andThen (s.readReg b) fun y => s.assign a (f x y)

/-- `%r0 <- f(%r0, RA)` (43_move_extract_multiply.md R208). -/
def State.mapZero (s : State) (a : RegNum) (f : Word → Word → Word) : Result State :=
  andThen (s.readReg zeroReg) fun r => andThen (s.readReg a) fun x => s.assign zeroReg (f r x)

/-- `RA <- RA + y` with the flags of the addition (41_arithmetic.md R141). -/
def State.addTo (s : State) (a : RegNum) (y : Word) : Result State :=
  andThen (s.readReg a) fun x =>
  (s.setStatus (s.status.withFlags (addFlags x y))).assign a (x + y)

/-- `RA <- RA - y` with the flags of the subtraction (41_arithmetic.md R143). -/
def State.subFrom (s : State) (a : RegNum) (y : Word) : Result State :=
  andThen (s.readReg a) fun x =>
  (s.setStatus (s.status.withFlags (subFlags x y))).assign a (x - y)

/-- The flags of `RA - y`, the difference discarded (41_arithmetic.md R145). -/
def State.compare (s : State) (a : RegNum) (y : Word) : Result State :=
  andThen (s.readReg a) fun x =>
  .next (s.setStatus (s.status.withFlags (subFlags x y))).advance

/-- The value of the second operand of AND, ANDN, OR, XOR (42_logic_shift.md R160). -/
def State.logicOperand (s : State) : LogicOperand → Result Word
  | .reg b => s.readReg b
  | .imm i => .next (s.imm16 i)

/-- `RA <- f(RA, o)` with N and Z of the result (42_logic_shift.md R160). -/
def State.logic (s : State) (a : RegNum) (o : LogicOperand) (f : Word → Word → Word) : Result State :=
  andThen (s.readReg a) fun x => andThen (s.logicOperand o) fun y =>
  (s.setStatus (s.status.withNZ (f x y))).assign a (f x y)

/-- A custom instruction (47_custom.md R321 to R323): `RA <- op(RA, RB)` where the block is a pure function. -/
def State.custom (s : State) (logic : CustomLogic) (op : Word → Word → Word) (a b : RegNum) : Result State :=
  match logic with
  | .absent => .fault .customAbsent
  | .impure => .refused .customNotPure
  | .pure => s.mapRegs a b op

/-- Is the window number outside the register file (10_state.md R32)? -/
def State.badWindow (s : State) (cwp : BitVec 5) : Bool := decide (s.cfg.nwin ≤ cwp.toNat)

/-- The address of entry `n` of the vector table (20_memory.md R71). -/
def State.vectorAddr (s : State) (n : BitVec 6) : Word := s.cfg.vecbase + 4#32 * n.setWidth 32

/-- The state while a trap is entered: STATUS saved, IE cleared, IPRI the vector number, CWP as given
(60_exceptions.md R332). -/
def State.trapped (s : State) (n : BitVec 6) (cwp : BitVec 5) : State :=
  { s with
    istatus := s.status
    status := { s.status with ie := false, ipri := n, cwp := cwp } }

/-- The state at the handler's first instruction (60_exceptions.md R332; 40_prefix.md R135); the vector holds its
half-word address. -/
def State.atHandler (s : State) (vector : Word) : State :=
  { s with pc := s.address (vector * 2#32), delay := none, k := 0#11, pfx := false, wrctlHazard := false }

/-- Trap entry once the handler's window is known: STATUS is saved, `%o7` of that window gets the return half-word
address, control goes where the vector says (60_exceptions.md R332). -/
def State.enterTrapAt (s : State) (n : BitVec 6) (ret : Word) (cwp : BitVec 5) : Result State :=
  andThen ((s.trapped n cwp).writeReg linkReg (s.address ret >>> 1)) fun t =>
  andThen (t.load32 (t.vectorAddr n)) fun v => .next (t.atHandler v)

/-- `raise Trap(n, ret)` (60_exceptions.md R332): one window down, or stop at window 0. -/
def State.raiseTrap (s : State) (n : BitVec 6) (ret : Word) : Result State :=
  if s.status.cwp = 0#5 then .fault .windowOutOfFile
  else s.enterTrapAt n ret (s.status.cwp - 1#5)

/-- `raise Trap(n, ret)` without the decrement of CWP: the underflow trap of SAVE (60_exceptions.md R334; log 16). -/
def State.raiseTrapHere (s : State) (n : BitVec 6) (ret : Word) : Result State :=
  s.enterTrapAt n ret s.status.cwp

/-- Return from a trap (60_exceptions.md R338): the target is read through the handler's window, then STATUS comes
back from ISTATUS; a window outside the file stops it (46_window_trap_control.md R293; log 28). -/
def State.returnFromTrap (s : State) (a : RegNum) : Result State :=
  andThen (s.readReg a) fun x =>
  if s.badWindow s.istatus.cwp then .fault .windowOutOfFile
  else .next ((s.setStatus s.istatus).retire (x * 2#32) none)

/-- The limits register as a word: HI_LIMIT bits 9..5, LO_LIMIT bits 4..0 (10_state.md R36). -/
def State.wvalid (s : State) : Word := (s.hiLimit ++ s.loLimit).setWidth 32

/-- The request that is accepted before this step, if any (60_exceptions.md R340; log 22). -/
def State.accepted (s : State) : Option (BitVec 6) :=
  match s.request with
  | none => none
  | some n =>
    if s.delay.isNone && !s.pfx && !s.wrctlHazard && s.status.ie && decide (n.toNat < s.status.ipri.toNat) then some n
    else none

/-- `Fetch16(p)` (20_memory.md R66): the half-word at an even, admitted address the program has not stored to
(R75, R79). -/
def State.fetch16 (s : State) (p : Word) : Result Half :=
  if p.getLsbD 0 then .refused .oddPc
  else if s.admitsAll p 2 then
    if s.wasStored p || s.wasStored (p + 1#32) then .refused .selfModifiedFetch
    else .next (halfOfBytes (s.byteAt p) (s.byteAt (p + 1#32)))
  else .fault .notAdmitted

/-- The loop of a taken skip, at most `fuel` words long (45_control_transfer.md R260): past every PFX, then past one
instruction. -/
def State.skipFrom (s : State) : Nat → Word → Result Word
  | 0, _ => .fault .skipWithoutEnd
  | fuel + 1, p =>
    andThen (s.fetch16 p) fun w => if isPfxWord w then s.skipFrom fuel (p + 2#32) else .next (p + 2#32)

/-- As many half-words as memory has: a longer run of PFX does not exist. -/
def skipFuel : Nat := 2147483648

/-- The end of a skip instruction whose condition is `taken` (45_control_transfer.md R260). -/
def State.skipIf (s : State) (taken : Bool) : Result State :=
  if taken then andThen (s.skipFrom skipFuel (s.pc + 2#32)) fun p => .next (s.retire p none)
  else .next s.advance

end Sys2Proof.Machine
end

