-- ==== Sys2Proof/Machine/Arithmetic.lean ====
section
/-!
DEFINITION. The meanings of the arithmetic and compare instructions (41_arithmetic.md).
-/

namespace Sys2Proof.Machine

/-- ADD (41_arithmetic.md R141). -/
def execAdd (a b : RegNum) (s : State) : Result State := andThen (s.readReg b) fun y => s.addTo a y

/-- ADDI (41_arithmetic.md R142). -/
def execAddi (a : RegNum) (imm5 : BitVec 5) (s : State) : Result State := s.addTo a (s.imm16 imm5)

/-- SUB (41_arithmetic.md R143). -/
def execSub (a b : RegNum) (s : State) : Result State := andThen (s.readReg b) fun y => s.subFrom a y

/-- SUBI (41_arithmetic.md R144). -/
def execSubi (a : RegNum) (imm5 : BitVec 5) (s : State) : Result State := s.subFrom a (s.imm16 imm5)

/-- CMP (41_arithmetic.md R145). -/
def execCmp (a b : RegNum) (s : State) : Result State := andThen (s.readReg b) fun y => s.compare a y

/-- CMPI (41_arithmetic.md R146). -/
def execCmpi (a : RegNum) (imm5 : BitVec 5) (s : State) : Result State := s.compare a (s.imm16 imm5)

/-- NEG (41_arithmetic.md R147; log 29). -/
def execNeg (a : RegNum) (s : State) : Result State := s.mapReg a fun x => 0#32 - x

/-- ABS (41_arithmetic.md R148; log 29). -/
def execAbs (a : RegNum) (s : State) : Result State := s.mapReg a fun x => if x.getLsbD 31 then 0#32 - x else x

end Sys2Proof.Machine
end

