-- ==== Sys2Proof/Machine/Control.lean ====
section
/-!
DEFINITION. The meanings of the branches, jumps, calls and skips (45_control_transfer.md). The instructions that may
not stand in a delay slot are stopped by `step` (Machine/Fetch.lean), before their meaning.
-/

namespace Sys2Proof.Machine

/-- The target of BR and BSR: `pc + (sext_11(IMM11) + 1) * 2` (45_control_transfer.md R254). -/
def State.branchTarget (s : State) (imm11 : BitVec 11) : Word := s.pc + (imm11.signExtend 32 + 1#32) * 2#32

/-- The link value of BSR and CALL: the half-word address after the slot (45_control_transfer.md R255). -/
def State.linkValue (s : State) : Word := s.address (s.pc + 4#32) >>> 1

/-- BR (45_control_transfer.md R254). -/
def execBr (imm11 : BitVec 11) (s : State) : Result State := .next (s.branch (s.branchTarget imm11))

/-- BSR (45_control_transfer.md R255). -/
def execBsr (imm11 : BitVec 11) (s : State) : Result State :=
  andThen (s.writeReg linkReg s.linkValue) fun t => .next (t.branch (s.branchTarget imm11))

/-- JMP (45_control_transfer.md R256). -/
def execJmp (a : RegNum) (s : State) : Result State := andThen (s.readReg a) fun x => .next (s.branch (x * 2#32))

/-- CALL: RA is read before `%r15` is written (45_control_transfer.md R257). -/
def execCall (a : RegNum) (s : State) : Result State :=
  andThen (s.readReg a) fun x =>
  andThen (s.writeReg linkReg s.linkValue) fun t => .next (t.branch (x * 2#32))

/-- SKP0 (45_control_transfer.md R261). -/
def execSkp0 (a : RegNum) (imm5 : BitVec 5) (s : State) : Result State :=
  andThen (s.readReg a) fun x => s.skipIf (!x.getLsbD imm5.toNat)

/-- SKP1 (45_control_transfer.md R262). -/
def execSkp1 (a : RegNum) (imm5 : BitVec 5) (s : State) : Result State :=
  andThen (s.readReg a) fun x => s.skipIf (x.getLsbD imm5.toNat)

/-- SKPRZ (45_control_transfer.md R263). -/
def execSkprz (a : RegNum) (s : State) : Result State := andThen (s.readReg a) fun x => s.skipIf (x == 0#32)

/-- SKPRNZ (45_control_transfer.md R264). -/
def execSkprnz (a : RegNum) (s : State) : Result State := andThen (s.readReg a) fun x => s.skipIf (x != 0#32)

/-- SKPS (45_control_transfer.md R265). -/
def execSkps (imm4 : BitVec 4) (s : State) : Result State :=
  match condition s.cfg.cc imm4 s.status with
  | some taken => s.skipIf taken
  | none => .fault .badCondition

end Sys2Proof.Machine
end

