-- ==== Sys2Proof/Machine/Custom.lean ====
section
/-!
DEFINITION. The meanings of the custom instructions (47_custom.md). Whether a block is there is configuration, what
it computes is a free value of Config (log 20).
-/

namespace Sys2Proof.Machine

/-- USR0 (47_custom.md R323). -/
def execUsr0 (a b : RegNum) (s : State) : Result State := s.custom s.cfg.usr0 Config.usrOp0 a b

/-- USR1: the second operand is `%r0` (47_custom.md R324). -/
def execUsr1 (a : RegNum) (s : State) : Result State := s.custom s.cfg.usr1 Config.usrOp1 a zeroReg

/-- USR2 (47_custom.md R325). -/
def execUsr2 (a : RegNum) (s : State) : Result State := s.custom s.cfg.usr2 Config.usrOp2 a zeroReg

/-- USR3 (47_custom.md R326). -/
def execUsr3 (a : RegNum) (s : State) : Result State := s.custom s.cfg.usr3 Config.usrOp3 a zeroReg

/-- USR4 (47_custom.md R327). -/
def execUsr4 (a : RegNum) (s : State) : Result State := s.custom s.cfg.usr4 Config.usrOp4 a zeroReg

end Sys2Proof.Machine
end

