-- ==== Sys2Proof/Machine/LoadStore.lean ====
section
/-!
DEFINITION. The meanings of the load and store instructions (44_load_store.md). A load reads its base register before
it writes RA (R220).
-/

namespace Sys2Proof.Machine

/-- Load the word at an address into a register and go on. -/
def State.loadTo (s : State) (a : RegNum) (w : Word) : Result State :=
  andThen (s.load32 w) fun v => s.assign a v

/-- Store a register's word at an address and go on. -/
def State.storeFrom (s : State) (a : RegNum) (w : Word) : Result State :=
  andThen (s.readReg a) fun v => andThen (s.store w (wordBytes v)) fun t => .next t.advance

/-- LD (44_load_store.md R221). -/
def execLd (a b : RegNum) (s : State) : Result State := andThen (s.readReg b) fun _ => s.loadTo a (s.addrK b)

/-- ST (44_load_store.md R222). -/
def execSt (a b : RegNum) (s : State) : Result State := andThen (s.readReg b) fun _ => s.storeFrom a (s.addrK b)

/-- STP (44_load_store.md R224). -/
def execStp (a : RegNum) (p : BitVec 2) (imm5 : BitVec 5) (s : State) : Result State :=
  andThen (s.readReg (s.pReg p)) fun _ => s.storeFrom a (s.addrP p imm5)

/-- LDP (44_load_store.md R226). -/
def execLdp (a : RegNum) (p : BitVec 2) (imm5 : BitVec 5) (s : State) : Result State :=
  andThen (s.readReg (s.pReg p)) fun _ => s.loadTo a (s.addrP p imm5)

/-- LDS (44_load_store.md R228). -/
def execLds (a : RegNum) (imm8 : BitVec 8) (s : State) : Result State :=
  andThen (s.readReg s.cfg.spReg) fun _ => s.loadTo a (s.addrSp (imm8.setWidth 32 * 4#32))

/-- STS (44_load_store.md R230). -/
def execSts (a : RegNum) (imm8 : BitVec 8) (s : State) : Result State :=
  andThen (s.readReg s.cfg.spReg) fun _ => s.storeFrom a (s.addrSp (imm8.setWidth 32 * 4#32))

/-- ST8D: the lane is the low two bits of RA (44_load_store.md R232). -/
def execSt8d (a : RegNum) (s : State) : Result State :=
  andThen (s.readReg a) fun x => s.storeByteLane (s.addrK a) (x.extractLsb' 0 2)

/-- ST8S: the lane is IMM2u (44_load_store.md R234). -/
def execSt8s (a : RegNum) (imm2 : BitVec 2) (s : State) : Result State :=
  andThen (s.readReg a) fun _ => s.storeByteLane (s.addrK a) imm2

/-- ST16D: the lane is bit 1 of RA (44_load_store.md R236). -/
def execSt16d (a : RegNum) (s : State) : Result State :=
  andThen (s.readReg a) fun x => s.storeHalfLane (s.addrK a) (x.extractLsb' 1 1)

/-- ST16S: the lane is IMM1u (44_load_store.md R238). -/
def execSt16s (a : RegNum) (imm1 : BitVec 1) (s : State) : Result State :=
  andThen (s.readReg a) fun _ => s.storeHalfLane (s.addrK a) imm1

/-- STS8S: the lane is the low two bits of IMM10 (44_load_store.md R240). -/
def execSts8s (imm10 : BitVec 10) (s : State) : Result State :=
  andThen (s.readReg s.cfg.spReg) fun _ =>
  s.storeByteLane (s.addrSp (imm10.setWidth 32)) (imm10.extractLsb' 0 2)

/-- STS16S: the lane is bit 0 of IMM9 (44_load_store.md R242). -/
def execSts16s (imm9 : BitVec 9) (s : State) : Result State :=
  andThen (s.readReg s.cfg.spReg) fun _ =>
  s.storeHalfLane (s.addrSp (imm9.setWidth 32 * 2#32)) (imm9.extractLsb' 0 1)

end Sys2Proof.Machine
end

