-- ==== Sys2Proof/Machine/Logic.lean ====
section
/-!
DEFINITION. The meanings of the logic, shift, rotate and bit-generate instructions (42_logic_shift.md).
-/

namespace Sys2Proof.Machine

/-- AND (42_logic_shift.md R160). -/
def execAnd (a : RegNum) (o : LogicOperand) (s : State) : Result State := s.logic a o fun x y => x &&& y

/-- ANDN (42_logic_shift.md R161). -/
def execAndn (a : RegNum) (o : LogicOperand) (s : State) : Result State := s.logic a o fun x y => x &&& ~~~y

/-- OR (42_logic_shift.md R162). -/
def execOr (a : RegNum) (o : LogicOperand) (s : State) : Result State := s.logic a o fun x y => x ||| y

/-- XOR (42_logic_shift.md R163). -/
def execXor (a : RegNum) (o : LogicOperand) (s : State) : Result State := s.logic a o fun x y => x ^^^ y

/-- NOT (42_logic_shift.md R164). -/
def execNot (a : RegNum) (s : State) : Result State := s.mapReg a fun x => ~~~x

/-- The shift count a register holds: its low five bits (42_logic_shift.md R170). -/
def shiftCount (y : Word) : Nat := (y.extractLsb' 0 5).toNat

/-- LSL (42_logic_shift.md R170). -/
def execLsl (a b : RegNum) (s : State) : Result State := s.mapRegs a b fun x y => x <<< shiftCount y

/-- LSLI (42_logic_shift.md R171). -/
def execLsli (a : RegNum) (imm5 : BitVec 5) (s : State) : Result State := s.mapReg a fun x => x <<< imm5.toNat

/-- LSR (42_logic_shift.md R172). -/
def execLsr (a b : RegNum) (s : State) : Result State := s.mapRegs a b fun x y => x >>> shiftCount y

/-- LSRI (42_logic_shift.md R173). -/
def execLsri (a : RegNum) (imm5 : BitVec 5) (s : State) : Result State := s.mapReg a fun x => x >>> imm5.toNat

/-- ASR (42_logic_shift.md R174). -/
def execAsr (a b : RegNum) (s : State) : Result State := s.mapRegs a b fun x y => x.sshiftRight (shiftCount y)

/-- ASRI (42_logic_shift.md R175). -/
def execAsri (a : RegNum) (imm5 : BitVec 5) (s : State) : Result State := s.mapReg a fun x => x.sshiftRight imm5.toNat

/-- RLC: the old C enters at bit 0, the old bit 31 becomes C (42_logic_shift.md R182; log 14). -/
def execRlc (a : RegNum) (s : State) : Result State :=
  andThen (s.readReg a) fun x =>
  (s.setStatus (s.status.withC (x.getLsbD 31))).assign a (x.extractLsb' 0 31 ++ BitVec.ofBool s.status.c)

/-- RRC: the old C enters at bit 31, the old bit 0 becomes C (42_logic_shift.md R183; log 14). -/
def execRrc (a : RegNum) (s : State) : Result State :=
  andThen (s.readReg a) fun x =>
  (s.setStatus (s.status.withC (x.getLsbD 0))).assign a (BitVec.ofBool s.status.c ++ x.extractLsb' 1 31)

/-- BGEN (42_logic_shift.md R185). -/
def execBgen (a : RegNum) (imm5 : BitVec 5) (s : State) : Result State := s.assign a (1#32 <<< imm5.toNat)

end Sys2Proof.Machine
end

