-- ==== Sys2Proof/Machine/Move.lean ====
section
/-!
DEFINITION. The meanings of the move, extract, extend, fill and multiply instructions (43_move_extract_multiply.md).
-/

namespace Sys2Proof.Machine

/-- MOV; the word `0x3000`, `MOV %g0, %g0`, is NOP and touches no register (43_move_extract_multiply.md R190). -/
def execMov (a b : RegNum) (s : State) : Result State :=
  if a = zeroReg ∧ b = zeroReg then .next s.advance else andThen (s.readReg b) fun y => s.assign a y

/-- MOVI (43_move_extract_multiply.md R191). -/
def execMovi (a : RegNum) (imm5 : BitVec 5) (s : State) : Result State := s.assign a (s.imm16 imm5)

/-- MOVHI (43_move_extract_multiply.md R192). -/
def execMovhi (a : RegNum) (imm5 : BitVec 5) (s : State) : Result State :=
  s.mapReg a fun x => (s.k ++ imm5) ++ halfLane x 0#1

/-- SWAP (43_move_extract_multiply.md R193). -/
def execSwap (a : RegNum) (s : State) : Result State := s.mapReg a fun x => halfLane x 0#1 ++ halfLane x 1#1

/-- SEXT8 (43_move_extract_multiply.md R194). -/
def execSext8 (a : RegNum) (s : State) : Result State := s.mapReg a fun x => (byteLane x 0#2).signExtend 32

/-- SEXT16 (43_move_extract_multiply.md R195). -/
def execSext16 (a : RegNum) (s : State) : Result State := s.mapReg a fun x => (halfLane x 0#1).signExtend 32

/-- EXT8D (43_move_extract_multiply.md R196). -/
def execExt8d (a b : RegNum) (s : State) : Result State :=
  s.mapRegs a b fun x y => (byteLane x (y.extractLsb' 0 2)).setWidth 32

/-- EXT8S (43_move_extract_multiply.md R197). -/
def execExt8s (a : RegNum) (imm2 : BitVec 2) (s : State) : Result State :=
  s.mapReg a fun x => (byteLane x imm2).setWidth 32

/-- EXT16D (43_move_extract_multiply.md R198). -/
def execExt16d (a b : RegNum) (s : State) : Result State :=
  s.mapRegs a b fun x y => (halfLane x (y.extractLsb' 1 1)).setWidth 32

/-- EXT16S (43_move_extract_multiply.md R199). -/
def execExt16s (a : RegNum) (imm1 : BitVec 1) (s : State) : Result State :=
  s.mapReg a fun x => (halfLane x imm1).setWidth 32

/-- FILL8 (43_move_extract_multiply.md R206). -/
def execFill8 (a : RegNum) (s : State) : Result State :=
  andThen (s.readReg a) fun x =>
  s.assign zeroReg (byteLane x 0#2 ++ byteLane x 0#2 ++ byteLane x 0#2 ++ byteLane x 0#2)

/-- FILL16 (43_move_extract_multiply.md R207). -/
def execFill16 (a : RegNum) (s : State) : Result State :=
  andThen (s.readReg a) fun x => s.assign zeroReg (halfLane x 0#1 ++ halfLane x 0#1)

/-- The value one multiply step leaves in `%r0` (43_move_extract_multiply.md R210). -/
def mstepValue (r x : Word) : Word := if r.getLsbD 31 then (r <<< 1) + x else r <<< 1

/-- MSTEP (43_move_extract_multiply.md R210). -/
def execMstep (a : RegNum) (s : State) : Result State := s.mapZero a mstepValue

/-- MUL (43_move_extract_multiply.md R211). -/
def execMul (a : RegNum) (s : State) : Result State :=
  s.mapZero a fun r x => (r &&& 0xFFFF#32) * (x &&& 0xFFFF#32)

end Sys2Proof.Machine
end

