-- ==== Sys2Proof/Machine/Prefix.lean ====
section
/-!
DEFINITION. The meaning of PFX (40_prefix.md).
-/

namespace Sys2Proof.Machine

/-- PFX (40_prefix.md R130, R133). -/
def execPfx (imm11 : BitVec 11) (s : State) : Result State := .next (s.advance.setPrefix imm11)

end Sys2Proof.Machine
end

