-- ==== Sys2Proof/Machine/Window.lean ====
section
/-!
DEFINITION. The meanings of the register-window, trap and control-register instructions
(46_window_trap_control.md).
-/

namespace Sys2Proof.Machine

/-- STATUS with CWP replaced. -/
def Status.withCwp (st : Status) (cwp : BitVec 5) : Status := { st with cwp := cwp }

/-- SAVE: one window down, `%sp` of the new window below its `%fp`; TRAP #1 where the old window was LO_LIMIT
(46_window_trap_control.md R290; log 16). -/
def execSave (imm8 : BitVec 8) (s : State) : Result State :=
  if s.status.cwp = 0#5 then .fault .windowOutOfFile
  else
    andThen ((s.setStatus (s.status.withCwp (s.status.cwp - 1#5))).readReg s.cfg.fpReg) fun fp =>
    andThen ((s.setStatus (s.status.withCwp (s.status.cwp - 1#5))).writeReg s.cfg.spReg
      (fp - imm8.setWidth 32 * 4#32)) fun t =>
    if s.status.cwp = s.loLimit then
      if s.delay.isSome then .fault .trapInDelaySlot else t.raiseTrapHere 1#6 (s.pc + 2#32)
    else .next t.advance

/-- RESTORE: one window up; TRAP #2 where the old window was HI_LIMIT (46_window_trap_control.md R291; log 17). -/
def execRestore (s : State) : Result State :=
  if s.cfg.nwin ≤ s.status.cwp.toNat + 1 ∧ s.status.cwp ≠ s.hiLimit then .fault .windowOutOfFile
  else if s.status.cwp = s.hiLimit then
    if s.delay.isSome then .fault .trapInDelaySlot
    else (s.setStatus (s.status.withCwp (s.status.cwp + 1#5))).raiseTrap 2#6 (s.pc + 2#32)
  else .next (s.setStatus (s.status.withCwp (s.status.cwp + 1#5))).advance

/-- TRAP (46_window_trap_control.md R292). -/
def execTrap (imm6 : BitVec 6) (s : State) : Result State := s.raiseTrap imm6 (s.pc + 2#32)

/-- TRET (46_window_trap_control.md R293). -/
def execTret (a : RegNum) (s : State) : Result State := s.returnFromTrap a

/-- WRCTL (46_window_trap_control.md R294). -/
def execWrctl (a : RegNum) (s : State) : Result State :=
  andThen (s.readReg a) fun x =>
  if s.k = 0#11 then
    if s.badWindow (Status.unpack s.cfg.layout x).cwp then .fault .windowOutOfFile
    else .next (s.setStatus (Status.unpack s.cfg.layout x)).advance.markHazard
  else if s.k = s.cfg.ctlIstatus then .next (s.setIstatus (Status.unpack s.cfg.layout x)).advance
  else if s.k = s.cfg.ctlWvalid then .next (s.setLimits (x.extractLsb' 5 5) (x.extractLsb' 0 5)).advance
  else .fault .unknownControlRegister

/-- RDCTL (46_window_trap_control.md R295). -/
def execRdctl (a : RegNum) (s : State) : Result State :=
  if s.k = 0#11 then s.assign a (s.status.pack s.cfg.layout)
  else if s.k = s.cfg.ctlIstatus then s.assign a (s.istatus.pack s.cfg.layout)
  else if s.k = s.cfg.ctlWvalid then s.assign a s.wvalid
  else .fault .unknownControlRegister

end Sys2Proof.Machine
end

