-- ==== Sys2Proof/Machine/Fetch.lean ====
section
/-!
DEFINITION. What comes before an instruction's meaning (00_scope.md R16): its word is fetched and decoded, and the two
checks on where it stands are made, in the order of 60_exceptions.md R341.
-/

namespace Sys2Proof.Machine

/-- The fault a word that is no instruction raises (30_encoding.md R103, R104). -/
def decodeFault : DecodeError → Fault
  | .unusedOpcode => .unusedOpcode
  | .unlistedOpcode => .unlistedOpcode
  | .truncated => .unlistedOpcode

/-- The instruction at the pc (00_scope.md R16). -/
def State.fetchInstr (s : State) : Result Instr :=
  andThen (s.fetch16 s.pc) fun w =>
  match decode w s.pfx with
  | .ok i => .next i
  | .error e => .fault (decodeFault e)

/-- May the instruction not stand in a delay slot (45_control_transfer.md R253)? -/
def slotForbidden : Instr → Bool
  | .br .. | .bsr .. | .call .. | .jmp .. | .pfx .. | .skp0 .. | .skp1 .. | .skprz .. | .skprnz .. | .skps ..
  | .tret .. | .trap .. => true
  | .add .. | .addi .. | .sub .. | .subi .. | .cmp .. | .cmpi .. | .lsl .. | .lsli .. | .lsr .. | .lsri ..
  | .asr .. | .asri .. | .mov .. | .movi .. | .and .. | .andn .. | .or .. | .xor .. | .bgen .. | .ext8d ..
  | .ld .. | .st .. | .sts8s .. | .sts16s .. | .ext16d .. | .movhi .. | .usr0 .. | .ext8s .. | .ext16s ..
  | .st8s .. | .st16s .. | .save .. | .not .. | .neg .. | .abs .. | .sext8 .. | .sext16 .. | .rlc .. | .rrc ..
  | .swap .. | .usr1 .. | .usr2 .. | .usr3 .. | .usr4 .. | .restore | .st8d .. | .st16d .. | .fill8 ..
  | .fill16 .. | .mstep .. | .mul .. | .wrctl .. | .rdctl .. | .stp .. | .ldp .. | .sts .. | .lds .. => false

/-- NOP, the word `0x3000` (30_encoding.md R115). -/
def nop : Instr := .mov zeroReg zeroReg

/-- The checks of 00_scope.md R16 between decoding and the meaning: a forbidden instruction in a slot, then a missing
NOP after WRCTL. -/
def State.placeFault (s : State) (i : Instr) : Option Fault :=
  if s.delay.isSome && slotForbidden i then some .badDelaySlot
  else if s.wrctlHazard && i != nop then some .wrctlNotFollowedByNop
  else none

/-- Place the two bytes of an instruction where the next fetch reads (log 23): the bytes become known and count as
not stored by the program, their addresses are admitted, and no request is accepted before the instruction. -/
def State.placeBytes (s : State) (lo hi : Byte) : State :=
  let p := (s.address s.pc).toNat
  let q := (s.address (s.pc + 1#32)).toNat
  { s with
    cfg := if s.admitsAll s.pc 2 then s.cfg else { s.cfg with admitted := ⟨p, 1⟩ :: ⟨q, 1⟩ :: s.cfg.admitted }
    mem := Memory.write (Memory.write s.mem p lo) q hi
    stored := s.stored.filter fun a => a != p && a != q
    request := if s.accepted.isSome then none else s.request }

/-- `State.withFetchWord`'s work: the bytes of the instruction, placed at the pc. -/
def State.placeWord (s : State) (nbits w : Nat) : State :=
  match tableBytes nbits w with
  | lo :: hi :: _ => s.placeBytes lo hi
  | _ => s

end Sys2Proof.Machine
end

