-- ==== Sys2Proof/Machine/Step.lean ====
section
/-!
DEFINITION. One step of the machine (00_scope.md R16), and the placing of an instruction where the next step fetches.
-/

namespace Sys2Proof.Machine

/-- One step: the entry of an accepted interrupt request (60_exceptions.md R340), or else the instruction at the pc,
after the checks of 00_scope.md R16. -/
def step (s : State) : Host.Outcome State Fault Refusal :=
  match s.accepted with
  | some n => s.raiseTrap n s.pc
  | none =>
    andThen s.fetchInstr fun i =>
    match s.placeFault i with
    | some r => .fault r
    | none => exec i s

/-- The state with an instruction of `nbits` bits, whose bits are `w`, where the next step fetches (log 23). -/
def State.withFetchWord (s : State) (nbits w : Nat) : State := s.placeWord nbits w

end Sys2Proof.Machine
end

