-- ==== Sys2Proof/Safety.lean ====
section
/-!
DEFINITION. What counts as a good state and as the end of a run: the invariant every step keeps, the end of a run at
`stop_pc` (70_reset_and_hazards.md R387), and the families of instructions that statements name.
-/

namespace Sys2Proof.Machine

/-- The invariant of the machine: what holds at reset and is kept by every step. -/
structure State.Inv (s : State) : Prop where
  /-- The configuration is one the spec describes (00_scope.md R6). -/
  config : s.cfg.wellFormed = true
  /-- The register file has its size (10_state.md R20). -/
  fileSize : s.regs.length = s.cfg.nregs
  /-- CWP names a window of the file (10_state.md R32). -/
  window : s.status.cwp.toNat < s.cfg.nwin
  /-- Bit 0 of `pc` is 0 (10_state.md R25). -/
  pcEven : s.pc.getLsbD 0 = false
  /-- So is bit 0 of a pending target, which becomes the pc. -/
  delayEven : ∀ t, s.delay = some t → t.getLsbD 0 = false
  /-- The pc has `ADDR_BITS` bits (10_state.md R25, 00_scope.md R16). -/
  pcFits : s.pc.toNat < 2 ^ s.cfg.addrBits
  /-- So has a pending target. -/
  delayFits : ∀ t, s.delay = some t → t.toNat < 2 ^ s.cfg.addrBits
  /-- K is zero unless the previous instruction was PFX (40_prefix.md R131). -/
  prefixClear : s.pfx = false → s.k = 0#11
  /-- A pending prefix, a pending target and a pending NOP exclude one another (00_scope.md R16;
  45_control_transfer.md R253; 70_reset_and_hazards.md R381). -/
  pendingAlone : (s.pfx = true → s.delay = none ∧ s.wrctlHazard = false) ∧ (s.wrctlHazard = true → s.delay = none)
  /-- Memory is in its canonical form. -/
  memory : Memory.wf s.mem
  /-- So is the list of stored addresses. -/
  marks : Marks.wf s.stored
  /-- The addresses memory lists are those of the system (20_memory.md R74). -/
  memoryFits : ∀ c ∈ s.mem, c.1 < 2 ^ s.cfg.addrBits
  /-- A byte the program stored has a known value (20_memory.md R63). -/
  storedKnown : ∀ a ∈ s.stored, (Memory.read s.mem a).isSome = true

/-- Has a run with this `stop_pc` ended before the next step (70_reset_and_hazards.md R387; log 24)? -/
def State.finished (stopPc : Word) (s : State) : Bool :=
  s.pc == stopPc && s.delay.isNone && !s.pfx && !s.wrctlHazard

/-- How a run of at most so many steps ends. -/
inductive RunEnd where
  /-- At `stop_pc`. -/
  | finished (s : State)
  /-- With steps left to do. -/
  | running (s : State)
  /-- In a fault; no final state (70_reset_and_hazards.md R387). -/
  | fault (r : Fault)
  /-- In a refusal; no final state. -/
  | refused (r : Refusal)
  deriving DecidableEq, Repr

/-- A run of at most `n` steps to `stop_pc`; the word there is not fetched (70_reset_and_hazards.md R387). -/
def runTo (stopPc : Word) : Nat → State → RunEnd
  | 0, s => if s.finished stopPc then .finished s else .running s
  | n + 1, s =>
    if s.finished stopPc then .finished s
    else
      match step s with
      | .next t => runTo stopPc n t
      | .fault r => .fault r
      | .refused r => .refused r

/-- A run is safe for `n` steps where none of them faults or is refused. -/
def safeFor : Nat → State → Prop
  | 0, _ => True
  | n + 1, s => ∃ t, step s = .next t ∧ safeFor n t

/-! ### Families of instructions, by what their rows let them write -/

/-- The instructions whose rows list the flags N, V, C, Z. -/
def isArithmetic : Instr → Bool
  | .add .. | .addi .. | .sub .. | .subi .. | .cmp .. | .cmpi .. => true
  | _ => false

/-- The instructions whose rows list the flags N, Z. -/
def isLogic : Instr → Bool
  | .and .. | .andn .. | .or .. | .xor .. => true
  | _ => false

/-- The instructions whose rows list the flag C alone. -/
def isRotate : Instr → Bool
  | .rlc .. | .rrc .. => true
  | _ => false

/-- The instructions that write STATUS as a whole, where K selects it. -/
def isStatusWriter (k : BitVec 11) : Instr → Bool
  | .wrctl .. => k == 0#11
  | .tret .. => true
  | _ => false

/-- The instructions that move the window or enter a trap. -/
def isWindowOrTrap : Instr → Bool
  | .save .. | .restore | .trap .. => true
  | _ => false

/-- The instructions that store to memory. -/
def isStore : Instr → Bool
  | .st .. | .stp .. | .sts .. | .st8d .. | .st8s .. | .st16d .. | .st16s .. | .sts8s .. | .sts16s .. => true
  | _ => false

end Sys2Proof.Machine
end

