-- ==== Sys2Proof/Certificates/Slice0/Obligations.lean ====
section
/-!
DEFINITION. The statements for the provers, and above them the words they are written in: what an instruction leaves
behind, as relations between the state before and the state after. A statement says `exec i s` ANSWERS a next state
under conditions on the state and the operands alone, gives the new values, and then the frame.

Where a docstring names a log entry, the statement rests on a choice of the spec or of the model that the entry marks.
-/

namespace Sys2Proof.Claims

open Sys2Proof.Machine

/-! ### The frame -/

/-- The visible register is a cell of a register file of full size (10_state.md R20, R22). -/
def HasReg (s : State) (i : RegNum) : Prop := s.inFile i = true ∧ s.regs.length = s.cfg.nregs

/-- CWP is legal and the register file has its size (10_state.md R20, R32): every visible register is there. -/
def InWindow (s : State) : Prop := s.status.cwp.toNat < s.cfg.nwin ∧ s.regs.length = s.cfg.nregs

/-- The byte address that a 32-bit value is: its value modulo 2^`ADDR_BITS` (00_scope.md R16, 20_memory.md R74; log
31). -/
def wrapped (s : State) (p : Word) : Word := BitVec.ofNat 32 (p.toNat % 2 ^ s.cfg.addrBits)

/-- Addresses are wide enough for the four bytes of a word to be four bytes; `Config.wellFormed` asks for it (log 31). -/
def WordsFit (s : State) : Prop := 2 ≤ s.cfg.addrBits

/-- The end of an instruction that is not PFX (00_scope.md R16): K, `pfx` and the WRCTL mark are clear; in a delay slot
the pending target is the next pc, elsewhere the instruction's own `p` and `d`. -/
def Retires (s t : State) (p : Word) (d : Option Word) : Prop :=
  t.pc = s.delay.getD (wrapped s p) ∧ t.delay = (if s.delay = none then d.map (wrapped s) else none) ∧ t.k = 0#11 ∧
    t.pfx = false ∧ t.wrctlHazard = false

/-- The instruction goes on at the next one. -/
def Advances (s t : State) : Prop := Retires s t (s.pc + 2#32) none

/-- The configuration, ISTATUS, the window limits and the interrupt input are as before. -/
def KeepsSystem (s t : State) : Prop :=
  t.cfg = s.cfg ∧ t.istatus = s.istatus ∧ t.hiLimit = s.hiLimit ∧ t.loLimit = s.loLimit ∧ t.request = s.request

/-- Every byte of memory reads as before, and none was stored. -/
def KeepsMemory (s t : State) : Prop := ∀ a, t.byteAt a = s.byteAt a ∧ t.wasStored a = s.wasStored a

/-- Every cell of the register file holds what it held. -/
def KeepsRegisters (s t : State) : Prop := ∀ n, t.cell n = s.cell n

/-- Every cell but number `m` holds what it held. -/
def KeepsOtherCells (s t : State) (m : Nat) : Prop := ∀ n, n ≠ m → t.cell n = s.cell n

/-- Nothing changed but how execution goes on. -/
def Quiet (s t : State) : Prop := KeepsRegisters s t ∧ t.status = s.status ∧ KeepsSystem s t ∧ KeepsMemory s t

/-- The instruction completes: it writes `v` into the register `a` and `st` into STATUS, and nothing else. -/
def Assigns (i : Instr) (s : State) (a : RegNum) (v : Word) (st : Status) : Prop :=
  ∃ t, exec i s = .next t ∧ t.reg a = v ∧ KeepsOtherCells s t (s.regIndex a) ∧ t.status = st ∧ KeepsSystem s t ∧
    KeepsMemory s t ∧ Advances s t

/-- The instruction completes: it writes `st` into STATUS and nothing else. -/
def SetsStatus (i : Instr) (s : State) (st : Status) : Prop :=
  ∃ t, exec i s = .next t ∧ KeepsRegisters s t ∧ t.status = st ∧ KeepsSystem s t ∧ KeepsMemory s t ∧ Advances s t

/-- The instruction may not stand in a delay slot: a step stops there before it runs (45_control_transfer.md R253). -/
def NotInSlot (i : Instr) (s : State) : Prop := s.delay ≠ none → s.placeFault i = some .badDelaySlot

/-! ### Flags (10_state.md R33) -/

/-- STATUS after an addition `a + b`. -/
def addStatus (st : Status) (a b : Word) : Status :=
  { st with
    n := (a + b).getLsbD 31
    v := decide (a.getLsbD 31 = b.getLsbD 31 ∧ (a + b).getLsbD 31 ≠ a.getLsbD 31)
    z := decide (a + b = 0#32)
    c := decide (a.toNat + b.toNat ≥ 2 ^ 32) }

/-- STATUS after a subtraction or comparison `a - b`; C is the borrow. -/
def subStatus (st : Status) (a b : Word) : Status :=
  { st with
    n := (a - b).getLsbD 31
    v := decide (a.getLsbD 31 ≠ b.getLsbD 31 ∧ (a - b).getLsbD 31 ≠ a.getLsbD 31)
    z := decide (a - b = 0#32)
    c := decide (a.toNat < b.toNat) }

/-- STATUS after a logic instruction with result `r`: V and C stay. -/
def logicStatus (st : Status) (r : Word) : Status := { st with n := r.getLsbD 31, z := decide (r = 0#32) }

/-! ### Operands -/

/-- The immediate `K * 32 + IMM5` (30_encoding.md R96). -/
def immediate (s : State) (imm5 : BitVec 5) : Word := BitVec.ofNat 32 (s.k.toNat * 32 + imm5.toNat)

/-- Byte `j` of a word (00_scope.md R8). -/
def byteOf (x : Word) (j : Nat) : Byte := x.extractLsb' (8 * j) 8

/-- Half-word `j` of a word (00_scope.md R8). -/
def halfOf (x : Word) (j : Nat) : Half := x.extractLsb' (16 * j) 16

/-- The address rounded down to a multiple of four (20_memory.md R65). -/
def aligned (x : Word) : Word := BitVec.ofNat 32 (x.toNat / 4 * 4)

/-- A signed number of words, in bytes (30_encoding.md R97). -/
def wordOffset (n : Int) : Word := BitVec.ofInt 32 (n * 4)

/-- The register that the p-field selects (00_scope.md R6, `PREG`; log 9). -/
def pointerReg (c : Config) (p : BitVec 2) : RegNum :=
  if p = 0#2 then c.preg0 else if p = 1#2 then c.preg1 else if p = 2#2 then c.preg2 else c.preg3

/-- The cell that register `i` of window `w` is (10_state.md R22). -/
def cellOf (w : Nat) (i : RegNum) : Nat := if i.toNat < 8 then i.toNat else 16 * w + i.toNat

/-- `%sp` is an out register but not `%o7`, and `%fp` the in register with the same index, as SAVE's formula needs
(decision D4; log 8); `Config.wellFormed` asks for it. -/
def StackPair (c : Config) : Prop := 8 ≤ c.spReg.toNat ∧ c.spReg.toNat < 15 ∧ c.fpReg = c.spReg + 16#5

/-! ### Memory -/

/-- The address of byte `j` behind `w`. -/
def at_ (w : Word) (j : Nat) : Word := w + BitVec.ofNat 32 j

/-- Bytes `lo` up to `hi` behind `w` are all in the admitted set (20_memory.md R75). -/
def Admitted (s : State) (w : Word) (lo hi : Nat) : Prop := ∀ j, lo ≤ j → j < hi → s.admits (at_ w j) = true

/-- The little-endian word at `w` (20_memory.md R61, R62). -/
def WordAt (s : State) (w v : Word) : Prop := ∀ j, j < 4 → byteOf v j = s.byteAt (at_ w j)

/-- The instruction completes: it loads the word at `w` into the register `a`, and nothing else. -/
def Loads (i : Instr) (s : State) (a : RegNum) (w : Word) : Prop := ∃ v, WordAt s w v ∧ Assigns i s a v s.status

/-- The instruction completes: it stores the bytes `lo` up to `hi` of `x` at the same places behind `w`, every other
byte of memory, at an address that is none of these modulo 2^`ADDR_BITS`, reads as before, and nothing else changes. -/
def Stores (i : Instr) (s : State) (w : Word) (lo hi : Nat) (x : Word) : Prop :=
  ∃ t, exec i s = .next t ∧
    (∀ j, lo ≤ j → j < hi → t.byteAt (at_ w j) = byteOf x j ∧ t.wasStored (at_ w j) = true) ∧
    (∀ b, (∀ j, lo ≤ j → j < hi → wrapped s b ≠ wrapped s (at_ w j)) →
      t.byteAt b = s.byteAt b ∧ t.wasStored b = s.wasStored b) ∧
    KeepsRegisters s t ∧ t.status = s.status ∧ KeepsSystem s t ∧ Advances s t

/-! ### Control transfer -/

/-- The delay slot comes next, then `target` (45_control_transfer.md R252). -/
def BranchesTo (s t : State) (target : Word) : Prop := Retires s t (s.pc + 2#32) (some target)

/-- The half-word address of a byte address. -/
def halfAddress (p : Word) : Word := BitVec.ofNat 32 (p.toNat / 2)

/-- Behind the address stand `n` PFX words and then a word that is no PFX, all of them fetchable. -/
def UnitAt (s : State) (p : Word) (n : Nat) : Prop :=
  n < 2147483648 ∧ (∀ j, j < n → ∃ w, s.fetch16 (at_ p (2 * j)) = .next w ∧ isPfxWord w = true) ∧
    ∃ w, s.fetch16 (at_ p (2 * n)) = .next w ∧ isPfxWord w = false

/-- The skip instruction completes: where the condition holds it passes the unit behind it, a run of `n` PFX and one
more instruction; elsewhere it goes on; it changes nothing else (45_control_transfer.md R260). -/
def SkipsWhen (i : Instr) (s : State) (holds : Prop) : Prop :=
  (¬holds → ∃ t, exec i s = .next t ∧ Quiet s t ∧ Advances s t) ∧
    (holds → ∀ n, UnitAt s (s.pc + 2#32) n →
      ∃ t, exec i s = .next t ∧ Quiet s t ∧ Retires s t (at_ (s.pc + 2#32) (2 * n + 2)) none)

/-! ### Traps -/

/-- The handler of vector `n` can be entered in window `w`: the window is in the file and the vector is in memory. -/
def CanEnter (s : State) (n : BitVec 6) (w : Nat) : Prop :=
  w < s.cfg.nwin ∧ s.regs.length = s.cfg.nregs ∧ Admitted s (s.cfg.vecbase + BitVec.ofNat 32 (4 * n.toNat)) 0 4

/-- `t` is at the handler of vector `n`, in window `w` (60_exceptions.md R332): `saved` is in ISTATUS; IE is clear, IPRI
is the vector, the flags are the saved ones; `%o7` of window `w` holds the half-word address of `ret`; the pc is twice
the vector's word; memory and the rest of the system are as in `s`. -/
def AtHandler (s t : State) (n : BitVec 6) (ret : Word) (w : BitVec 5) (saved : Status) : Prop :=
  t.istatus = saved ∧ t.status = { saved with ie := false, ipri := n, cwp := w } ∧
    t.cell (16 * w.toNat + 15) = halfAddress (wrapped s ret) ∧
    (∃ v, WordAt s (s.cfg.vecbase + BitVec.ofNat 32 (4 * n.toNat)) v ∧ t.pc = wrapped s (v * 2#32)) ∧
    t.delay = none ∧ t.k = 0#11 ∧ t.pfx = false ∧ t.wrctlHazard = false ∧
    t.cfg = s.cfg ∧ t.hiLimit = s.hiLimit ∧ t.loLimit = s.loLimit ∧ t.request = s.request ∧ KeepsMemory s t

/-! ### STATUS as a register (10_state.md R31; log 7) -/

/-- The fields that a register holds at their places. -/
def fieldsOf (l : StatusLayout) (x : Word) : Status where
  ie := x.toNat.testBit l.ie
  ipri := BitVec.ofNat 6 (x.toNat / 2 ^ l.ipri)
  cwp := BitVec.ofNat 5 (x.toNat / 2 ^ l.cwp)
  n := x.toNat.testBit l.n
  v := x.toNat.testBit l.v
  z := x.toNat.testBit l.z
  c := x.toNat.testBit l.c

/-- The register `x` holds the fields of `st` at their places, and zeros in every bit of no field. -/
def ReadsAs (l : StatusLayout) (st : Status) (x : Word) : Prop :=
  fieldsOf l x = st ∧ ∀ j, l.covers j = false → x.getLsbD j = false

/-- STATUS in the default layout, as a number. -/
def statusNumber (st : Status) : Nat :=
  st.ie.toNat * 2 ^ 15 + st.ipri.toNat * 2 ^ 9 + st.cwp.toNat * 2 ^ 4 + st.n.toNat * 8 + st.v.toNat * 4 +
    st.z.toNat * 2 + st.c.toNat

/-! ### Conditions (45_control_transfer.md R268; log 11) -/

/-- What a condition says of the flags. -/
def means : Condition → Status → Prop
  | .c, st => st.c = true
  | .nc, st => st.c = false
  | .z, st => st.z = true
  | .nz, st => st.z = false
  | .mi, st => st.n = true
  | .pl, st => st.n = false
  | .ge, st => st.n = st.v
  | .lt, st => st.n ≠ st.v
  | .le, st => st.z = true ∨ st.n ≠ st.v
  | .gt, st => st.z = false ∧ st.n = st.v
  | .v, st => st.v = true
  | .nv, st => st.v = false
  | .ls, st => st.c = true ∨ st.z = true
  | .hi, st => st.c = false ∧ st.z = false

/-! ### Registers and sequences -/

/-- The registers an instruction names, or has as implicit operands, in the window it starts in. -/
def namedRegs (c : Config) : Instr → List RegNum
  | .add a b | .sub a b | .cmp a b | .lsl a b | .lsr a b | .asr a b | .ext8d a b | .ext16d a b | .ld a b
  | .st a b | .usr0 a b => [a, b]
  | .mov a b => if a = 0#5 ∧ b = 0#5 then [] else [a, b]
  | .and a o | .andn a o | .or a o | .xor a o =>
    match o with
    | .reg b => [a, b]
    | .imm _ => [a]
  | .addi a _ | .subi a _ | .cmpi a _ | .lsli a _ | .lsri a _ | .asri a _ | .movi a _ | .movhi a _ | .bgen a _
  | .skp0 a _ | .skp1 a _ | .ext8s a _ | .ext16s a _ => [a]
  | .not a | .neg a | .abs a | .sext8 a | .sext16 a | .rlc a | .rrc a | .swap a | .tret a | .skprz a
  | .skprnz a | .wrctl a | .rdctl a | .jmp a => [a]
  | .usr1 a | .usr2 a | .usr3 a | .usr4 a | .fill8 a | .fill16 a | .mstep a | .mul a | .st8d a | .st16d a =>
    [a, 0#5]
  | .st8s a _ | .st16s a _ => [a, 0#5]
  | .stp a p _ | .ldp a p _ => [a, pointerReg c p]
  | .sts a _ | .lds a _ => [a, c.spReg]
  | .sts8s _ | .sts16s _ => [c.spReg, 0#5]
  | .call a => [a, 15#5]
  | .bsr _ => [15#5]
  | .save _ | .restore | .trap _ | .skps _ | .br _ | .pfx _ => []

/-- Run instructions one after the other. -/
def execAll : List Instr → State → Result State
  | [], s => .next s
  | i :: rest, s => andThen (exec i s) (execAll rest)

end Sys2Proof.Claims

open Sys2Proof Sys2Proof.Machine Sys2Proof.Claims

/-! ## Encoding -/

/-- A few words of the spec's examples decode to what they are written for. -/
def Obligations.DecodesSpecWords : Prop :=
  decode 0x0041#16 false = .ok (.add 1#5 2#5) ∧ decode 0x07E1#16 false = .ok (.addi 1#5 31#5) ∧
    decode 0x39E1#16 false = .ok (.and 1#5 (.reg 15#5)) ∧ decode 0x39E1#16 true = .ok (.and 1#5 (.imm 15#5)) ∧
    decode 0x6CA1#16 false = .ok (.movhi 1#5 5#5) ∧ decode 0x7662#16 false = .ok (.st8s 2#5 3#2) ∧
    decode 0x6406#16 false = .ok (.sts16s 3#9) ∧ decode 0x7817#16 false = .ok (.save 23#8) ∧
    decode 0x7905#16 false = .ok (.trap 5#6) ∧ decode 0x7DA0#16 false = .ok .restore ∧
    decode 0x7EE2#16 false = .ok (.skps 2#4) ∧ decode 0x83FF#16 false = .ok (.br 0x3FF#11) ∧
    decode 0x8804#16 false = .ok (.bsr 4#11) ∧ decode 0x9923#16 false = .ok (.pfx 0x123#11) ∧
    decode 0xA801#16 false = .ok (.stp 1#5 2#2 0#5) ∧ decode 0xB7E1#16 false = .ok (.ldp 1#5 1#2 31#5) ∧
    decode 0xC081#16 false = .ok (.sts 1#5 4#8) ∧ decode 0xFFE1#16 false = .ok (.lds 1#5 255#8)

/-- Decoding the word of a well-formed instruction gives the instruction back. -/
def Obligations.DecodeOfEncode : Prop :=
  ∀ (pfx : Bool) (i : Instr), i.wellFormed pfx = true → decode (encode i) pfx = .ok i

/-- Every word that decodes is the word of the instruction it decodes to, and that instruction is well formed: no two
words mean the same. -/
def Obligations.EncodeOfDecode : Prop :=
  ∀ (pfx : Bool) (w : Half) (i : Instr), decode w pfx = .ok i → encode i = w ∧ i.wellFormed pfx = true

/-- The words that are no instructions are exactly those of 30_encoding.md R94, R103, R104; which fault each raises is the
spec's decision D18 (log 18). -/
def Obligations.RefusedWordsExactly : Prop :=
  ∀ (pfx : Bool) (w : Half),
    (decode w pfx = .error .unusedOpcode ↔
      (0x7500 ≤ w.toNat ∧ w.toNat ≤ 0x75FF) ∨ (0x7CE0 ≤ w.toNat ∧ w.toNat ≤ 0x7CFF) ∨
        (0x7DE0 ≤ w.toNat ∧ w.toNat ≤ 0x7DFF) ∨ (0x7F60 ≤ w.toNat ∧ w.toNat ≤ 0x7FBF)) ∧
    (decode w pfx = .error .unlistedOpcode ↔
      (0x7700 ≤ w.toNat ∧ w.toNat ≤ 0x77FF) ∨ (0x7A00 ≤ w.toNat ∧ w.toNat ≤ 0x7BFF) ∨
        (0x9000 ≤ w.toNat ∧ w.toNat ≤ 0x97FF) ∨
        (0x6400 ≤ w.toNat ∧ w.toNat ≤ 0x67FF ∧ w.getLsbD 0 = true) ∨
        (0x7480 ≤ w.toNat ∧ w.toNat ≤ 0x74FF ∧ w.getLsbD 5 = true) ∨
        (0x7680 ≤ w.toNat ∧ w.toNat ≤ 0x76FF ∧ w.getLsbD 5 = true) ∨
        (0x7940 ≤ w.toNat ∧ w.toNat ≤ 0x79FF) ∨ (0x7DA1 ≤ w.toNat ∧ w.toNat ≤ 0x7DBF) ∨
        (0x7EF0 ≤ w.toNat ∧ w.toNat ≤ 0x7EFF)) ∧
    decode w pfx ≠ .error .truncated

/-! ## The step -/

/-- A step runs the instruction its bytes decode to: no request is accepted, the pc is even, the two bytes there are in
memory and were not stored by the program, and they decode to an instruction. Then the step is the instruction's meaning,
but for the two checks on where it stands (00_scope.md R16; the faults are decisions D19, D20, log 19). -/
def Obligations.StepRunsDecodedInstr : Prop :=
  ∀ (s : State) (i : Instr), s.accepted = none → s.pc.getLsbD 0 = false →
    s.admits s.pc = true → s.admits (s.pc + 1#32) = true →
    s.wasStored s.pc = false → s.wasStored (s.pc + 1#32) = false →
    decode (s.byteAt (s.pc + 1#32) ++ s.byteAt s.pc) s.pfx = .ok i →
    ((s.delay = none ∨ slotForbidden i = false) → (s.wrctlHazard = false ∨ i = .mov 0#5 0#5) → step s = exec i s) ∧
    (s.delay ≠ none → slotForbidden i = true → step s = .fault .badDelaySlot) ∧
    ((s.delay = none ∨ slotForbidden i = false) → s.wrctlHazard = true → i ≠ .mov 0#5 0#5 →
      step s = .fault .wrctlNotFollowedByNop)

/-- Where no request is accepted, a step stops before any instruction runs: at an odd pc (log 25), at bytes that are not
memory (log 26) or that the program stored (log 21), and at a word that is no instruction (log 18). -/
def Obligations.StepStopsBeforeExec : Prop :=
  ∀ s : State, s.accepted = none →
    (s.pc.getLsbD 0 = true → step s = .refused .oddPc) ∧
    (s.pc.getLsbD 0 = false → (s.admits s.pc && s.admits (s.pc + 1#32)) = false → step s = .fault .notAdmitted) ∧
    (s.pc.getLsbD 0 = false → s.admits s.pc = true → s.admits (s.pc + 1#32) = true →
      ((s.wasStored s.pc || s.wasStored (s.pc + 1#32)) = true → step s = .refused .selfModifiedFetch) ∧
      (s.wasStored s.pc = false → s.wasStored (s.pc + 1#32) = false →
        (decode (s.byteAt (s.pc + 1#32) ++ s.byteAt s.pc) s.pfx = .error .unusedOpcode →
          step s = .fault .unusedOpcode) ∧
        (decode (s.byteAt (s.pc + 1#32) ++ s.byteAt s.pc) s.pfx = .error .unlistedOpcode →
          step s = .fault .unlistedOpcode)))

/-- The interrupt hook of 60_exceptions.md R340 (the spec's own, from general knowledge, D24; log 22). Where nothing is
pending, IE is 1 and the request's number is below IPRI, the step enters that vector with the pc as return address; at
CWP 0 there is no window to enter and the step faults (R332, R339; decision D17, log 17). Where one of these fails, the
step is that of the state without the request, which is still there afterwards. -/
def Obligations.RequestEntersTrap : Prop :=
  ∀ (s : State) (n : BitVec 6), s.request = some n →
    ((s.delay = none ∧ s.pfx = false ∧ s.wrctlHazard = false ∧ s.status.ie = true ∧
        n.toNat < s.status.ipri.toNat) →
      (s.status.cwp ≠ 0#5 → CanEnter s n (s.status.cwp.toNat - 1) →
        ∃ t, step s = .next t ∧ AtHandler s t n s.pc (s.status.cwp - 1#5) s.status ∧
          KeepsOtherCells s t (16 * (s.status.cwp.toNat - 1) + 15)) ∧
      (s.status.cwp = 0#5 → step s = .fault .windowOutOfFile)) ∧
    (¬(s.delay = none ∧ s.pfx = false ∧ s.wrctlHazard = false ∧ s.status.ie = true ∧
        n.toNat < s.status.ipri.toNat) →
      (∀ t, step { s with request := none } = .next t → step s = .next { t with request := some n }) ∧
      (∀ r, step { s with request := none } = .fault r → step s = .fault r) ∧
      ∀ r, step { s with request := none } = .refused r → step s = .refused r)

/-! ## Prefix -/

/-- PFX (40_prefix.md R130): K holds IMM11, `pfx` is set, which turns the next AND, ANDN, OR or XOR into its immediate
reading, execution goes on, nothing else changes; it may not stand in a delay slot (45_control_transfer.md R253), where
the fault is decision D19 (log 19). -/
def Obligations.PfxLoadsK : Prop :=
  ∀ (imm11 : BitVec 11) (s : State), encode (.pfx imm11) = 0b10011#5 ++ imm11 ∧ NotInSlot (.pfx imm11) s ∧
    (s.delay = none → ∃ t, exec (.pfx imm11) s = .next t ∧ t.k = imm11 ∧ t.pfx = true ∧ t.pc = wrapped s (s.pc + 2#32) ∧
      t.delay = none ∧ t.wrctlHazard = false ∧ Quiet s t ∧
      ∀ a f : BitVec 5, decode (0b001110#6 ++ f ++ a) t.pfx = .ok (.and a (.imm f)) ∧
        decode (0b001111#6 ++ f ++ a) t.pfx = .ok (.andn a (.imm f)) ∧
        decode (0b010000#6 ++ f ++ a) t.pfx = .ok (.or a (.imm f)) ∧
        decode (0b010001#6 ++ f ++ a) t.pfx = .ok (.xor a (.imm f)))

/-- K and `pfx` are clear after every instruction that is not PFX, whether or not it read K (40_prefix.md R131; the
reading is decision D11, log 15). -/
def Obligations.PrefixLivesOneInstruction : Prop :=
  ∀ (i : Instr) (s t : State), exec i s = .next t → (∀ imm11, i ≠ .pfx imm11) → t.k = 0#11 ∧ t.pfx = false

/-! ## Arithmetic -/

/-- ADD and ADDI (41_arithmetic.md R141, R142); what the flags hold is decision D8 (10_state.md R33; log 12). -/
def Obligations.AddsWithFlags : Prop :=
  (∀ (a b : RegNum) (s : State), encode (.add a b) = 0b000000#6 ++ b ++ a ∧
    (HasReg s a → HasReg s b →
      Assigns (.add a b) s a (s.reg a + s.reg b) (addStatus s.status (s.reg a) (s.reg b)))) ∧
  ∀ (a : RegNum) (imm5 : BitVec 5) (s : State), encode (.addi a imm5) = 0b000001#6 ++ imm5 ++ a ∧
    (HasReg s a →
      Assigns (.addi a imm5) s a (s.reg a + immediate s imm5) (addStatus s.status (s.reg a) (immediate s imm5)))

/-- SUB and SUBI (41_arithmetic.md R143, R144); what the flags hold, C the borrow, is decision D8 (log 12). -/
def Obligations.SubtractsWithFlags : Prop :=
  (∀ (a b : RegNum) (s : State), HasReg s a → HasReg s b →
    Assigns (.sub a b) s a (s.reg a - s.reg b) (subStatus s.status (s.reg a) (s.reg b))) ∧
  ∀ (a : RegNum) (imm5 : BitVec 5) (s : State), HasReg s a →
    Assigns (.subi a imm5) s a (s.reg a - immediate s imm5) (subStatus s.status (s.reg a) (immediate s imm5))

/-- CMP and CMPI (41_arithmetic.md R145, R146): the flags of the difference, no register; decision D8 (log 12). -/
def Obligations.ComparesWithFlags : Prop :=
  (∀ (a b : RegNum) (s : State), HasReg s a → HasReg s b →
    SetsStatus (.cmp a b) s (subStatus s.status (s.reg a) (s.reg b))) ∧
  ∀ (a : RegNum) (imm5 : BitVec 5) (s : State), HasReg s a →
    SetsStatus (.cmpi a imm5) s (subStatus s.status (s.reg a) (immediate s imm5))

/-- What the model's flags mean (41_arithmetic.md R149): V is set exactly when the signed result does not fit, C when the
unsigned one does not; and after a comparison each condition of SKPS that speaks of an order is that order, unsigned for
c, nc, ls, hi, signed for ge, lt, le, gt (R268; D8, D9, logs 11 and 12). -/
def Obligations.FlagsMeanOverflow : Prop :=
  ∀ (a b : Word) (st : Status),
    ((addFlags a b).v = true ↔ (a + b).toInt ≠ a.toInt + b.toInt) ∧
    ((addFlags a b).c = true ↔ (a + b).toNat ≠ a.toNat + b.toNat) ∧
    ((subFlags a b).v = true ↔ (a - b).toInt ≠ a.toInt - b.toInt) ∧
    ((subFlags a b).c = true ↔ ((a - b).toNat : Int) ≠ (a.toNat : Int) - b.toNat) ∧
    conditionHolds (st.withFlags (subFlags a b)) .c = decide (a.toNat < b.toNat) ∧
    conditionHolds (st.withFlags (subFlags a b)) .nc = decide (b.toNat ≤ a.toNat) ∧
    conditionHolds (st.withFlags (subFlags a b)) .z = decide (a = b) ∧
    conditionHolds (st.withFlags (subFlags a b)) .nz = decide (a ≠ b) ∧
    conditionHolds (st.withFlags (subFlags a b)) .ge = decide (b.toInt ≤ a.toInt) ∧
    conditionHolds (st.withFlags (subFlags a b)) .lt = decide (a.toInt < b.toInt) ∧
    conditionHolds (st.withFlags (subFlags a b)) .le = decide (a.toInt ≤ b.toInt) ∧
    conditionHolds (st.withFlags (subFlags a b)) .gt = decide (b.toInt < a.toInt) ∧
    conditionHolds (st.withFlags (subFlags a b)) .ls = decide (a.toNat ≤ b.toNat) ∧
    conditionHolds (st.withFlags (subFlags a b)) .hi = decide (b.toNat < a.toNat)

/-- NEG and ABS (41_arithmetic.md R147, R148): the negative and the absolute value of the signed number, modulo 2^32, so
the most negative number gives itself (decision D13, log 29); no flag is written. -/
def Obligations.NegatesAndTakesAbs : Prop :=
  ∀ (a : RegNum) (s : State), HasReg s a →
    Assigns (.neg a) s a (BitVec.ofInt 32 (-(s.reg a).toInt)) s.status ∧
    Assigns (.abs a) s a (BitVec.ofNat 32 (s.reg a).toInt.natAbs) s.status

/-! ## Logic, shifts, rotates -/

/-- AND, ANDN, OR, XOR (42_logic_shift.md R160 to R163) in both readings of bits 9..5: with N and Z of the result (what
they hold is decision D8, log 12), V and C kept. -/
def Obligations.LogicInBothForms : Prop :=
  (∀ (a f : BitVec 5), decode (0b001110#6 ++ f ++ a) false = .ok (.and a (.reg f)) ∧
    decode (0b001110#6 ++ f ++ a) true = .ok (.and a (.imm f)) ∧
    decode (0b001111#6 ++ f ++ a) false = .ok (.andn a (.reg f)) ∧
    decode (0b001111#6 ++ f ++ a) true = .ok (.andn a (.imm f)) ∧
    decode (0b010000#6 ++ f ++ a) false = .ok (.or a (.reg f)) ∧
    decode (0b010000#6 ++ f ++ a) true = .ok (.or a (.imm f)) ∧
    decode (0b010001#6 ++ f ++ a) false = .ok (.xor a (.reg f)) ∧
    decode (0b010001#6 ++ f ++ a) true = .ok (.xor a (.imm f))) ∧
  ∀ (a : RegNum) (o : LogicOperand) (y : Word) (s : State), HasReg s a →
    ((∃ b, o = .reg b ∧ HasReg s b ∧ y = s.reg b) ∨ ∃ f, o = .imm f ∧ y = immediate s f) →
    Assigns (.and a o) s a (s.reg a &&& y) (logicStatus s.status (s.reg a &&& y)) ∧
    Assigns (.andn a o) s a (s.reg a &&& ~~~y) (logicStatus s.status (s.reg a &&& ~~~y)) ∧
    Assigns (.or a o) s a (s.reg a ||| y) (logicStatus s.status (s.reg a ||| y)) ∧
    Assigns (.xor a o) s a (s.reg a ^^^ y) (logicStatus s.status (s.reg a ^^^ y))

/-- NOT (42_logic_shift.md R164) and BGEN (R185): no flag is written. -/
def Obligations.ComplementAndBitGenerate : Prop :=
  (∀ (a : RegNum) (s : State), encode (.not a) = 0b01111100000#11 ++ a ∧
    (HasReg s a → ∃ v, (∀ j, j < 32 → v.getLsbD j = !(s.reg a).getLsbD j) ∧ Assigns (.not a) s a v s.status)) ∧
  ∀ (a : RegNum) (imm5 : BitVec 5) (s : State), encode (.bgen a imm5) = 0b010010#6 ++ imm5 ++ a ∧
    (HasReg s a → Assigns (.bgen a imm5) s a (BitVec.ofNat 32 (2 ^ imm5.toNat)) s.status)

/-- LSL, LSR, ASR by the low five bits of RB (42_logic_shift.md R170, R172, R174), bit by bit. -/
def Obligations.ShiftsByRegister : Prop :=
  ∀ (a b : RegNum) (s : State), encode (.lsl a b) = 0b000110#6 ++ b ++ a ∧
    encode (.lsr a b) = 0b001000#6 ++ b ++ a ∧ encode (.asr a b) = 0b001010#6 ++ b ++ a ∧
    (HasReg s a → HasReg s b → ∀ n, n = (s.reg b).toNat % 32 →
      Assigns (.lsl a b) s a (BitVec.ofNat 32 ((s.reg a).toNat * 2 ^ n)) s.status ∧
      Assigns (.lsr a b) s a (BitVec.ofNat 32 ((s.reg a).toNat / 2 ^ n)) s.status ∧
      ∃ v, (∀ j, j < 32 → v.getLsbD j = if j + n < 32 then (s.reg a).getLsbD (j + n) else (s.reg a).getLsbD 31) ∧
        v.toInt = (s.reg a).toInt / 2 ^ n ∧ Assigns (.asr a b) s a v s.status)

/-- LSLI, LSRI, ASRI (42_logic_shift.md R171, R173, R175), bit by bit; K does not matter. -/
def Obligations.ShiftsByImmediate : Prop :=
  ∀ (a : RegNum) (imm5 : BitVec 5) (s : State), encode (.lsli a imm5) = 0b000111#6 ++ imm5 ++ a ∧
    encode (.lsri a imm5) = 0b001001#6 ++ imm5 ++ a ∧ encode (.asri a imm5) = 0b001011#6 ++ imm5 ++ a ∧
    (HasReg s a →
      Assigns (.lsli a imm5) s a (BitVec.ofNat 32 ((s.reg a).toNat * 2 ^ imm5.toNat)) s.status ∧
      Assigns (.lsri a imm5) s a (BitVec.ofNat 32 ((s.reg a).toNat / 2 ^ imm5.toNat)) s.status ∧
      ∃ v, (∀ j, j < 32 → v.getLsbD j =
          if j + imm5.toNat < 32 then (s.reg a).getLsbD (j + imm5.toNat) else (s.reg a).getLsbD 31) ∧
        Assigns (.asri a imm5) s a v s.status)

/-- RLC and RRC (42_logic_shift.md R182, R183): 33-bit rotates through the old C, the spec's reading from general
knowledge (decision D12, log 14); N, V, Z stay. -/
def Obligations.RotatesThroughCarry : Prop :=
  ∀ (a : RegNum) (s : State), HasReg s a →
    Assigns (.rlc a) s a (BitVec.ofNat 32 ((s.reg a).toNat * 2 + s.status.c.toNat))
      { s.status with c := (s.reg a).getLsbD 31 } ∧
    Assigns (.rrc a) s a (BitVec.ofNat 32 ((s.reg a).toNat / 2 + s.status.c.toNat * 2 ^ 31))
      { s.status with c := (s.reg a).getLsbD 0 }

/-! ## Moves, extraction, multiplication -/

/-- MOV (43_move_extract_multiply.md R190), and NOP, the word `0x3000`, which needs no register (decision D27, log 37). -/
def Obligations.MovesAndNop : Prop :=
  (∀ (a b : RegNum) (s : State), HasReg s a → HasReg s b → Assigns (.mov a b) s a (s.reg b) s.status) ∧
  (∀ s : State, ∃ t, exec (.mov 0#5 0#5) s = .next t ∧ Quiet s t ∧ Advances s t) ∧
  encode (.mov 0#5 0#5) = 0x3000#16

/-- MOVI and MOVHI (43_move_extract_multiply.md R191, R192). -/
def Obligations.MovesImmediates : Prop :=
  ∀ (a : RegNum) (imm5 : BitVec 5) (s : State), encode (.movi a imm5) = 0b001101#6 ++ imm5 ++ a ∧
    encode (.movhi a imm5) = 0b011011#6 ++ imm5 ++ a ∧
    (HasReg s a →
      Assigns (.movi a imm5) s a (immediate s imm5) s.status ∧
      Assigns (.movhi a imm5) s a
        (BitVec.ofNat 32 ((s.k.toNat * 32 + imm5.toNat) * 2 ^ 16 + (s.reg a).toNat % 2 ^ 16)) s.status)

/-- SWAP, SEXT8, SEXT16 (43_move_extract_multiply.md R193 to R195). -/
def Obligations.SwapsAndExtends : Prop :=
  ∀ (a : RegNum) (s : State), encode (.swap a) = 0b01111101000#11 ++ a ∧
    encode (.sext8 a) = 0b01111100011#11 ++ a ∧ encode (.sext16 a) = 0b01111100100#11 ++ a ∧
    (HasReg s a →
      Assigns (.swap a) s a (BitVec.ofNat 32 ((s.reg a).toNat % 2 ^ 16 * 2 ^ 16 + (s.reg a).toNat / 2 ^ 16))
        s.status ∧
      Assigns (.sext8 a) s a (BitVec.ofInt 32 (byteOf (s.reg a) 0).toInt) s.status ∧
      Assigns (.sext16 a) s a (BitVec.ofInt 32 (halfOf (s.reg a) 0).toInt) s.status)

/-- EXT8D, EXT8S, EXT16D, EXT16S (43_move_extract_multiply.md R196 to R199); a word with bit 5 set is not EXT16S. -/
def Obligations.ExtractsLanes : Prop :=
  (∀ (a b : RegNum) (s : State), encode (.ext8d a b) = 0b010011#6 ++ b ++ a ∧
    encode (.ext16d a b) = 0b011010#6 ++ b ++ a ∧
    (HasReg s a → HasReg s b →
      Assigns (.ext8d a b) s a ((byteOf (s.reg a) ((s.reg b).toNat % 4)).setWidth 32) s.status ∧
      Assigns (.ext16d a b) s a ((halfOf (s.reg a) ((s.reg b).toNat / 2 % 2)).setWidth 32) s.status)) ∧
  (∀ (a : RegNum) (n : BitVec 2) (s : State), encode (.ext8s a n) = 0b011101000#9 ++ n ++ a ∧
    (HasReg s a → Assigns (.ext8s a n) s a ((byteOf (s.reg a) n.toNat).setWidth 32) s.status)) ∧
  ∀ (a : RegNum) (n : BitVec 1) (s : State), encode (.ext16s a n) = 0b011101001#9 ++ n ++ 0#1 ++ a ∧
    (∀ f b m, decode (0b011101001#9 ++ n ++ 1#1 ++ a) f ≠ .ok (.ext16s b m)) ∧
    (HasReg s a → Assigns (.ext16s a n) s a ((halfOf (s.reg a) n.toNat).setWidth 32) s.status)

/-- FILL8 and FILL16 (43_move_extract_multiply.md R206, R207): `%r0` is written, RA is not unless it is `%r0`. -/
def Obligations.FillsR0 : Prop :=
  ∀ (a : RegNum) (s : State), encode (.fill8 a) = 0b01111110010#11 ++ a ∧ encode (.fill16 a) = 0b01111110011#11 ++ a ∧
    (HasReg s 0#5 → HasReg s a →
      (∃ v, (∀ j, j < 4 → byteOf v j = byteOf (s.reg a) 0) ∧ Assigns (.fill8 a) s 0#5 v s.status) ∧
      ∃ v, (∀ j, j < 2 → halfOf v j = halfOf (s.reg a) 0) ∧ Assigns (.fill16 a) s 0#5 v s.status)

/-- MSTEP and MUL (43_move_extract_multiply.md R210, R211): `%r0` is read and written, no flag. -/
def Obligations.MultipliesIntoR0 : Prop :=
  ∀ (a : RegNum) (s : State), encode (.mstep a) = 0b01111110100#11 ++ a ∧ encode (.mul a) = 0b01111110101#11 ++ a ∧
    (HasReg s 0#5 → HasReg s a →
      Assigns (.mstep a) s 0#5
        (if (s.reg 0#5).toNat ≥ 2 ^ 31 then BitVec.ofNat 32 ((s.reg 0#5).toNat * 2 + (s.reg a).toNat)
          else BitVec.ofNat 32 ((s.reg 0#5).toNat * 2)) s.status ∧
      ∃ v, v.toNat = ((s.reg 0#5).toNat % 2 ^ 16) * ((s.reg a).toNat % 2 ^ 16) ∧
        Assigns (.mul a) s 0#5 v s.status)

/-- Sixteen MSTEPs multiply (43_move_extract_multiply.md R213): a 16-bit multiplier in the upper half of `%r0` and a
multiplicand below 2^16 in another register leave the exact product in `%r0`. -/
def Obligations.SixteenMstepsMultiply : Prop :=
  ∀ (a : RegNum) (s : State) (m x : Nat), InWindow s → a ≠ 0#5 → m < 2 ^ 16 → x < 2 ^ 16 →
    (s.reg 0#5).toNat = m * 2 ^ 16 → (s.reg a).toNat = x →
    ∃ t, execAll (List.replicate 16 (.mstep a)) s = .next t ∧ (t.reg 0#5).toNat = m * x ∧ t.reg a = s.reg a

/-- The four instructions of 30_encoding.md R119 load any 32-bit constant into any register, whatever it held. -/
def Obligations.LoadsConstant : Prop :=
  ∀ (a : RegNum) (x : Word) (s : State), HasReg s a → s.delay = none →
    ∃ t, execAll [.pfx (x.extractLsb' 5 11), .movi a (x.extractLsb' 0 5), .pfx (x.extractLsb' 21 11),
        .movhi a (x.extractLsb' 16 5)] s = .next t ∧
      t.reg a = x ∧ KeepsOtherCells s t (s.regIndex a) ∧ t.status = s.status ∧ t.pc = wrapped s (s.pc + 8#32) ∧
      KeepsMemory s t

/-! ## Loads and stores -/

/-- LD (44_load_store.md R221): the word at the base plus the signed offset in K, rounded down; RA may be the base. -/
def Obligations.LoadsWord : Prop :=
  ∀ (a b : RegNum) (s : State), encode (.ld a b) = 0b010110#6 ++ b ++ a ∧
    s.addrK b = aligned (s.reg b + wordOffset s.k.toInt) ∧
    (HasReg s a → HasReg s b → Admitted s (s.addrK b) 0 4 → Loads (.ld a b) s a (s.addrK b))

/-- LDP and LDS (44_load_store.md R226, R228): which registers P names and which is `%sp` are parameters (decisions D5 and
D4, logs 9 and 8). LDS does not read K. -/
def Obligations.LoadsFromPointerAndStack : Prop :=
  (∀ (a : RegNum) (p : BitVec 2) (imm5 : BitVec 5) (s : State),
    s.addrP p imm5 = aligned (s.reg (pointerReg s.cfg p) + wordOffset (s.k ++ imm5).toInt) ∧
    (HasReg s a → HasReg s (pointerReg s.cfg p) → Admitted s (s.addrP p imm5) 0 4 →
      Loads (.ldp a p imm5) s a (s.addrP p imm5))) ∧
  ∀ (a : RegNum) (imm8 : BitVec 8) (s : State) (w : Word),
    w = aligned (s.reg s.cfg.spReg + BitVec.ofNat 32 (imm8.toNat * 4)) → HasReg s a → HasReg s s.cfg.spReg →
    Admitted s w 0 4 → Loads (.lds a imm8) s a w

/-- ST (44_load_store.md R222). -/
def Obligations.StoresWord : Prop :=
  ∀ (a b : RegNum) (s : State), encode (.st a b) = 0b010111#6 ++ b ++ a ∧
    s.addrK b = aligned (s.reg b + wordOffset s.k.toInt) ∧
    (WordsFit s → HasReg s a → HasReg s b → Admitted s (s.addrK b) 0 4 → Stores (.st a b) s (s.addrK b) 0 4 (s.reg a))

/-- STP and STS (44_load_store.md R224, R230); parameters of decisions D5 and D4 (logs 9 and 8). STS does not read K. -/
def Obligations.StoresToPointerAndStack : Prop :=
  (∀ (a : RegNum) (p : BitVec 2) (imm5 : BitVec 5) (s : State),
    WordsFit s → HasReg s a → HasReg s (pointerReg s.cfg p) → Admitted s (s.addrP p imm5) 0 4 →
      Stores (.stp a p imm5) s (s.addrP p imm5) 0 4 (s.reg a)) ∧
  ∀ (a : RegNum) (imm8 : BitVec 8) (s : State),
    s.addrSp (imm8.setWidth 32 * 4#32) = aligned (s.reg s.cfg.spReg + BitVec.ofNat 32 (imm8.toNat * 4)) ∧
    (WordsFit s → HasReg s a → HasReg s s.cfg.spReg → Admitted s (s.addrSp (imm8.setWidth 32 * 4#32)) 0 4 →
      Stores (.sts a imm8) s (s.addrSp (imm8.setWidth 32 * 4#32)) 0 4 (s.reg a))

/-- ST8D and ST8S (44_load_store.md R232, R234): one byte, lane n of `%r0`, into lane n of the word; n comes from RA or
from the instruction. For ST8D the address is the byte address RA plus the offset. -/
def Obligations.StoresByteLane : Prop :=
  (∀ (a : RegNum) (s : State) (n : Nat), encode (.st8d a) = 0b01111110000#11 ++ a ∧
    s.addrK a = aligned (s.reg a + wordOffset s.k.toInt) ∧
    (n = (s.reg a).toNat % 4 →
      at_ (s.addrK a) n = s.reg a + wordOffset s.k.toInt ∧
      (HasReg s a → HasReg s 0#5 → Admitted s (s.addrK a) n (n + 1) →
        Stores (.st8d a) s (s.addrK a) n (n + 1) (s.reg 0#5)))) ∧
  ∀ (a : RegNum) (imm2 : BitVec 2) (s : State), encode (.st8s a imm2) = 0b011101100#9 ++ imm2 ++ a ∧
    (HasReg s a → HasReg s 0#5 → Admitted s (s.addrK a) imm2.toNat (imm2.toNat + 1) →
      Stores (.st8s a imm2) s (s.addrK a) imm2.toNat (imm2.toNat + 1) (s.reg 0#5))

/-- ST16D and ST16S (44_load_store.md R236, R238): one half-word, lane n of `%r0`, into lane n of the word. -/
def Obligations.StoresHalfLane : Prop :=
  (∀ (a : RegNum) (s : State) (n : Nat), encode (.st16d a) = 0b01111110001#11 ++ a ∧
    s.addrK a = aligned (s.reg a + wordOffset s.k.toInt) ∧
    (n = (s.reg a).toNat / 2 % 2 → WordsFit s → HasReg s a → HasReg s 0#5 → Admitted s (s.addrK a) (2 * n) (2 * n + 2) →
      Stores (.st16d a) s (s.addrK a) (2 * n) (2 * n + 2) (s.reg 0#5))) ∧
  ∀ (a : RegNum) (imm1 : BitVec 1) (s : State), encode (.st16s a imm1) = 0b011101101#9 ++ imm1 ++ 0#1 ++ a ∧
    (WordsFit s → HasReg s a → HasReg s 0#5 → Admitted s (s.addrK a) (2 * imm1.toNat) (2 * imm1.toNat + 2) →
      Stores (.st16s a imm1) s (s.addrK a) (2 * imm1.toNat) (2 * imm1.toNat + 2) (s.reg 0#5))

/-- STS8S and STS16S (44_load_store.md R240, R242): the lane comes from the immediate alone, the base is `%sp` (a
parameter, decision D4, log 8). -/
def Obligations.StoresStackLanes : Prop :=
  (∀ (imm10 : BitVec 10) (s : State) (n : Nat),
    s.addrSp (imm10.setWidth 32) = aligned (s.reg s.cfg.spReg + BitVec.ofNat 32 imm10.toNat) ∧
    (n = imm10.toNat % 4 → HasReg s s.cfg.spReg → HasReg s 0#5 → Admitted s (s.addrSp (imm10.setWidth 32)) n (n + 1) →
      Stores (.sts8s imm10) s (s.addrSp (imm10.setWidth 32)) n (n + 1) (s.reg 0#5))) ∧
  ∀ (imm9 : BitVec 9) (s : State) (n : Nat),
    s.addrSp (imm9.setWidth 32 * 2#32) = aligned (s.reg s.cfg.spReg + BitVec.ofNat 32 (imm9.toNat * 2)) ∧
    (n = imm9.toNat % 2 → WordsFit s → HasReg s s.cfg.spReg → HasReg s 0#5 →
      Admitted s (s.addrSp (imm9.setWidth 32 * 2#32)) (2 * n) (2 * n + 2) →
      Stores (.sts16s imm9) s (s.addrSp (imm9.setWidth 32 * 2#32)) (2 * n) (2 * n + 2) (s.reg 0#5))

/-- An access that touches a byte outside the admitted set has no step (20_memory.md R75; decision D34, log 26): the loads,
the stores, each for the bytes it moves, and the vector read of a trap entry, by TRAP, by SAVE at LO_LIMIT, by RESTORE at
HI_LIMIT and by an accepted request (log 22). -/
def Obligations.AccessOutsideMemoryStops : Prop :=
  (∀ (a b : RegNum) (s : State), HasReg s a → HasReg s b → ¬Admitted s (s.addrK b) 0 4 →
    exec (.ld a b) s = .fault .notAdmitted ∧ exec (.st a b) s = .fault .notAdmitted) ∧
  (∀ (a : RegNum) (p : BitVec 2) (imm5 : BitVec 5) (s : State), HasReg s a → HasReg s (pointerReg s.cfg p) →
    ¬Admitted s (s.addrP p imm5) 0 4 →
    exec (.ldp a p imm5) s = .fault .notAdmitted ∧ exec (.stp a p imm5) s = .fault .notAdmitted) ∧
  (∀ (a : RegNum) (imm8 : BitVec 8) (s : State), HasReg s a → HasReg s s.cfg.spReg →
    ¬Admitted s (aligned (s.reg s.cfg.spReg + BitVec.ofNat 32 (imm8.toNat * 4))) 0 4 →
    exec (.lds a imm8) s = .fault .notAdmitted ∧ exec (.sts a imm8) s = .fault .notAdmitted) ∧
  (∀ (a : RegNum) (imm2 : BitVec 2) (imm1 : BitVec 1) (s : State) (n : Nat), HasReg s a → HasReg s 0#5 →
    (n = (s.reg a).toNat % 4 → ¬Admitted s (s.addrK a) n (n + 1) → exec (.st8d a) s = .fault .notAdmitted) ∧
    (n = imm2.toNat → ¬Admitted s (s.addrK a) n (n + 1) → exec (.st8s a imm2) s = .fault .notAdmitted) ∧
    (n = (s.reg a).toNat / 2 % 2 → ¬Admitted s (s.addrK a) (2 * n) (2 * n + 2) →
      exec (.st16d a) s = .fault .notAdmitted) ∧
    (n = imm1.toNat → ¬Admitted s (s.addrK a) (2 * n) (2 * n + 2) → exec (.st16s a imm1) s = .fault .notAdmitted)) ∧
  (∀ (imm10 : BitVec 10) (imm9 : BitVec 9) (s : State) (n : Nat), HasReg s s.cfg.spReg → HasReg s 0#5 →
    (n = imm10.toNat % 4 → ¬Admitted s (aligned (s.reg s.cfg.spReg + BitVec.ofNat 32 imm10.toNat)) n (n + 1) →
      exec (.sts8s imm10) s = .fault .notAdmitted) ∧
    (n = imm9.toNat % 2 →
      ¬Admitted s (aligned (s.reg s.cfg.spReg + BitVec.ofNat 32 (imm9.toNat * 2))) (2 * n) (2 * n + 2) →
      exec (.sts16s imm9) s = .fault .notAdmitted)) ∧
  (∀ (n : BitVec 6) (imm8 : BitVec 8) (s : State), InWindow s → s.status.cwp ≠ 0#5 →
    (¬Admitted s (s.cfg.vecbase + BitVec.ofNat 32 (4 * n.toNat)) 0 4 →
      exec (.trap n) s = .fault .notAdmitted ∧ (s.accepted = some n → step s = .fault .notAdmitted)) ∧
    (¬Admitted s (s.cfg.vecbase + 4#32) 0 4 → s.delay = none → s.status.cwp = s.loLimit →
      exec (.save imm8) s = .fault .notAdmitted)) ∧
  ∀ s : State, InWindow s → s.cfg.nwin ≤ 31 → s.delay = none → s.status.cwp = s.hiLimit →
    ¬Admitted s (s.cfg.vecbase + 8#32) 0 4 → exec .restore s = .fault .notAdmitted

/-- The two byte idioms of 44_load_store.md R243 and R245: FILL8 then ST8D stores the low byte of a register at the byte
address another register holds; LD then EXT8D reads the byte at it. -/
def Obligations.ByteIdioms : Prop :=
  (∀ (b c : RegNum) (s : State), InWindow s → b ≠ 0#5 → s.admits (s.reg b) = true →
    ∃ t, execAll [.fill8 c, .st8d b] s = .next t ∧ t.byteAt (s.reg b) = byteOf (s.reg c) 0 ∧
      ∀ x, wrapped s x ≠ wrapped s (s.reg b) → t.byteAt x = s.byteAt x) ∧
  ∀ (a b : RegNum) (s : State), InWindow s → a ≠ b → s.k = 0#11 → Admitted s (aligned (s.reg b)) 0 4 →
    ∃ t, execAll [.ld a b, .ext8d a b] s = .next t ∧ t.reg a = (s.byteAt (s.reg b)).setWidth 32

/-! ## Control transfer -/

/-- BR and BSR (45_control_transfer.md R254, R255): the target is relative to the instruction's own address, the slot comes
first; BSR leaves the half-word address after the slot in `%r15`. Their five-bit opcodes are decision D2 (30_encoding.md
R105; log 30). Neither may stand in a delay slot (R253), where the fault is decision D19 (log 19). -/
def Obligations.BranchesRelative : Prop :=
  (∀ (imm11 : BitVec 11) (s : State), encode (.br imm11) = 0b10000#5 ++ imm11 ∧ NotInSlot (.br imm11) s ∧
    (s.delay = none → ∃ t, exec (.br imm11) s = .next t ∧
      BranchesTo s t (s.pc + BitVec.ofInt 32 ((imm11.toInt + 1) * 2)) ∧ Quiet s t)) ∧
  ∀ (imm11 : BitVec 11) (s : State), encode (.bsr imm11) = 0b10001#5 ++ imm11 ∧ NotInSlot (.bsr imm11) s ∧
    (s.delay = none → HasReg s 15#5 → ∃ t, exec (.bsr imm11) s = .next t ∧
      BranchesTo s t (s.pc + BitVec.ofInt 32 ((imm11.toInt + 1) * 2)) ∧ t.reg 15#5 = halfAddress (wrapped s (s.pc + 4#32)) ∧
      KeepsOtherCells s t (s.regIndex 15#5) ∧ t.status = s.status ∧ KeepsSystem s t ∧ KeepsMemory s t)

/-- JMP (45_control_transfer.md R256): twice RA modulo 2^32, after the slot. It may not stand in a delay slot (R253),
where the fault is decision D19 (log 19). -/
def Obligations.JumpsToRegister : Prop :=
  ∀ (a : RegNum) (s : State), encode (.jmp a) = 0b01111111110#11 ++ a ∧ NotInSlot (.jmp a) s ∧
    (s.delay = none → HasReg s a → ∃ t, exec (.jmp a) s = .next t ∧
      BranchesTo s t (BitVec.ofNat 32 ((s.reg a).toNat * 2)) ∧ Quiet s t)

/-- CALL (45_control_transfer.md R257): RA is read before `%r15` is written, an inference of the spec (log 36), so
`CALL %o7` goes to the old `%o7`. -/
def Obligations.CallsRegister : Prop :=
  ∀ (a : RegNum) (s : State), NotInSlot (.call a) s ∧
    (s.delay = none → HasReg s a → HasReg s 15#5 → ∃ t, exec (.call a) s = .next t ∧
      BranchesTo s t (BitVec.ofNat 32 ((s.reg a).toNat * 2)) ∧ t.reg 15#5 = halfAddress (wrapped s (s.pc + 4#32)) ∧
      KeepsOtherCells s t (s.regIndex 15#5) ∧ t.status = s.status ∧ KeepsSystem s t ∧ KeepsMemory s t)

/-- What may not stand in a delay slot is BR, BSR, CALL, JMP, PFX, the five skips, TRET and TRAP, and nothing else
(45_control_transfer.md R253); and whatever may, and completes there, hands control to the pending target, which is
pending no more (R252; 00_scope.md R16). -/
def Obligations.SlotGoesToTarget : Prop :=
  (∀ i : Instr, slotForbidden i = true ↔
    (∃ imm11, i = .br imm11 ∨ i = .bsr imm11 ∨ i = .pfx imm11) ∨
      (∃ a, i = .call a ∨ i = .jmp a ∨ i = .skprz a ∨ i = .skprnz a ∨ i = .tret a) ∨
      (∃ a imm5, i = .skp0 a imm5 ∨ i = .skp1 a imm5) ∨ (∃ imm4, i = .skps imm4) ∨ ∃ imm6, i = .trap imm6) ∧
  ∀ (i : Instr) (s t : State) (target : Word), s.delay = some target → slotForbidden i = false →
    exec i s = .next t → t.pc = target ∧ t.delay = none

/-- SKP0, SKP1, SKPRZ, SKPRNZ (45_control_transfer.md R261 to R264): the next instruction is skipped where the condition
holds, with every PFX before it (decision D10, log 13). None may stand in a delay slot. -/
def Obligations.SkipsOnRegister : Prop :=
  ∀ (a : RegNum) (imm5 : BitVec 5) (s : State),
    (NotInSlot (.skp0 a imm5) s ∧ NotInSlot (.skp1 a imm5) s ∧ NotInSlot (.skprz a) s ∧ NotInSlot (.skprnz a) s) ∧
    (HasReg s a →
      SkipsWhen (.skp0 a imm5) s ((s.reg a).getLsbD imm5.toNat = false) ∧
      SkipsWhen (.skp1 a imm5) s ((s.reg a).getLsbD imm5.toNat = true) ∧
      SkipsWhen (.skprz a) s (s.reg a = 0#32) ∧ SkipsWhen (.skprnz a) s (s.reg a ≠ 0#32))

/-- SKPS (45_control_transfer.md R265, R268) in every numbering of the conditions, which is the parameter CC (decision D9,
log 11): the code skips where the condition it names holds, and faults where it names none. In the default numbering the
codes 0 to 13 are the fourteen conditions, with the formulas of general knowledge, and 14 and 15 name none. -/
def Obligations.SkipsOnCondition : Prop :=
  (∀ (code : BitVec 4) (s : State), NotInSlot (.skps code) s ∧
    (∀ name, s.cfg.cc.getD code.toNat none = some name → SkipsWhen (.skps code) s (means name s.status)) ∧
    (s.cfg.cc.getD code.toNat none = none → exec (.skps code) s = .fault .badCondition)) ∧
  ∀ s : State, s.cfg.cc = Config.default.cc →
    SkipsWhen (.skps 0#4) s (s.status.c = true) ∧ SkipsWhen (.skps 1#4) s (s.status.c = false) ∧
    SkipsWhen (.skps 2#4) s (s.status.z = true) ∧ SkipsWhen (.skps 3#4) s (s.status.z = false) ∧
    SkipsWhen (.skps 4#4) s (s.status.n = true) ∧ SkipsWhen (.skps 5#4) s (s.status.n = false) ∧
    SkipsWhen (.skps 6#4) s (s.status.n = s.status.v) ∧ SkipsWhen (.skps 7#4) s (s.status.n ≠ s.status.v) ∧
    SkipsWhen (.skps 8#4) s (s.status.z = true ∨ s.status.n ≠ s.status.v) ∧
    SkipsWhen (.skps 9#4) s (s.status.z = false ∧ s.status.n = s.status.v) ∧
    SkipsWhen (.skps 10#4) s (s.status.v = true) ∧ SkipsWhen (.skps 11#4) s (s.status.v = false) ∧
    SkipsWhen (.skps 12#4) s (s.status.c = true ∨ s.status.z = true) ∧
    SkipsWhen (.skps 13#4) s (s.status.c = false ∧ s.status.z = false) ∧
    exec (.skps 14#4) s = .fault .badCondition ∧ exec (.skps 15#4) s = .fault .badCondition

/-! ## Windows, traps, control registers -/

/-- SAVE and RESTORE where they do not trap (46_window_trap_control.md R290, R291): the window moves by one; SAVE computes
the new `%sp` from the `%fp` of the new window, its statements run in the order written (decision D15, log 16), and where
`%sp` and `%fp` are an out and in pair (decision D4, log 8) that `%fp` is the old `%sp`; RESTORE writes no register. -/
def Obligations.MovesWindow : Prop :=
  (∀ (imm8 : BitVec 8) (s : State), InWindow s → s.status.cwp ≠ 0#5 → s.status.cwp ≠ s.loLimit →
    ∃ t, exec (.save imm8) s = .next t ∧ t.status = { s.status with cwp := s.status.cwp - 1#5 } ∧
      t.reg s.cfg.spReg =
        s.cell (cellOf (s.status.cwp.toNat - 1) s.cfg.fpReg) - BitVec.ofNat 32 (imm8.toNat * 4) ∧
      (StackPair s.cfg → t.reg s.cfg.spReg = s.reg s.cfg.spReg - BitVec.ofNat 32 (imm8.toNat * 4) ∧
        t.reg s.cfg.fpReg = s.reg s.cfg.spReg) ∧
      KeepsOtherCells s t (cellOf (s.status.cwp.toNat - 1) s.cfg.spReg) ∧ KeepsSystem s t ∧ KeepsMemory s t ∧
      Advances s t) ∧
  ∀ s : State, s.status.cwp.toNat + 1 < s.cfg.nwin → s.cfg.nwin ≤ 31 → s.status.cwp ≠ s.hiLimit →
    ∃ t, exec .restore s = .next t ∧ t.status = { s.status with cwp := s.status.cwp + 1#5 } ∧
      KeepsRegisters s t ∧ KeepsSystem s t ∧ KeepsMemory s t ∧ Advances s t

/-- SAVE at LO_LIMIT takes TRAP #1 in the window it moved to, without a second decrement (60_exceptions.md R334; decision
D16, log 16), and leaves that window's `%sp` below the old one, `%sp` and `%fp` being a pair (decision D4, log 8); in a
delay slot it faults, and so does RESTORE at HI_LIMIT (decision D29, log 19). -/
def Obligations.UnderflowTraps : Prop :=
  (∀ (imm8 : BitVec 8) (s : State), InWindow s → s.status.cwp ≠ 0#5 → s.status.cwp = s.loLimit →
    (s.delay = none → CanEnter s 1#6 (s.status.cwp.toNat - 1) →
      ∃ t, exec (.save imm8) s = .next t ∧
        AtHandler s t 1#6 (s.pc + 2#32) (s.status.cwp - 1#5) { s.status with cwp := s.status.cwp - 1#5 } ∧
        (StackPair s.cfg → t.reg s.cfg.spReg = s.reg s.cfg.spReg - BitVec.ofNat 32 (imm8.toNat * 4)) ∧
        ∀ n, n ≠ cellOf (s.status.cwp.toNat - 1) s.cfg.spReg → n ≠ 16 * (s.status.cwp.toNat - 1) + 15 →
          t.cell n = s.cell n) ∧
    (s.delay ≠ none → exec (.save imm8) s = .fault .trapInDelaySlot)) ∧
  ∀ s : State, s.status.cwp = s.hiLimit → s.delay ≠ none → exec .restore s = .fault .trapInDelaySlot

/-- RESTORE at HI_LIMIT takes TRAP #2 (60_exceptions.md R335): ISTATUS gets the STATUS with CWP = HI_LIMIT + 1, the entry's
decrement brings CWP back to HI_LIMIT, where the handler runs. -/
def Obligations.OverflowTraps : Prop :=
  ∀ s : State, s.status.cwp = s.hiLimit → s.cfg.nwin ≤ 31 → CanEnter s 2#6 s.hiLimit.toNat → s.delay = none →
    ∃ t, exec .restore s = .next t ∧
      AtHandler s t 2#6 (s.pc + 2#32) s.hiLimit { s.status with cwp := s.hiLimit + 1#5 } ∧
      KeepsOtherCells s t (16 * s.hiLimit.toNat + 15)

/-- TRAP (46_window_trap_control.md R292, 60_exceptions.md R332, R336): whatever IE and IPRI are, for every vector number,
one window down. It may not stand in a delay slot and has none (decision D25, log 28). -/
def Obligations.TrapEnters : Prop :=
  ∀ (n : BitVec 6) (s : State), NotInSlot (.trap n) s ∧
    (s.status.cwp ≠ 0#5 → CanEnter s n (s.status.cwp.toNat - 1) →
      ∃ t, exec (.trap n) s = .next t ∧ AtHandler s t n (s.pc + 2#32) (s.status.cwp - 1#5) s.status ∧
        KeepsOtherCells s t (16 * (s.status.cwp.toNat - 1) + 15))

/-- TRET (46_window_trap_control.md R293, 60_exceptions.md R338): every field of STATUS comes back from ISTATUS, the pc is
twice RA, read in the handler's window (decision D33, log 28); there is no slot (decision D25). -/
def Obligations.TretReturns : Prop :=
  ∀ (a : RegNum) (s : State), NotInSlot (.tret a) s ∧
    (s.delay = none → HasReg s a → s.istatus.cwp.toNat < s.cfg.nwin →
      ∃ t, exec (.tret a) s = .next t ∧ t.status = s.istatus ∧ t.pc = wrapped s (BitVec.ofNat 32 ((s.reg a).toNat * 2)) ∧
        t.delay = none ∧ t.k = 0#11 ∧ t.pfx = false ∧ t.wrctlHazard = false ∧ KeepsRegisters s t ∧
        KeepsSystem s t ∧ KeepsMemory s t)

/-- TRAP and then `TRET %o7` come back to the instruction after the TRAP with STATUS as it was; one cell has changed, the
`%o7` of the handler's window (46_window_trap_control.md R293, round trip). -/
def Obligations.TrapTretRoundTrip : Prop :=
  ∀ (n : BitVec 6) (s t : State), InWindow s → s.pc.getLsbD 0 = false → exec (.trap n) s = .next t →
    ∃ u, exec (.tret 15#5) t = .next u ∧ u.pc = wrapped s (s.pc + 2#32) ∧ u.status = s.status ∧
      KeepsOtherCells s u (16 * (s.status.cwp.toNat - 1) + 15) ∧ KeepsMemory s u

/-- WRCTL (46_window_trap_control.md R294): STATUS, ISTATUS and the limits, selected by K; the numbers of the last two and
the places of the fields are parameters (decisions D7 and D6, logs 10 and 7). The bits of no field are ignored, in the
default layout bits 31..16 and no other; a write of STATUS obliges the next instruction to be NOP (decision D20, log
19). -/
def Obligations.WritesControl : Prop :=
  (∀ (a : RegNum) (s : State), HasReg s a →
    (s.k = 0#11 → (fieldsOf s.cfg.layout (s.reg a)).cwp.toNat < s.cfg.nwin →
      ∃ t, exec (.wrctl a) s = .next t ∧ t.status = fieldsOf s.cfg.layout (s.reg a) ∧ t.wrctlHazard = true ∧
        t.pc = s.delay.getD (wrapped s (s.pc + 2#32)) ∧ t.delay = none ∧ t.k = 0#11 ∧ t.pfx = false ∧
        KeepsRegisters s t ∧ KeepsSystem s t ∧ KeepsMemory s t) ∧
    (s.k ≠ 0#11 → s.k = s.cfg.ctlIstatus →
      ∃ t, exec (.wrctl a) s = .next t ∧ t.istatus = fieldsOf s.cfg.layout (s.reg a) ∧ t.status = s.status ∧
        t.hiLimit = s.hiLimit ∧ t.loLimit = s.loLimit ∧ t.cfg = s.cfg ∧ t.request = s.request ∧ KeepsRegisters s t ∧
        KeepsMemory s t ∧ Advances s t) ∧
    (s.k ≠ 0#11 → s.k ≠ s.cfg.ctlIstatus → s.k = s.cfg.ctlWvalid →
      ∃ t, exec (.wrctl a) s = .next t ∧ t.hiLimit.toNat = (s.reg a).toNat / 32 % 32 ∧
        t.loLimit.toNat = (s.reg a).toNat % 32 ∧ t.status = s.status ∧ t.istatus = s.istatus ∧ t.cfg = s.cfg ∧
        t.request = s.request ∧ KeepsRegisters s t ∧ KeepsMemory s t ∧ Advances s t)) ∧
  ∀ x : Word, statusNumber (fieldsOf Config.default.layout x) = x.toNat % 2 ^ 16

/-- RDCTL (46_window_trap_control.md R295): STATUS, ISTATUS and the limits, selected by K, with each field at its place and
zeros elsewhere (10_state.md R31, R36), in every layout whose fields do not overlap, and as the spec writes it out in the
default one (decisions D6, D7, logs 7 and 10). -/
def Obligations.ReadsControl : Prop :=
  ∀ (a : RegNum) (s : State), HasReg s a →
    (s.k = 0#11 → ∃ v, Assigns (.rdctl a) s a v s.status ∧
      (s.cfg.layout.wellFormed = true → ReadsAs s.cfg.layout s.status v) ∧
      (s.cfg.layout = Config.default.layout → v.toNat = statusNumber s.status)) ∧
    (s.k ≠ 0#11 → s.k = s.cfg.ctlIstatus → ∃ v, Assigns (.rdctl a) s a v s.status ∧
      (s.cfg.layout.wellFormed = true → ReadsAs s.cfg.layout s.istatus v) ∧
      (s.cfg.layout = Config.default.layout → v.toNat = statusNumber s.istatus)) ∧
    (s.k ≠ 0#11 → s.k ≠ s.cfg.ctlIstatus → s.k = s.cfg.ctlWvalid →
      Assigns (.rdctl a) s a (BitVec.ofNat 32 (s.hiLimit.toNat * 32 + s.loLimit.toNat)) s.status)

/-- What the spec gives no meaning stops by name (10_state.md R22, R32, R37; decisions D7, D17, logs 10 and 17): a control
register that is not one of the three, a window outside the file; and no instruction completes that names a register
outside it. -/
def Obligations.StopsOutsideTheFile : Prop :=
  (∀ (a : RegNum) (s : State), HasReg s a → s.k ≠ 0#11 → s.k ≠ s.cfg.ctlIstatus → s.k ≠ s.cfg.ctlWvalid →
    exec (.wrctl a) s = .fault .unknownControlRegister ∧ exec (.rdctl a) s = .fault .unknownControlRegister) ∧
  (∀ (s : State) (imm8 : BitVec 8) (n : BitVec 6), s.status.cwp = 0#5 →
    exec (.save imm8) s = .fault .windowOutOfFile ∧ exec (.trap n) s = .fault .windowOutOfFile) ∧
  (∀ s : State, s.cfg.nwin ≤ s.status.cwp.toNat + 1 → s.status.cwp ≠ s.hiLimit →
    exec .restore s = .fault .windowOutOfFile) ∧
  (∀ (a : RegNum) (s : State), HasReg s a → s.cfg.nwin ≤ s.istatus.cwp.toNat →
    exec (.tret a) s = .fault .windowOutOfFile) ∧
  (∀ (a : RegNum) (s : State), HasReg s a → s.k = 0#11 → s.cfg.nwin ≤ (fieldsOf s.cfg.layout (s.reg a)).cwp.toNat →
    exec (.wrctl a) s = .fault .windowOutOfFile) ∧
  ∀ (i : Instr) (s t : State), exec i s = .next t → ∀ r ∈ namedRegs s.cfg i, s.inFile r = true

/-! ## Custom instructions -/

/-- USR0 to USR4 (47_custom.md R321 to R327) where the block is a pure function, which the model leaves free (log 20); an
absent block faults, one with state or a path outside is refused (decision D21). -/
def Obligations.CustomInstructions : Prop :=
  (∀ (a b : RegNum) (s : State), HasReg s a → HasReg s b → s.cfg.usr0 = .pure →
    Assigns (.usr0 a b) s a (Config.usrOp0 (s.reg a) (s.reg b)) s.status) ∧
  (∀ (a : RegNum) (s : State), HasReg s a → HasReg s 0#5 →
    (s.cfg.usr1 = .pure → Assigns (.usr1 a) s a (Config.usrOp1 (s.reg a) (s.reg 0#5)) s.status) ∧
    (s.cfg.usr2 = .pure → Assigns (.usr2 a) s a (Config.usrOp2 (s.reg a) (s.reg 0#5)) s.status) ∧
    (s.cfg.usr3 = .pure → Assigns (.usr3 a) s a (Config.usrOp3 (s.reg a) (s.reg 0#5)) s.status) ∧
    (s.cfg.usr4 = .pure → Assigns (.usr4 a) s a (Config.usrOp4 (s.reg a) (s.reg 0#5)) s.status)) ∧
  ∀ (a b : RegNum) (s : State),
    (s.cfg.usr0 = .absent → exec (.usr0 a b) s = .fault .customAbsent) ∧
    (s.cfg.usr1 = .absent → exec (.usr1 a) s = .fault .customAbsent) ∧
    (s.cfg.usr2 = .absent → exec (.usr2 a) s = .fault .customAbsent) ∧
    (s.cfg.usr3 = .absent → exec (.usr3 a) s = .fault .customAbsent) ∧
    (s.cfg.usr4 = .absent → exec (.usr4 a) s = .fault .customAbsent) ∧
    (s.cfg.usr0 = .impure → exec (.usr0 a b) s = .refused .customNotPure) ∧
    (s.cfg.usr1 = .impure → exec (.usr1 a) s = .refused .customNotPure) ∧
    (s.cfg.usr2 = .impure → exec (.usr2 a) s = .refused .customNotPure) ∧
    (s.cfg.usr3 = .impure → exec (.usr3 a) s = .refused .customNotPure) ∧
    (s.cfg.usr4 = .impure → exec (.usr4 a) s = .refused .customNotPure)

/-! ## The whole machine -/

/-- STATUS, ISTATUS and the window limits change only by the instructions whose rows name them (10_state.md R30, R33, R35,
R36); the configuration and the interrupt input change by none, which is the model's choice (logs 6 and 22): the parameters
are held in State, and the request is what the platform presents. -/
def Obligations.OnlyNamedWriteControl : Prop :=
  ∀ (i : Instr) (s t : State), exec i s = .next t →
    (t.status.c ≠ s.status.c → (isArithmetic i || isRotate i || isStatusWriter s.k i) = true) ∧
    (t.status.n ≠ s.status.n → (isArithmetic i || isLogic i || isStatusWriter s.k i) = true) ∧
    (t.status.z ≠ s.status.z → (isArithmetic i || isLogic i || isStatusWriter s.k i) = true) ∧
    (t.status.v ≠ s.status.v → (isArithmetic i || isStatusWriter s.k i) = true) ∧
    (t.status.cwp ≠ s.status.cwp → (isWindowOrTrap i || isStatusWriter s.k i) = true) ∧
    (t.status.ie ≠ s.status.ie → (isWindowOrTrap i || isStatusWriter s.k i) = true) ∧
    (t.status.ipri ≠ s.status.ipri → (isWindowOrTrap i || isStatusWriter s.k i) = true) ∧
    (t.istatus ≠ s.istatus → isWindowOrTrap i = true ∨ (s.k = s.cfg.ctlIstatus ∧ ∃ a, i = .wrctl a)) ∧
    (t.hiLimit ≠ s.hiLimit ∨ t.loLimit ≠ s.loLimit → s.k = s.cfg.ctlWvalid ∧ ∃ a, i = .wrctl a) ∧
    t.cfg = s.cfg ∧ t.request = s.request

/-- A byte of memory changes only by a store instruction, and then counts as stored (20_memory.md R60, R63). -/
def Obligations.OnlyStoresWriteMemory : Prop :=
  ∀ (i : Instr) (s t : State) (a : Word), exec i s = .next t →
    (t.byteAt a ≠ s.byteAt a → isStore i = true ∧ t.wasStored a = true) ∧
    (t.wasStored a ≠ s.wasStored a → isStore i = true) ∧ (s.wasStored a = true → t.wasStored a = true)

/-- The register file is reached only through the window (10_state.md R41): a cell that changes is a visible register of
the window before or of the window after. -/
def Obligations.CellsOutsideWindowsKept : Prop :=
  ∀ (i : Instr) (s t : State) (n : Nat), exec i s = .next t → t.cell n ≠ s.cell n →
    ∃ r, n = s.regIndex r ∨ n = t.regIndex r

/-- The windows overlap (10_state.md R22): the in registers of a window are the out registers of the next one up, the
globals are the same in every window, no two names of one window are one cell, and with CWP legal every name is a cell. -/
def Obligations.WindowsOverlap : Prop :=
  (∀ (s t : State) (j : RegNum), j.toNat < 8 → s.status.cwp.toNat = t.status.cwp.toNat + 1 →
    t.regIndex (24#5 + j) = s.regIndex (8#5 + j) ∧ t.regIndex j = s.regIndex j) ∧
  (∀ (s : State) (i j : RegNum), s.regIndex i = s.regIndex j → i = j) ∧
  ∀ (s : State) (i : RegNum), s.status.cwp.toNat < s.cfg.nwin → s.inFile i = true

/-- Every step keeps the invariant, from every state that has it, whether or not a run reaches it: the register file has
its size, CWP names a window of it, the pc and a pending target are even and have `ADDR_BITS` bits, K is zero unless a PFX
came before, memory and the marks of stored bytes are in canonical form. -/
def Obligations.InvariantKept : Prop := ∀ s t : State, s.Inv → step s = .next t → t.Inv

/-- The state after reset has the invariant, in every configuration the spec describes, that of State.reset among them. -/
def Obligations.InvariantAtReset : Prop :=
  (∀ c : Config, c.wellFormed = true → (State.resetWith c).Inv) ∧ State.reset.Inv

/-- What reset leaves, in every configuration (70_reset_and_hazards.md R370, R371; decisions D23 and D7): the pc and STATUS
are the parameters RESET_PC and RESET_STATUS, no prefix, no pending target, no pending NOP, the limits NWIN - 1 and 1, no
byte stored. -/
def Obligations.ResetHiddenState : Prop :=
  ∀ (c : Config) (s : State), c.wellFormed = true → s = State.resetWith c →
    s.cfg = c ∧ s.pc = c.resetPc ∧ s.status = c.resetStatus ∧ s.k = 0#11 ∧ s.pfx = false ∧ s.delay = none ∧
      s.wrctlHazard = false ∧ s.hiLimit.toNat = c.nwin - 1 ∧ s.loLimit = 1#5 ∧ s.regs.length = c.nregs ∧
      ∀ a, s.wasStored a = false

/-- The parameters of the machine that State.reset starts have the defaults of 00_scope.md R6 and, for VECBASE and
RESET_STATUS, which it leaves open, the values of the test vectors (decisions D3 to D9, D21, D23, D26; logs 2, 3, 6 to 11,
20, 31). -/
def Obligations.DefaultParameters : Prop :=
  State.reset = State.resetWith Config.default ∧ Config.default.wellFormed = true ∧ Config.default.nwin = 7 ∧
    Config.default.nregs = 128 ∧ Config.default.addrBits = 32 ∧ Config.default.vecbase = 0x100#32 ∧
    Config.default.spReg = 14#5 ∧ Config.default.fpReg = 30#5 ∧
    (∀ p, pointerReg Config.default p = 16#5 + p.setWidth 5) ∧
    Config.default.layout = { ie := 15, ipri := 9, cwp := 4, n := 3, v := 2, z := 1, c := 0 } ∧
    Config.default.ctlIstatus = 1#11 ∧ Config.default.ctlWvalid = 2#11 ∧
    Config.default.cc = [some .c, some .nc, some .z, some .nz, some .mi, some .pl, some .ge, some .lt, some .le,
      some .gt, some .v, some .nv, some .ls, some .hi, none, none] ∧
    Config.default.usr0 = .absent ∧ Config.default.usr1 = .absent ∧ Config.default.usr2 = .absent ∧
    Config.default.usr3 = .absent ∧ Config.default.usr4 = .absent ∧
    Config.default.resetStatus = fieldsOf Config.default.layout 0x7E60#32
end

