-- ==== Sys2Proof/Laws/State.lean ====
section
/-!
SUPPORT. One lemma per field per update of the state, so that no proof unfolds a record update; and the one-line
lemmas of STATUS.
-/

namespace Sys2Proof.Machine

variable (s : State)

/-! ### `State.setReg` -/

@[simp] theorem State.setReg_cfg (i : RegNum) (v : Word) : (s.setReg i v).cfg = s.cfg := rfl
@[simp] theorem State.setReg_regs (i : RegNum) (v : Word) : (s.setReg i v).regs = s.regs.set (s.regIndex i) v := rfl
@[simp] theorem State.setReg_pc (i : RegNum) (v : Word) : (s.setReg i v).pc = s.pc := rfl
@[simp] theorem State.setReg_status (i : RegNum) (v : Word) : (s.setReg i v).status = s.status := rfl
@[simp] theorem State.setReg_istatus (i : RegNum) (v : Word) : (s.setReg i v).istatus = s.istatus := rfl
@[simp] theorem State.setReg_hiLimit (i : RegNum) (v : Word) : (s.setReg i v).hiLimit = s.hiLimit := rfl
@[simp] theorem State.setReg_loLimit (i : RegNum) (v : Word) : (s.setReg i v).loLimit = s.loLimit := rfl
@[simp] theorem State.setReg_k (i : RegNum) (v : Word) : (s.setReg i v).k = s.k := rfl
@[simp] theorem State.setReg_pfx (i : RegNum) (v : Word) : (s.setReg i v).pfx = s.pfx := rfl
@[simp] theorem State.setReg_delay (i : RegNum) (v : Word) : (s.setReg i v).delay = s.delay := rfl
@[simp] theorem State.setReg_wrctlHazard (i : RegNum) (v : Word) : (s.setReg i v).wrctlHazard = s.wrctlHazard := rfl
@[simp] theorem State.setReg_mem (i : RegNum) (v : Word) : (s.setReg i v).mem = s.mem := rfl
@[simp] theorem State.setReg_stored (i : RegNum) (v : Word) : (s.setReg i v).stored = s.stored := rfl
@[simp] theorem State.setReg_request (i : RegNum) (v : Word) : (s.setReg i v).request = s.request := rfl
@[simp] theorem State.setReg_address (i : RegNum) (v : Word) (x : Word) : (s.setReg i v).address x = s.address x := rfl

/-! ### `State.setStatus` -/

@[simp] theorem State.setStatus_cfg (st : Status) : (s.setStatus st).cfg = s.cfg := rfl
@[simp] theorem State.setStatus_regs (st : Status) : (s.setStatus st).regs = s.regs := rfl
@[simp] theorem State.setStatus_pc (st : Status) : (s.setStatus st).pc = s.pc := rfl
@[simp] theorem State.setStatus_status (st : Status) : (s.setStatus st).status = st := rfl
@[simp] theorem State.setStatus_istatus (st : Status) : (s.setStatus st).istatus = s.istatus := rfl
@[simp] theorem State.setStatus_hiLimit (st : Status) : (s.setStatus st).hiLimit = s.hiLimit := rfl
@[simp] theorem State.setStatus_loLimit (st : Status) : (s.setStatus st).loLimit = s.loLimit := rfl
@[simp] theorem State.setStatus_k (st : Status) : (s.setStatus st).k = s.k := rfl
@[simp] theorem State.setStatus_pfx (st : Status) : (s.setStatus st).pfx = s.pfx := rfl
@[simp] theorem State.setStatus_delay (st : Status) : (s.setStatus st).delay = s.delay := rfl
@[simp] theorem State.setStatus_wrctlHazard (st : Status) : (s.setStatus st).wrctlHazard = s.wrctlHazard := rfl
@[simp] theorem State.setStatus_mem (st : Status) : (s.setStatus st).mem = s.mem := rfl
@[simp] theorem State.setStatus_stored (st : Status) : (s.setStatus st).stored = s.stored := rfl
@[simp] theorem State.setStatus_request (st : Status) : (s.setStatus st).request = s.request := rfl
@[simp] theorem State.setStatus_address (st : Status) (x : Word) : (s.setStatus st).address x = s.address x := rfl

/-! ### `State.setIstatus` -/

@[simp] theorem State.setIstatus_cfg (st : Status) : (s.setIstatus st).cfg = s.cfg := rfl
@[simp] theorem State.setIstatus_regs (st : Status) : (s.setIstatus st).regs = s.regs := rfl
@[simp] theorem State.setIstatus_pc (st : Status) : (s.setIstatus st).pc = s.pc := rfl
@[simp] theorem State.setIstatus_status (st : Status) : (s.setIstatus st).status = s.status := rfl
@[simp] theorem State.setIstatus_istatus (st : Status) : (s.setIstatus st).istatus = st := rfl
@[simp] theorem State.setIstatus_hiLimit (st : Status) : (s.setIstatus st).hiLimit = s.hiLimit := rfl
@[simp] theorem State.setIstatus_loLimit (st : Status) : (s.setIstatus st).loLimit = s.loLimit := rfl
@[simp] theorem State.setIstatus_k (st : Status) : (s.setIstatus st).k = s.k := rfl
@[simp] theorem State.setIstatus_pfx (st : Status) : (s.setIstatus st).pfx = s.pfx := rfl
@[simp] theorem State.setIstatus_delay (st : Status) : (s.setIstatus st).delay = s.delay := rfl
@[simp] theorem State.setIstatus_wrctlHazard (st : Status) : (s.setIstatus st).wrctlHazard = s.wrctlHazard := rfl
@[simp] theorem State.setIstatus_mem (st : Status) : (s.setIstatus st).mem = s.mem := rfl
@[simp] theorem State.setIstatus_stored (st : Status) : (s.setIstatus st).stored = s.stored := rfl
@[simp] theorem State.setIstatus_request (st : Status) : (s.setIstatus st).request = s.request := rfl
@[simp] theorem State.setIstatus_address (st : Status) (x : Word) : (s.setIstatus st).address x = s.address x := rfl

/-! ### `State.setLimits` -/

@[simp] theorem State.setLimits_cfg (hi lo : BitVec 5) : (s.setLimits hi lo).cfg = s.cfg := rfl
@[simp] theorem State.setLimits_regs (hi lo : BitVec 5) : (s.setLimits hi lo).regs = s.regs := rfl
@[simp] theorem State.setLimits_pc (hi lo : BitVec 5) : (s.setLimits hi lo).pc = s.pc := rfl
@[simp] theorem State.setLimits_status (hi lo : BitVec 5) : (s.setLimits hi lo).status = s.status := rfl
@[simp] theorem State.setLimits_istatus (hi lo : BitVec 5) : (s.setLimits hi lo).istatus = s.istatus := rfl
@[simp] theorem State.setLimits_hiLimit (hi lo : BitVec 5) : (s.setLimits hi lo).hiLimit = hi := rfl
@[simp] theorem State.setLimits_loLimit (hi lo : BitVec 5) : (s.setLimits hi lo).loLimit = lo := rfl
@[simp] theorem State.setLimits_k (hi lo : BitVec 5) : (s.setLimits hi lo).k = s.k := rfl
@[simp] theorem State.setLimits_pfx (hi lo : BitVec 5) : (s.setLimits hi lo).pfx = s.pfx := rfl
@[simp] theorem State.setLimits_delay (hi lo : BitVec 5) : (s.setLimits hi lo).delay = s.delay := rfl
@[simp] theorem State.setLimits_wrctlHazard (hi lo : BitVec 5) : (s.setLimits hi lo).wrctlHazard = s.wrctlHazard := rfl
@[simp] theorem State.setLimits_mem (hi lo : BitVec 5) : (s.setLimits hi lo).mem = s.mem := rfl
@[simp] theorem State.setLimits_stored (hi lo : BitVec 5) : (s.setLimits hi lo).stored = s.stored := rfl
@[simp] theorem State.setLimits_request (hi lo : BitVec 5) : (s.setLimits hi lo).request = s.request := rfl
@[simp] theorem State.setLimits_address (hi lo : BitVec 5) (x : Word) :
    (s.setLimits hi lo).address x = s.address x := rfl

/-! ### `State.markHazard` -/

@[simp] theorem State.markHazard_cfg : (s.markHazard).cfg = s.cfg := rfl
@[simp] theorem State.markHazard_regs : (s.markHazard).regs = s.regs := rfl
@[simp] theorem State.markHazard_pc : (s.markHazard).pc = s.pc := rfl
@[simp] theorem State.markHazard_status : (s.markHazard).status = s.status := rfl
@[simp] theorem State.markHazard_istatus : (s.markHazard).istatus = s.istatus := rfl
@[simp] theorem State.markHazard_hiLimit : (s.markHazard).hiLimit = s.hiLimit := rfl
@[simp] theorem State.markHazard_loLimit : (s.markHazard).loLimit = s.loLimit := rfl
@[simp] theorem State.markHazard_k : (s.markHazard).k = s.k := rfl
@[simp] theorem State.markHazard_pfx : (s.markHazard).pfx = s.pfx := rfl
@[simp] theorem State.markHazard_delay : (s.markHazard).delay = s.delay := rfl
@[simp] theorem State.markHazard_wrctlHazard : (s.markHazard).wrctlHazard = true := rfl
@[simp] theorem State.markHazard_mem : (s.markHazard).mem = s.mem := rfl
@[simp] theorem State.markHazard_stored : (s.markHazard).stored = s.stored := rfl
@[simp] theorem State.markHazard_request : (s.markHazard).request = s.request := rfl
@[simp] theorem State.markHazard_address (x : Word) : (s.markHazard).address x = s.address x := rfl

/-! ### `State.setPrefix` -/

@[simp] theorem State.setPrefix_cfg (k : BitVec 11) : (s.setPrefix k).cfg = s.cfg := rfl
@[simp] theorem State.setPrefix_regs (k : BitVec 11) : (s.setPrefix k).regs = s.regs := rfl
@[simp] theorem State.setPrefix_pc (k : BitVec 11) : (s.setPrefix k).pc = s.pc := rfl
@[simp] theorem State.setPrefix_status (k : BitVec 11) : (s.setPrefix k).status = s.status := rfl
@[simp] theorem State.setPrefix_istatus (k : BitVec 11) : (s.setPrefix k).istatus = s.istatus := rfl
@[simp] theorem State.setPrefix_hiLimit (k : BitVec 11) : (s.setPrefix k).hiLimit = s.hiLimit := rfl
@[simp] theorem State.setPrefix_loLimit (k : BitVec 11) : (s.setPrefix k).loLimit = s.loLimit := rfl
@[simp] theorem State.setPrefix_k (k : BitVec 11) : (s.setPrefix k).k = k := rfl
@[simp] theorem State.setPrefix_pfx (k : BitVec 11) : (s.setPrefix k).pfx = true := rfl
@[simp] theorem State.setPrefix_delay (k : BitVec 11) : (s.setPrefix k).delay = s.delay := rfl
@[simp] theorem State.setPrefix_wrctlHazard (k : BitVec 11) : (s.setPrefix k).wrctlHazard = s.wrctlHazard := rfl
@[simp] theorem State.setPrefix_mem (k : BitVec 11) : (s.setPrefix k).mem = s.mem := rfl
@[simp] theorem State.setPrefix_stored (k : BitVec 11) : (s.setPrefix k).stored = s.stored := rfl
@[simp] theorem State.setPrefix_request (k : BitVec 11) : (s.setPrefix k).request = s.request := rfl
@[simp] theorem State.setPrefix_address (k : BitVec 11) (x : Word) : (s.setPrefix k).address x = s.address x := rfl

/-! ### `State.retire` -/

@[simp] theorem State.retire_cfg (p : Word) (d : Option Word) : (s.retire p d).cfg = s.cfg := rfl
@[simp] theorem State.retire_regs (p : Word) (d : Option Word) : (s.retire p d).regs = s.regs := rfl
@[simp] theorem State.retire_pc (p : Word) (d : Option Word) : (s.retire p d).pc = s.delay.getD (s.address p) := rfl
@[simp] theorem State.retire_status (p : Word) (d : Option Word) : (s.retire p d).status = s.status := rfl
@[simp] theorem State.retire_istatus (p : Word) (d : Option Word) : (s.retire p d).istatus = s.istatus := rfl
@[simp] theorem State.retire_hiLimit (p : Word) (d : Option Word) : (s.retire p d).hiLimit = s.hiLimit := rfl
@[simp] theorem State.retire_loLimit (p : Word) (d : Option Word) : (s.retire p d).loLimit = s.loLimit := rfl
@[simp] theorem State.retire_k (p : Word) (d : Option Word) : (s.retire p d).k = 0#11 := rfl
@[simp] theorem State.retire_pfx (p : Word) (d : Option Word) : (s.retire p d).pfx = false := rfl
@[simp] theorem State.retire_delay (p : Word) (d : Option Word) :
    (s.retire p d).delay = if s.delay.isSome then none else d.map s.address := rfl
@[simp] theorem State.retire_wrctlHazard (p : Word) (d : Option Word) : (s.retire p d).wrctlHazard = false := rfl
@[simp] theorem State.retire_mem (p : Word) (d : Option Word) : (s.retire p d).mem = s.mem := rfl
@[simp] theorem State.retire_stored (p : Word) (d : Option Word) : (s.retire p d).stored = s.stored := rfl
@[simp] theorem State.retire_request (p : Word) (d : Option Word) : (s.retire p d).request = s.request := rfl
@[simp] theorem State.retire_address (p : Word) (d : Option Word) (x : Word) :
    (s.retire p d).address x = s.address x := rfl

/-! ### `State.advance` -/

@[simp] theorem State.advance_cfg : (s.advance).cfg = s.cfg := rfl
@[simp] theorem State.advance_regs : (s.advance).regs = s.regs := rfl
@[simp] theorem State.advance_pc : (s.advance).pc = s.delay.getD (s.address (s.pc + 2#32)) := rfl
@[simp] theorem State.advance_status : (s.advance).status = s.status := rfl
@[simp] theorem State.advance_istatus : (s.advance).istatus = s.istatus := rfl
@[simp] theorem State.advance_hiLimit : (s.advance).hiLimit = s.hiLimit := rfl
@[simp] theorem State.advance_loLimit : (s.advance).loLimit = s.loLimit := rfl
@[simp] theorem State.advance_k : (s.advance).k = 0#11 := rfl
@[simp] theorem State.advance_pfx : (s.advance).pfx = false := rfl
@[simp] theorem State.advance_delay : (s.advance).delay = none := by
  simp [State.advance, State.retire]
@[simp] theorem State.advance_wrctlHazard : (s.advance).wrctlHazard = false := rfl
@[simp] theorem State.advance_mem : (s.advance).mem = s.mem := rfl
@[simp] theorem State.advance_stored : (s.advance).stored = s.stored := rfl
@[simp] theorem State.advance_request : (s.advance).request = s.request := rfl
@[simp] theorem State.advance_address (x : Word) : (s.advance).address x = s.address x := rfl

/-! ### `State.branch` -/

@[simp] theorem State.branch_cfg (g : Word) : (s.branch g).cfg = s.cfg := rfl
@[simp] theorem State.branch_regs (g : Word) : (s.branch g).regs = s.regs := rfl
@[simp] theorem State.branch_pc (g : Word) : (s.branch g).pc = s.delay.getD (s.address (s.pc + 2#32)) := rfl
@[simp] theorem State.branch_status (g : Word) : (s.branch g).status = s.status := rfl
@[simp] theorem State.branch_istatus (g : Word) : (s.branch g).istatus = s.istatus := rfl
@[simp] theorem State.branch_hiLimit (g : Word) : (s.branch g).hiLimit = s.hiLimit := rfl
@[simp] theorem State.branch_loLimit (g : Word) : (s.branch g).loLimit = s.loLimit := rfl
@[simp] theorem State.branch_k (g : Word) : (s.branch g).k = 0#11 := rfl
@[simp] theorem State.branch_pfx (g : Word) : (s.branch g).pfx = false := rfl
@[simp] theorem State.branch_delay (g : Word) :
    (s.branch g).delay = if s.delay.isSome then none else some (s.address g) := rfl
@[simp] theorem State.branch_wrctlHazard (g : Word) : (s.branch g).wrctlHazard = false := rfl
@[simp] theorem State.branch_mem (g : Word) : (s.branch g).mem = s.mem := rfl
@[simp] theorem State.branch_stored (g : Word) : (s.branch g).stored = s.stored := rfl
@[simp] theorem State.branch_request (g : Word) : (s.branch g).request = s.request := rfl
@[simp] theorem State.branch_address (g : Word) (x : Word) : (s.branch g).address x = s.address x := rfl

/-! ### `State.putByte` -/

@[simp] theorem State.putByte_cfg (a : Word) (v : Byte) : (s.putByte a v).cfg = s.cfg := rfl
@[simp] theorem State.putByte_regs (a : Word) (v : Byte) : (s.putByte a v).regs = s.regs := rfl
@[simp] theorem State.putByte_pc (a : Word) (v : Byte) : (s.putByte a v).pc = s.pc := rfl
@[simp] theorem State.putByte_status (a : Word) (v : Byte) : (s.putByte a v).status = s.status := rfl
@[simp] theorem State.putByte_istatus (a : Word) (v : Byte) : (s.putByte a v).istatus = s.istatus := rfl
@[simp] theorem State.putByte_hiLimit (a : Word) (v : Byte) : (s.putByte a v).hiLimit = s.hiLimit := rfl
@[simp] theorem State.putByte_loLimit (a : Word) (v : Byte) : (s.putByte a v).loLimit = s.loLimit := rfl
@[simp] theorem State.putByte_k (a : Word) (v : Byte) : (s.putByte a v).k = s.k := rfl
@[simp] theorem State.putByte_pfx (a : Word) (v : Byte) : (s.putByte a v).pfx = s.pfx := rfl
@[simp] theorem State.putByte_delay (a : Word) (v : Byte) : (s.putByte a v).delay = s.delay := rfl
@[simp] theorem State.putByte_wrctlHazard (a : Word) (v : Byte) : (s.putByte a v).wrctlHazard = s.wrctlHazard := rfl
@[simp] theorem State.putByte_mem (a : Word) (v : Byte) :
    (s.putByte a v).mem = Memory.write s.mem (s.address a).toNat v := rfl
@[simp] theorem State.putByte_stored (a : Word) (v : Byte) :
    (s.putByte a v).stored = Marks.insert s.stored (s.address a).toNat := rfl
@[simp] theorem State.putByte_request (a : Word) (v : Byte) : (s.putByte a v).request = s.request := rfl
@[simp] theorem State.putByte_address (a : Word) (v : Byte) (x : Word) : (s.putByte a v).address x = s.address x := rfl

/-! ### `State.trapped` -/

@[simp] theorem State.trapped_cfg (n : BitVec 6) (w : BitVec 5) : (s.trapped n w).cfg = s.cfg := rfl
@[simp] theorem State.trapped_regs (n : BitVec 6) (w : BitVec 5) : (s.trapped n w).regs = s.regs := rfl
@[simp] theorem State.trapped_pc (n : BitVec 6) (w : BitVec 5) : (s.trapped n w).pc = s.pc := rfl
@[simp] theorem State.trapped_status (n : BitVec 6) (w : BitVec 5) :
    (s.trapped n w).status = { s.status with ie := false, ipri := n, cwp := w } := rfl
@[simp] theorem State.trapped_istatus (n : BitVec 6) (w : BitVec 5) : (s.trapped n w).istatus = s.status := rfl
@[simp] theorem State.trapped_hiLimit (n : BitVec 6) (w : BitVec 5) : (s.trapped n w).hiLimit = s.hiLimit := rfl
@[simp] theorem State.trapped_loLimit (n : BitVec 6) (w : BitVec 5) : (s.trapped n w).loLimit = s.loLimit := rfl
@[simp] theorem State.trapped_k (n : BitVec 6) (w : BitVec 5) : (s.trapped n w).k = s.k := rfl
@[simp] theorem State.trapped_pfx (n : BitVec 6) (w : BitVec 5) : (s.trapped n w).pfx = s.pfx := rfl
@[simp] theorem State.trapped_delay (n : BitVec 6) (w : BitVec 5) : (s.trapped n w).delay = s.delay := rfl
@[simp] theorem State.trapped_wrctlHazard (n : BitVec 6) (w : BitVec 5) :
    (s.trapped n w).wrctlHazard = s.wrctlHazard := rfl
@[simp] theorem State.trapped_mem (n : BitVec 6) (w : BitVec 5) : (s.trapped n w).mem = s.mem := rfl
@[simp] theorem State.trapped_stored (n : BitVec 6) (w : BitVec 5) : (s.trapped n w).stored = s.stored := rfl
@[simp] theorem State.trapped_request (n : BitVec 6) (w : BitVec 5) : (s.trapped n w).request = s.request := rfl
@[simp] theorem State.trapped_address (n : BitVec 6) (w : BitVec 5) (x : Word) :
    (s.trapped n w).address x = s.address x := rfl

/-! ### `State.atHandler` -/

@[simp] theorem State.atHandler_cfg (v : Word) : (s.atHandler v).cfg = s.cfg := rfl
@[simp] theorem State.atHandler_regs (v : Word) : (s.atHandler v).regs = s.regs := rfl
@[simp] theorem State.atHandler_pc (v : Word) : (s.atHandler v).pc = s.address (v * 2#32) := rfl
@[simp] theorem State.atHandler_status (v : Word) : (s.atHandler v).status = s.status := rfl
@[simp] theorem State.atHandler_istatus (v : Word) : (s.atHandler v).istatus = s.istatus := rfl
@[simp] theorem State.atHandler_hiLimit (v : Word) : (s.atHandler v).hiLimit = s.hiLimit := rfl
@[simp] theorem State.atHandler_loLimit (v : Word) : (s.atHandler v).loLimit = s.loLimit := rfl
@[simp] theorem State.atHandler_k (v : Word) : (s.atHandler v).k = 0#11 := rfl
@[simp] theorem State.atHandler_pfx (v : Word) : (s.atHandler v).pfx = false := rfl
@[simp] theorem State.atHandler_delay (v : Word) : (s.atHandler v).delay = none := rfl
@[simp] theorem State.atHandler_wrctlHazard (v : Word) : (s.atHandler v).wrctlHazard = false := rfl
@[simp] theorem State.atHandler_mem (v : Word) : (s.atHandler v).mem = s.mem := rfl
@[simp] theorem State.atHandler_stored (v : Word) : (s.atHandler v).stored = s.stored := rfl
@[simp] theorem State.atHandler_request (v : Word) : (s.atHandler v).request = s.request := rfl
@[simp] theorem State.atHandler_address (v : Word) (x : Word) : (s.atHandler v).address x = s.address x := rfl

/-! ### `State.putBytes` -/

@[simp] theorem State.putBytes_cfg (a : Word) (l : List Byte) : (s.putBytes a l).cfg = s.cfg := by
  induction l generalizing s a with
  | nil => rfl
  | cons v l ih => simp [State.putBytes, ih]
@[simp] theorem State.putBytes_regs (a : Word) (l : List Byte) : (s.putBytes a l).regs = s.regs := by
  induction l generalizing s a with
  | nil => rfl
  | cons v l ih => simp [State.putBytes, ih]
@[simp] theorem State.putBytes_pc (a : Word) (l : List Byte) : (s.putBytes a l).pc = s.pc := by
  induction l generalizing s a with
  | nil => rfl
  | cons v l ih => simp [State.putBytes, ih]
@[simp] theorem State.putBytes_status (a : Word) (l : List Byte) : (s.putBytes a l).status = s.status := by
  induction l generalizing s a with
  | nil => rfl
  | cons v l ih => simp [State.putBytes, ih]
@[simp] theorem State.putBytes_istatus (a : Word) (l : List Byte) : (s.putBytes a l).istatus = s.istatus := by
  induction l generalizing s a with
  | nil => rfl
  | cons v l ih => simp [State.putBytes, ih]
@[simp] theorem State.putBytes_hiLimit (a : Word) (l : List Byte) : (s.putBytes a l).hiLimit = s.hiLimit := by
  induction l generalizing s a with
  | nil => rfl
  | cons v l ih => simp [State.putBytes, ih]
@[simp] theorem State.putBytes_loLimit (a : Word) (l : List Byte) : (s.putBytes a l).loLimit = s.loLimit := by
  induction l generalizing s a with
  | nil => rfl
  | cons v l ih => simp [State.putBytes, ih]
@[simp] theorem State.putBytes_k (a : Word) (l : List Byte) : (s.putBytes a l).k = s.k := by
  induction l generalizing s a with
  | nil => rfl
  | cons v l ih => simp [State.putBytes, ih]
@[simp] theorem State.putBytes_pfx (a : Word) (l : List Byte) : (s.putBytes a l).pfx = s.pfx := by
  induction l generalizing s a with
  | nil => rfl
  | cons v l ih => simp [State.putBytes, ih]
@[simp] theorem State.putBytes_delay (a : Word) (l : List Byte) : (s.putBytes a l).delay = s.delay := by
  induction l generalizing s a with
  | nil => rfl
  | cons v l ih => simp [State.putBytes, ih]
@[simp] theorem State.putBytes_wrctlHazard (a : Word) (l : List Byte) :
    (s.putBytes a l).wrctlHazard = s.wrctlHazard := by
  induction l generalizing s a with
  | nil => rfl
  | cons v l ih => simp [State.putBytes, ih]
@[simp] theorem State.putBytes_request (a : Word) (l : List Byte) : (s.putBytes a l).request = s.request := by
  induction l generalizing s a with
  | nil => rfl
  | cons v l ih => simp [State.putBytes, ih]
@[simp] theorem State.putBytes_address (a : Word) (l : List Byte) (x : Word) :
    (s.putBytes a l).address x = s.address x := by
  rw [State.address, State.putBytes_cfg, State.address]

/-! ### `State.resetWith` -/

@[simp] theorem State.resetWith_cfg (c : Config) : (State.resetWith c).cfg = c := rfl
@[simp] theorem State.resetWith_regs (c : Config) : (State.resetWith c).regs = List.replicate c.nregs 0#32 := rfl
@[simp] theorem State.resetWith_pc (c : Config) : (State.resetWith c).pc = c.resetPc := rfl
@[simp] theorem State.resetWith_status (c : Config) : (State.resetWith c).status = c.resetStatus := rfl
@[simp] theorem State.resetWith_istatus (c : Config) : (State.resetWith c).istatus = Status.zero := rfl
@[simp] theorem State.resetWith_hiLimit (c : Config) : (State.resetWith c).hiLimit = BitVec.ofNat 5 (c.nwin - 1) := rfl
@[simp] theorem State.resetWith_loLimit (c : Config) : (State.resetWith c).loLimit = 1#5 := rfl
@[simp] theorem State.resetWith_k (c : Config) : (State.resetWith c).k = 0#11 := rfl
@[simp] theorem State.resetWith_pfx (c : Config) : (State.resetWith c).pfx = false := rfl
@[simp] theorem State.resetWith_delay (c : Config) : (State.resetWith c).delay = none := rfl
@[simp] theorem State.resetWith_wrctlHazard (c : Config) : (State.resetWith c).wrctlHazard = false := rfl
@[simp] theorem State.resetWith_mem (c : Config) : (State.resetWith c).mem = [] := rfl
@[simp] theorem State.resetWith_stored (c : Config) : (State.resetWith c).stored = [] := rfl
@[simp] theorem State.resetWith_request (c : Config) : (State.resetWith c).request = none := rfl
/-- The register file has its size. -/
theorem State.resetWith_fileSize (c : Config) : (State.resetWith c).regs.length = (State.resetWith c).cfg.nregs := by
  simp

/-! ### `Status` -/

@[simp] theorem Status.withFlags_ie (st : Status) (f : Flags) : (st.withFlags f).ie = st.ie := rfl
@[simp] theorem Status.withFlags_ipri (st : Status) (f : Flags) : (st.withFlags f).ipri = st.ipri := rfl
@[simp] theorem Status.withFlags_cwp (st : Status) (f : Flags) : (st.withFlags f).cwp = st.cwp := rfl
@[simp] theorem Status.withFlags_n (st : Status) (f : Flags) : (st.withFlags f).n = f.n := rfl
@[simp] theorem Status.withFlags_v (st : Status) (f : Flags) : (st.withFlags f).v = f.v := rfl
@[simp] theorem Status.withFlags_z (st : Status) (f : Flags) : (st.withFlags f).z = f.z := rfl
@[simp] theorem Status.withFlags_c (st : Status) (f : Flags) : (st.withFlags f).c = f.c := rfl
@[simp] theorem Status.withNZ_ie (st : Status) (r : Word) : (st.withNZ r).ie = st.ie := rfl
@[simp] theorem Status.withNZ_ipri (st : Status) (r : Word) : (st.withNZ r).ipri = st.ipri := rfl
@[simp] theorem Status.withNZ_cwp (st : Status) (r : Word) : (st.withNZ r).cwp = st.cwp := rfl
@[simp] theorem Status.withNZ_n (st : Status) (r : Word) : (st.withNZ r).n = flagN r := rfl
@[simp] theorem Status.withNZ_v (st : Status) (r : Word) : (st.withNZ r).v = st.v := rfl
@[simp] theorem Status.withNZ_z (st : Status) (r : Word) : (st.withNZ r).z = flagZ r := rfl
@[simp] theorem Status.withNZ_c (st : Status) (r : Word) : (st.withNZ r).c = st.c := rfl
@[simp] theorem Status.withC_ie (st : Status) (c : Bool) : (st.withC c).ie = st.ie := rfl
@[simp] theorem Status.withC_ipri (st : Status) (c : Bool) : (st.withC c).ipri = st.ipri := rfl
@[simp] theorem Status.withC_cwp (st : Status) (c : Bool) : (st.withC c).cwp = st.cwp := rfl
@[simp] theorem Status.withC_n (st : Status) (c : Bool) : (st.withC c).n = st.n := rfl
@[simp] theorem Status.withC_v (st : Status) (c : Bool) : (st.withC c).v = st.v := rfl
@[simp] theorem Status.withC_z (st : Status) (c : Bool) : (st.withC c).z = st.z := rfl
@[simp] theorem Status.withC_c (st : Status) (c : Bool) : (st.withC c).c = c := rfl

end Sys2Proof.Machine
end

