-- ==== Sys2Proof/Laws/Memory.lean ====
section
/-!
SUPPORT. Memory: a read after a write to the same address gives the value written, a write leaves every other address
alone, and every operation keeps the canonical form. The same for the list of stored addresses.
-/

namespace Sys2Proof.Machine

theorem Memory.read_write (m : List Host.Cell) (a b : Nat) (v : Byte) :
    Memory.read (Memory.write m a v) b = if a = b then some v else Memory.read m b := by
  induction m with
  | nil => simp [Memory.write, Memory.read]
  | cons c m ih =>
    obtain ⟨k, w⟩ := c
    rcases Nat.lt_trichotomy a k with h | rfl | h
    · simp [Memory.write, h, Memory.read]
    · by_cases hb : a = b <;> simp [Memory.write, Memory.read, hb]
    · have h1 : ¬a < k := by omega
      have h2 : a ≠ k := by omega
      simp only [Memory.write, h1, h2, if_false, Memory.read, ih]
      by_cases hk : k = b
      · have : a ≠ b := by omega
        simp [hk, this]
      · simp [hk]

@[simp] theorem Memory.read_write_self (m : List Host.Cell) (a : Nat) (v : Byte) :
    Memory.read (Memory.write m a v) a = some v := by simp [Memory.read_write]

theorem Memory.read_write_ne (m : List Host.Cell) {a b : Nat} (v : Byte) (h : a ≠ b) :
    Memory.read (Memory.write m a v) b = Memory.read m b := by simp [Memory.read_write, h]

theorem Memory.mem_write {m : List Host.Cell} {a : Nat} {v : Byte} {c : Host.Cell}
    (h : c ∈ Memory.write m a v) : c = (a, v) ∨ c ∈ m := by
  induction m with
  | nil => simpa [Memory.write] using h
  | cons d m ih =>
    obtain ⟨k, w⟩ := d
    simp only [Memory.write] at h
    split at h
    · simpa using h
    · split at h
      · simp only [List.mem_cons] at h ⊢
        rcases h with h | h
        · exact .inl h
        · exact .inr (.inr h)
      · simp only [List.mem_cons] at h ⊢
        rcases h with h | h
        · exact .inr (.inl h)
        · rcases ih h with h | h
          · exact .inl h
          · exact .inr (.inr h)

theorem Memory.wf_write {m : List Host.Cell} {a : Nat} (v : Byte) (h : Memory.wf m) (ha : a < 4294967296) :
    Memory.wf (Memory.write m a v) := by
  refine ⟨?_, fun c hc => ?_⟩
  · obtain ⟨h, -⟩ := h
    induction m with
    | nil => simp [Memory.write]
    | cons d m ih =>
      obtain ⟨k, w⟩ := d
      rw [List.pairwise_cons] at h
      simp only [Memory.write]
      split
      · rename_i hk
        refine List.pairwise_cons.2 ⟨fun c hc => ?_, List.pairwise_cons.2 h⟩
        rcases List.mem_cons.1 hc with rfl | hc
        · exact hk
        · exact Nat.lt_trans hk (h.1 c hc)
      · split
        · rename_i hk
          subst hk
          exact List.pairwise_cons.2 ⟨h.1, h.2⟩
        · refine List.pairwise_cons.2 ⟨fun c hc => ?_, ih h.2⟩
          rcases Memory.mem_write hc with rfl | hc
          · show k < a
            omega
          · exact h.1 c hc
  · rcases Memory.mem_write hc with rfl | hc
    · exact ha
    · exact h.2 c hc

theorem Marks.mem_insert {l : List Nat} {a b : Nat} : b ∈ Marks.insert l a ↔ b = a ∨ b ∈ l := by
  induction l with
  | nil => simp [Marks.insert]
  | cons c l ih =>
    simp only [Marks.insert]
    split
    · simp
    · split
      · rename_i h
        subst h
        simp
      · simp only [List.mem_cons, ih]
        tauto

theorem Marks.wf_insert {l : List Nat} {a : Nat} (h : Marks.wf l) (ha : a < 4294967296) :
    Marks.wf (Marks.insert l a) := by
  refine ⟨?_, fun b hb => ?_⟩
  · obtain ⟨h, -⟩ := h
    induction l with
    | nil => simp [Marks.insert]
    | cons c l ih =>
      rw [List.pairwise_cons] at h
      simp only [Marks.insert]
      split
      · rename_i hc
        refine List.pairwise_cons.2 ⟨fun b hb => ?_, List.pairwise_cons.2 h⟩
        rcases List.mem_cons.1 hb with rfl | hb
        · exact hc
        · exact Nat.lt_trans hc (h.1 b hb)
      · split
        · exact List.pairwise_cons.2 h
        · refine List.pairwise_cons.2 ⟨fun b hb => ?_, ih h.2⟩
          rcases Marks.mem_insert.1 hb with rfl | hb
          · omega
          · exact h.1 b hb
  · rcases Marks.mem_insert.1 hb with rfl | hb
    · exact ha
    · exact h.2 b hb

/-! ### Addresses -/

theorem State.address_congr {s t : State} (h : t.cfg = s.cfg) (a : Word) : t.address a = s.address a := by
  rw [State.address, h, State.address]

/-- The address a value is, as a number. -/
theorem State.address_toNat (s : State) (a : Word) : (s.address a).toNat = a.toNat % 2 ^ s.cfg.addrBits := by
  have := a.isLt
  have : a.toNat % 2 ^ s.cfg.addrBits ≤ a.toNat := Nat.mod_le _ _
  simp only [State.address, BitVec.toNat_setWidth]
  omega

/-- An address has `ADDR_BITS` bits. -/
theorem State.address_fits (s : State) (a : Word) : (s.address a).toNat < 2 ^ s.cfg.addrBits := by
  rw [State.address_toNat]
  exact Nat.mod_lt _ (Nat.two_pow_pos _)

/-- A value with `ADDR_BITS` bits is its own address. -/
theorem State.address_of_fits {s : State} {a : Word} (h : a.toNat < 2 ^ s.cfg.addrBits) : s.address a = a := by
  apply BitVec.eq_of_toNat_eq
  rw [State.address_toNat, Nat.mod_eq_of_lt h]

@[simp] theorem State.address_address (s : State) (a : Word) : s.address (s.address a) = s.address a :=
  State.address_of_fits (s.address_fits a)

/-- The address of an even value is even. -/
theorem State.address_even (s : State) {a : Word} (h : a.getLsbD 0 = false) : (s.address a).getLsbD 0 = false := by
  simp only [State.address, BitVec.getLsbD_setWidth, h, Bool.and_false]

/-- What is added to an address is added to the value. -/
theorem State.address_add (s : State) (a b : Word) : s.address (s.address a + b) = s.address (a + b) := by
  apply BitVec.eq_of_toNat_eq
  simp only [State.address_toNat, BitVec.toNat_add]
  by_cases h : s.cfg.addrBits ≤ 32
  · have hd : 2 ^ s.cfg.addrBits ∣ 2 ^ 32 := Nat.pow_dvd_pow 2 h
    rw [Nat.mod_mod_of_dvd _ hd, Nat.mod_mod_of_dvd _ hd, Nat.mod_add_mod]
  · have : a.toNat < 2 ^ s.cfg.addrBits :=
      Nat.lt_of_lt_of_le a.isLt (Nat.pow_le_pow_right (by decide) (by omega))
    rw [Nat.mod_eq_of_lt this]

/-! ### The state's bytes -/

theorem State.byteAt_congr {s t : State} (hc : t.cfg = s.cfg) (h : t.mem = s.mem) (a : Word) :
    t.byteAt a = s.byteAt a := by
  simp [State.byteAt, State.address_congr hc, h]

theorem State.wasStored_congr {s t : State} (hc : t.cfg = s.cfg) (h : t.stored = s.stored) (a : Word) :
    t.wasStored a = s.wasStored a := by
  simp [State.wasStored, State.address_congr hc, h]

theorem State.admits_congr {s t : State} (h : t.cfg = s.cfg) (a : Word) : t.admits a = s.admits a := by
  simp [State.admits, State.address_congr h, h]

theorem State.byteAt_putByte (s : State) (a b : Word) (v : Byte) :
    (s.putByte a v).byteAt b = if s.address a = s.address b then v else s.byteAt b := by
  by_cases h : s.address a = s.address b
  · simp [State.byteAt, h]
  · have : (s.address a).toNat ≠ (s.address b).toNat := fun e => h (BitVec.eq_of_toNat_eq e)
    simp [State.byteAt, Memory.read_write_ne _ _ this, h]

theorem State.wasStored_putByte (s : State) (a b : Word) (v : Byte) :
    (s.putByte a v).wasStored b = (decide (s.address a = s.address b) || s.wasStored b) := by
  by_cases h : s.address a = s.address b
  · simp [State.wasStored, Marks.mem_insert, h]
  · have : (s.address b).toNat ≠ (s.address a).toNat := fun e => h (BitVec.eq_of_toNat_eq e.symm)
    simp [State.wasStored, Marks.mem_insert, this, h]

/-- A run of stored bytes leaves every address outside it alone. -/
theorem State.byteAt_putBytes_of_ne (s : State) (a : Word) (l : List Byte) (b : Word)
    (h : ∀ j < l.length, s.address b ≠ s.address (a + BitVec.ofNat 32 j)) :
    (s.putBytes a l).byteAt b = s.byteAt b := by
  induction l generalizing s a with
  | nil => rfl
  | cons v l ih =>
    have h0 : s.address a ≠ s.address b := by
      intro e
      exact h 0 (by simp) (by simp [e])
    rw [State.putBytes, ih, State.byteAt_putByte, if_neg h0]
    intro j hj e
    refine h (j + 1) (by simpa using hj) ?_
    rw [State.putByte_address, State.putByte_address] at e
    rw [e, BitVec.add_assoc]
    congr 2
    apply BitVec.eq_of_toNat_eq
    simp [Nat.add_comm]

theorem State.wasStored_putBytes_of_ne (s : State) (a : Word) (l : List Byte) (b : Word)
    (h : ∀ j < l.length, s.address b ≠ s.address (a + BitVec.ofNat 32 j)) :
    (s.putBytes a l).wasStored b = s.wasStored b := by
  induction l generalizing s a with
  | nil => rfl
  | cons v l ih =>
    have h0 : s.address a ≠ s.address b := by
      intro e
      exact h 0 (by simp) (by simp [e])
    rw [State.putBytes, ih, State.wasStored_putByte, decide_eq_false h0, Bool.false_or]
    intro j hj e
    refine h (j + 1) (by simpa using hj) ?_
    rw [State.putByte_address, State.putByte_address] at e
    rw [e, BitVec.add_assoc]
    congr 2
    apply BitVec.eq_of_toNat_eq
    simp [Nat.add_comm]

/-- Storing bytes keeps the canonical forms, and every stored byte is known. -/
theorem State.putBytes_keeps_memory (s : State) (a : Word) (l : List Byte) (hm : Memory.wf s.mem)
    (hs : Marks.wf s.stored) (hk : ∀ b ∈ s.stored, (Memory.read s.mem b).isSome = true) :
    Memory.wf (s.putBytes a l).mem ∧ Marks.wf (s.putBytes a l).stored ∧
      ∀ b ∈ (s.putBytes a l).stored, (Memory.read (s.putBytes a l).mem b).isSome = true := by
  induction l generalizing s a with
  | nil => exact ⟨hm, hs, hk⟩
  | cons v l ih =>
    refine ih _ _ (Memory.wf_write v hm (BitVec.isLt _)) (Marks.wf_insert hs (BitVec.isLt _)) fun b hb => ?_
    rcases Marks.mem_insert.1 hb with rfl | hb
    · simp
    · rw [State.putByte_mem, Memory.read_write]
      split
      · rfl
      · exact hk b hb

/-- Storing bytes lists addresses of the system only. -/
theorem State.putBytes_keeps_fits (s : State) (a : Word) (l : List Byte)
    (hm : ∀ c ∈ s.mem, c.1 < 2 ^ s.cfg.addrBits) :
    ∀ c ∈ (s.putBytes a l).mem, c.1 < 2 ^ s.cfg.addrBits := by
  induction l generalizing s a with
  | nil => exact hm
  | cons v l ih =>
    refine ih (s.putByte a v) _ fun c hc => ?_
    rcases Memory.mem_write hc with rfl | hc
    · exact s.address_fits a
    · exact hm c hc

end Sys2Proof.Machine
end

