-- ==== Sys2Proof/Laws/Ops.lean ====
section
/-!
SUPPORT. One lemma per shared operation that says everything it can do when it answers a next state, so that a proof
about an instruction rewrites with it and never unfolds the operation.
-/

namespace Sys2Proof.Machine

/-! ### `andThen` -/

@[simp] theorem andThen_next {α β : Type} (a : α) (f : α → Result β) : andThen (.next a) f = f a := rfl

@[simp] theorem andThen_fault {α β : Type} (r : Fault) (f : α → Result β) : andThen (.fault r) f = .fault r := rfl

@[simp] theorem andThen_refused {α β : Type} (r : Refusal) (f : α → Result β) :
    andThen (.refused r) f = .refused r := rfl

theorem next_eq_next {α : Type} {a b : α} : (.next a : Result α) = .next b ↔ b = a := by
  rw [Host.Outcome.next.injEq, eq_comm]

theorem andThen_eq_next {α β : Type} {o : Result α} {f : α → Result β} {b : β} :
    andThen o f = .next b ↔ ∃ a, o = .next a ∧ f a = .next b := by
  cases o <;> simp

/-! ### STATUS -/

@[simp] theorem Status.withCwp_ie (st : Status) (w : BitVec 5) : (st.withCwp w).ie = st.ie := rfl
@[simp] theorem Status.withCwp_ipri (st : Status) (w : BitVec 5) : (st.withCwp w).ipri = st.ipri := rfl
@[simp] theorem Status.withCwp_cwp (st : Status) (w : BitVec 5) : (st.withCwp w).cwp = w := rfl
@[simp] theorem Status.withCwp_n (st : Status) (w : BitVec 5) : (st.withCwp w).n = st.n := rfl
@[simp] theorem Status.withCwp_v (st : Status) (w : BitVec 5) : (st.withCwp w).v = st.v := rfl
@[simp] theorem Status.withCwp_z (st : Status) (w : BitVec 5) : (st.withCwp w).z = st.z := rfl
@[simp] theorem Status.withCwp_c (st : Status) (w : BitVec 5) : (st.withCwp w).c = st.c := rfl

/-- A bit of a field at its place. -/
theorem getLsbD_placeField {n : Nat} (x : BitVec n) (pos j : Nat) :
    (placeField x pos).getLsbD j = (decide (j < 32) && decide (pos ≤ j) && x.getLsbD (j - pos)) := by
  rw [placeField, BitVec.getLsbD_shiftLeft, BitVec.getLsbD_setWidth]
  by_cases h1 : j < 32
  · have : j - pos < 32 := by omega
    by_cases h2 : pos ≤ j <;> simp [h1, h2, this]
  · simp [h1]

/-- A bit of the packed STATUS: that of the one field it may belong to. -/
theorem Status.pack_bit (l : StatusLayout) (st : Status) (j : Nat) :
    (st.pack l).getLsbD j = (decide (j < 32) &&
      (decide (j = l.ie) && st.ie || decide (l.ipri ≤ j) && st.ipri.getLsbD (j - l.ipri) ||
        decide (l.cwp ≤ j) && st.cwp.getLsbD (j - l.cwp) || decide (j = l.n) && st.n || decide (j = l.v) && st.v ||
        decide (j = l.z) && st.z || decide (j = l.c) && st.c)) := by
  have one : ∀ (b : Bool) (p : Nat),
      (placeField (BitVec.ofBool b) p).getLsbD j = (decide (j < 32) && (decide (j = p) && b)) := by
    intro b p
    rw [getLsbD_placeField, BitVec.getLsbD_ofBool]
    by_cases h : j = p
    · subst h; simp
    · by_cases h2 : p ≤ j
      · have : j - p ≠ 0 := by omega
        simp [h, this]
      · simp [h, h2]
  simp only [Status.pack, BitVec.getLsbD_or, one, getLsbD_placeField, Bool.and_or_distrib_left, Bool.and_assoc]

/-- A field has no bit outside its place. -/
theorem field_outside {n : Nat} (x : BitVec n) {pos j : Nat} (h : pos ≤ j → pos + n ≤ j) :
    (decide (pos ≤ j) && x.getLsbD (j - pos)) = false := by
  by_cases hp : pos ≤ j
  · rw [BitVec.getLsbD_of_ge x (j - pos) (by have := h hp; omega), Bool.and_false]
  · simp [hp]

/-- The packed STATUS is zero outside the fields. -/
theorem Status.pack_outside (l : StatusLayout) (st : Status) {j : Nat} (h : l.covers j = false) :
    (st.pack l).getLsbD j = false := by
  simp only [StatusLayout.covers, StatusLayout.fields, List.any_cons, List.any_nil, Bool.or_false, Bool.or_eq_false_iff,
    Bool.and_eq_false_iff, decide_eq_false_iff_not] at h
  rw [Status.pack_bit, field_outside st.ipri (by omega), field_outside st.cwp (by omega)]
  simp [show j ≠ l.ie by omega, show j ≠ l.n by omega, show j ≠ l.v by omega, show j ≠ l.z by omega,
    show j ≠ l.c by omega]

/-- Two fields that are apart: their bits are different bits. -/
theorem ne_of_apart {a b m n i j : Nat} (h : a + m ≤ b ∨ b + n ≤ a) (hi : i < m) (hj : j < n) :
    a + i ≠ b + j := by omega

/-- Two fields that are apart: a bit of the first is outside the second. -/
theorem outside_of_apart {a b m n i : Nat} (h : a + m ≤ b ∨ b + n ≤ a) (hi : i < m) :
    b ≤ a + i → b + n ≤ a + i := by omega

/-- In a layout whose fields do not overlap, every STATUS is what its register unpacks to. -/
theorem Status.unpack_pack {l : StatusLayout} (hl : l.wellFormed = true) (st : Status) :
    Status.unpack l (st.pack l) = st := by
  obtain ⟨hb, hp⟩ := Bool.and_eq_true_iff.1 hl
  have hp := of_decide_eq_true hp
  simp only [StatusLayout.fields, List.all_cons, List.all_nil, Bool.and_eq_true, decide_eq_true_eq, and_true,
    List.pairwise_cons, List.mem_cons, List.not_mem_nil, or_false, forall_eq_or_imp, forall_eq, List.Pairwise.nil,
    false_imp_iff, forall_const] at hb hp
  obtain ⟨b1, b2, b3, b4, b5, b6, b7⟩ := hb
  obtain ⟨⟨p1, p2, p3, p4, p5, p6⟩, ⟨q1, q2, q3, q4, q5⟩, ⟨r1, r2, r3, r4⟩, ⟨u1, u2, u3⟩,
    ⟨w1, w2⟩, x1⟩ := hp
  have ne1 : ∀ {a b : Nat}, a + 1 ≤ b ∨ b + 1 ≤ a → a ≠ b := fun h => ne_of_apart h Nat.one_pos Nat.one_pos
  have ipri : (Status.unpack l (st.pack l)).ipri = st.ipri := by
    apply BitVec.eq_of_getLsbD_eq
    intro i hi
    have ne : ∀ {b : Nat}, l.ipri + 6 ≤ b ∨ b + 1 ≤ l.ipri → l.ipri + i ≠ b := fun h =>
      ne_of_apart h hi Nat.one_pos
    simp only [Status.unpack, BitVec.getLsbD_extractLsb', hi, decide_true, Bool.true_and]
    rw [Status.pack_bit, field_outside st.cwp (outside_of_apart q1 hi)]
    simp [show l.ipri + i < 32 from Nat.lt_of_lt_of_le (Nat.add_lt_add_left hi _) b2, ne p1.symm, ne q2, ne q3, ne q4,
      ne q5]
  have cwp : (Status.unpack l (st.pack l)).cwp = st.cwp := by
    apply BitVec.eq_of_getLsbD_eq
    intro i hi
    have ne : ∀ {b : Nat}, l.cwp + 5 ≤ b ∨ b + 1 ≤ l.cwp → l.cwp + i ≠ b := fun h =>
      ne_of_apart h hi Nat.one_pos
    simp only [Status.unpack, BitVec.getLsbD_extractLsb', hi, decide_true, Bool.true_and]
    rw [Status.pack_bit, field_outside st.ipri (outside_of_apart q1.symm hi)]
    simp [show l.cwp + i < 32 from Nat.lt_of_lt_of_le (Nat.add_lt_add_left hi _) b3, ne p2.symm, ne r1, ne r2, ne r3,
      ne r4]
  have ie : (st.pack l).getLsbD l.ie = st.ie := by
    rw [Status.pack_bit, field_outside st.ipri (j := l.ie) (outside_of_apart (i := 0) p1 Nat.one_pos),
      field_outside st.cwp (j := l.ie) (outside_of_apart (i := 0) p2 Nat.one_pos)]
    simp [show l.ie < 32 from b1, ne1 p3, ne1 p4, ne1 p5, ne1 p6]
  have n : (st.pack l).getLsbD l.n = st.n := by
    rw [Status.pack_bit, field_outside st.ipri (j := l.n) (outside_of_apart (i := 0) q2.symm Nat.one_pos),
      field_outside st.cwp (j := l.n) (outside_of_apart (i := 0) r1.symm Nat.one_pos)]
    simp [show l.n < 32 from b4, ne1 p3.symm, ne1 u1, ne1 u2, ne1 u3]
  have v : (st.pack l).getLsbD l.v = st.v := by
    rw [Status.pack_bit, field_outside st.ipri (j := l.v) (outside_of_apart (i := 0) q3.symm Nat.one_pos),
      field_outside st.cwp (j := l.v) (outside_of_apart (i := 0) r2.symm Nat.one_pos)]
    simp [show l.v < 32 from b5, ne1 p4.symm, ne1 u1.symm, ne1 w1, ne1 w2]
  have z : (st.pack l).getLsbD l.z = st.z := by
    rw [Status.pack_bit, field_outside st.ipri (j := l.z) (outside_of_apart (i := 0) q4.symm Nat.one_pos),
      field_outside st.cwp (j := l.z) (outside_of_apart (i := 0) r3.symm Nat.one_pos)]
    simp [show l.z < 32 from b6, ne1 p5.symm, ne1 u2.symm, ne1 w1.symm, ne1 x1]
  have c : (st.pack l).getLsbD l.c = st.c := by
    rw [Status.pack_bit, field_outside st.ipri (j := l.c) (outside_of_apart (i := 0) q5.symm Nat.one_pos),
      field_outside st.cwp (j := l.c) (outside_of_apart (i := 0) r4.symm Nat.one_pos)]
    simp [show l.c < 32 from b7, ne1 p6.symm, ne1 u3.symm, ne1 w2.symm, ne1 x1.symm]
  obtain ⟨ie', ipri', cwp', n', v', z', c'⟩ := st
  rw [Status.mk.injEq]
  exact ⟨ie, ipri, cwp, n, v, z, c⟩

variable {s t : State}

/-! ### Registers: what decides which cell a name is -/

theorem State.regIndex_congr (h : t.status.cwp = s.status.cwp) (i : RegNum) : t.regIndex i = s.regIndex i := by
  simp [State.regIndex, h]

theorem State.inFile_congr (h : t.status.cwp = s.status.cwp) (hc : t.cfg = s.cfg) (i : RegNum) :
    t.inFile i = s.inFile i := by
  simp [State.inFile, State.regIndex_congr h, hc]

theorem State.reg_congr (h : t.status.cwp = s.status.cwp) (hr : t.regs = s.regs) (i : RegNum) :
    t.reg i = s.reg i := by
  simp [State.reg, State.cell, State.regIndex_congr h, hr]

@[simp] theorem State.setReg_regIndex (i j : RegNum) (v : Word) : (s.setReg i v).regIndex j = s.regIndex j := rfl
@[simp] theorem State.setReg_inFile (i j : RegNum) (v : Word) : (s.setReg i v).inFile j = s.inFile j := rfl
@[simp] theorem State.withFlags_regIndex (f : Flags) (j : RegNum) :
    (s.setStatus (s.status.withFlags f)).regIndex j = s.regIndex j := rfl
@[simp] theorem State.withFlags_inFile (f : Flags) (j : RegNum) :
    (s.setStatus (s.status.withFlags f)).inFile j = s.inFile j := rfl
@[simp] theorem State.withNZ_regIndex (r : Word) (j : RegNum) :
    (s.setStatus (s.status.withNZ r)).regIndex j = s.regIndex j := rfl
@[simp] theorem State.withNZ_inFile (r : Word) (j : RegNum) :
    (s.setStatus (s.status.withNZ r)).inFile j = s.inFile j := rfl
@[simp] theorem State.withC_regIndex (c : Bool) (j : RegNum) :
    (s.setStatus (s.status.withC c)).regIndex j = s.regIndex j := rfl
@[simp] theorem State.withC_inFile (c : Bool) (j : RegNum) :
    (s.setStatus (s.status.withC c)).inFile j = s.inFile j := rfl

theorem State.cell_congr (h : t.regs = s.regs) (n : Nat) : t.cell n = s.cell n := by simp [State.cell, h]

/-- A write of a register changes its cell and no other. -/
theorem State.cell_setReg {i : RegNum} (hi : s.inFile i = true) (hl : s.regs.length = s.cfg.nregs) (v : Word)
    (n : Nat) : (s.setReg i v).cell n = if n = s.regIndex i then v else s.cell n := by
  simp only [State.inFile, decide_eq_true_eq] at hi
  simp only [State.cell, State.setReg_regs, List.getD_eq_getElem?_getD, List.getElem?_set]
  by_cases h : s.regIndex i = n
  · subst h
    simp [hl, hi]
  · simp [h, Ne.symm h]

theorem State.cell_setReg_self {i : RegNum} (hi : s.inFile i = true) (hl : s.regs.length = s.cfg.nregs) (v : Word) :
    (s.setReg i v).cell (s.regIndex i) = v := by simp [State.cell_setReg hi hl]

theorem State.cell_setReg_ne {i : RegNum} {n : Nat} (h : n ≠ s.regIndex i) (v : Word) :
    (s.setReg i v).cell n = s.cell n := by
  simp only [State.cell, State.setReg_regs, List.getD_eq_getElem?_getD, List.getElem?_set]
  simp [Ne.symm h]

theorem State.reg_setReg_self {i : RegNum} (hi : s.inFile i = true) (hl : s.regs.length = s.cfg.nregs) (v : Word) :
    (s.setReg i v).reg i = v := State.cell_setReg_self hi hl v

/-! ### Registers: reading and writing -/

theorem State.readReg_eq_next {i : RegNum} {v : Word} :
    s.readReg i = .next v ↔ s.inFile i = true ∧ v = s.reg i := by
  simp only [State.readReg]
  split <;> simp_all [next_eq_next, -Host.Outcome.next.injEq]

theorem State.readReg_of_inFile {i : RegNum} (h : s.inFile i = true) : s.readReg i = .next (s.reg i) := by
  simp [State.readReg, h]

theorem State.writeReg_eq_next {i : RegNum} {v : Word} :
    s.writeReg i v = .next t ↔ s.inFile i = true ∧ t = s.setReg i v := by
  simp only [State.writeReg]
  split <;> simp_all [next_eq_next, -Host.Outcome.next.injEq]

theorem State.writeReg_of_inFile {i : RegNum} (h : s.inFile i = true) (v : Word) :
    s.writeReg i v = .next (s.setReg i v) := by simp [State.writeReg, h]

theorem State.assign_eq_next {a : RegNum} {v : Word} :
    s.assign a v = .next t ↔ s.inFile a = true ∧ t = (s.setReg a v).advance := by
  simp only [State.assign, andThen_eq_next, State.writeReg_eq_next, Host.Outcome.next.injEq]
  constructor
  · rintro ⟨u, ⟨h, rfl⟩, rfl⟩
    exact ⟨h, rfl⟩
  · rintro ⟨h, rfl⟩
    exact ⟨_, ⟨h, rfl⟩, rfl⟩

theorem State.mapReg_eq_next {a : RegNum} {f : Word → Word} :
    s.mapReg a f = .next t ↔ s.inFile a = true ∧ t = (s.setReg a (f (s.reg a))).advance := by
  simp only [State.mapReg, andThen_eq_next, State.readReg_eq_next, State.assign_eq_next]
  constructor
  · rintro ⟨x, ⟨h, rfl⟩, -, rfl⟩
    exact ⟨h, rfl⟩
  · rintro ⟨h, rfl⟩
    exact ⟨_, ⟨h, rfl⟩, h, rfl⟩

theorem State.mapRegs_eq_next {a b : RegNum} {f : Word → Word → Word} :
    s.mapRegs a b f = .next t ↔
      s.inFile a = true ∧ s.inFile b = true ∧ t = (s.setReg a (f (s.reg a) (s.reg b))).advance := by
  simp only [State.mapRegs, andThen_eq_next, State.readReg_eq_next, State.assign_eq_next]
  constructor
  · rintro ⟨x, ⟨h, rfl⟩, y, ⟨h', rfl⟩, -, rfl⟩
    exact ⟨h, h', rfl⟩
  · rintro ⟨h, h', rfl⟩
    exact ⟨_, ⟨h, rfl⟩, _, ⟨h', rfl⟩, h, rfl⟩

theorem State.mapZero_eq_next {a : RegNum} {f : Word → Word → Word} :
    s.mapZero a f = .next t ↔
      s.inFile zeroReg = true ∧ s.inFile a = true ∧
        t = (s.setReg zeroReg (f (s.reg zeroReg) (s.reg a))).advance := by
  simp only [State.mapZero, andThen_eq_next, State.readReg_eq_next, State.assign_eq_next]
  constructor
  · rintro ⟨x, ⟨h, rfl⟩, y, ⟨h', rfl⟩, -, rfl⟩
    exact ⟨h, h', rfl⟩
  · rintro ⟨h, h', rfl⟩
    exact ⟨_, ⟨h, rfl⟩, _, ⟨h', rfl⟩, h, rfl⟩

theorem State.addTo_eq_next {a : RegNum} {y : Word} :
    s.addTo a y = .next t ↔ s.inFile a = true ∧
      t = ((s.setStatus (s.status.withFlags (addFlags (s.reg a) y))).setReg a (s.reg a + y)).advance := by
  simp only [State.addTo, andThen_eq_next, State.readReg_eq_next, State.assign_eq_next, State.withFlags_inFile]
  constructor
  · rintro ⟨x, ⟨h, rfl⟩, -, rfl⟩
    exact ⟨h, rfl⟩
  · rintro ⟨h, rfl⟩
    exact ⟨_, ⟨h, rfl⟩, h, rfl⟩

theorem State.subFrom_eq_next {a : RegNum} {y : Word} :
    s.subFrom a y = .next t ↔ s.inFile a = true ∧
      t = ((s.setStatus (s.status.withFlags (subFlags (s.reg a) y))).setReg a (s.reg a - y)).advance := by
  simp only [State.subFrom, andThen_eq_next, State.readReg_eq_next, State.assign_eq_next, State.withFlags_inFile]
  constructor
  · rintro ⟨x, ⟨h, rfl⟩, -, rfl⟩
    exact ⟨h, rfl⟩
  · rintro ⟨h, rfl⟩
    exact ⟨_, ⟨h, rfl⟩, h, rfl⟩

theorem State.compare_eq_next {a : RegNum} {y : Word} :
    s.compare a y = .next t ↔ s.inFile a = true ∧
      t = (s.setStatus (s.status.withFlags (subFlags (s.reg a) y))).advance := by
  simp only [State.compare, andThen_eq_next, State.readReg_eq_next, Host.Outcome.next.injEq]
  constructor
  · rintro ⟨x, ⟨h, rfl⟩, rfl⟩
    exact ⟨h, rfl⟩
  · rintro ⟨h, rfl⟩
    exact ⟨_, ⟨h, rfl⟩, rfl⟩

/-- The second operand of AND, ANDN, OR, XOR: a register that must be in the file, or the 16-bit immediate. -/
theorem State.logicOperand_eq_next {o : LogicOperand} {v : Word} :
    s.logicOperand o = .next v ↔
      (∃ b, o = .reg b ∧ s.inFile b = true ∧ v = s.reg b) ∨ ∃ i, o = .imm i ∧ v = s.imm16 i := by
  cases o <;> simp [State.logicOperand, State.readReg_eq_next, next_eq_next, -Host.Outcome.next.injEq]

theorem State.logic_eq_next {a : RegNum} {o : LogicOperand} {f : Word → Word → Word} :
    s.logic a o f = .next t ↔ s.inFile a = true ∧ ∃ y, s.logicOperand o = .next y ∧
      t = ((s.setStatus (s.status.withNZ (f (s.reg a) y))).setReg a (f (s.reg a) y)).advance := by
  simp only [State.logic, andThen_eq_next, State.readReg_eq_next, State.assign_eq_next, State.withNZ_inFile]
  constructor
  · rintro ⟨x, ⟨h, rfl⟩, y, hy, -, rfl⟩
    exact ⟨h, y, hy, rfl⟩
  · rintro ⟨h, y, hy, rfl⟩
    exact ⟨_, ⟨h, rfl⟩, y, hy, h, rfl⟩

theorem State.custom_eq_next {logic : CustomLogic} {op : Word → Word → Word} {a b : RegNum} :
    s.custom logic op a b = .next t ↔ logic = .pure ∧ s.inFile a = true ∧ s.inFile b = true ∧
      t = (s.setReg a (op (s.reg a) (s.reg b))).advance := by
  cases logic <;> simp [State.custom, State.mapRegs_eq_next]

/-! ### Memory -/

theorem State.admitsAll_congr (h : t.cfg = s.cfg) (a : Word) (n : Nat) : t.admitsAll a n = s.admitsAll a n := by
  induction n generalizing a with
  | zero => rfl
  | succ n ih => simp [State.admitsAll, State.admits_congr h, ih]

theorem State.wordAt_congr (hc : t.cfg = s.cfg) (h : t.mem = s.mem) (a : Word) : t.wordAt a = s.wordAt a := by
  simp [State.wordAt, State.byteAt_congr hc h]

theorem State.load32_eq_next {a v : Word} :
    s.load32 a = .next v ↔ s.admitsAll a 4 = true ∧ v = s.wordAt a := by
  simp only [State.load32]
  split <;> simp_all [next_eq_next, -Host.Outcome.next.injEq]

theorem State.store_eq_next {a : Word} {l : List Byte} :
    s.store a l = .next t ↔ s.admitsAll a l.length = true ∧ t = s.putBytes a l := by
  simp only [State.store]
  split <;> simp_all [next_eq_next, -Host.Outcome.next.injEq]

theorem State.storeByteLane_eq_next {w : Word} {n : BitVec 2} :
    s.storeByteLane w n = .next t ↔ s.inFile zeroReg = true ∧ s.admitsAll (byteLaneAddr w n) 1 = true ∧
      t = (s.putBytes (byteLaneAddr w n) [byteLane (s.reg zeroReg) n]).advance := by
  simp only [State.storeByteLane, andThen_eq_next, State.readReg_eq_next, State.store_eq_next, Host.Outcome.next.injEq]
  constructor
  · rintro ⟨x, ⟨h, rfl⟩, u, ⟨h', rfl⟩, rfl⟩
    exact ⟨h, h', rfl⟩
  · rintro ⟨h, h', rfl⟩
    exact ⟨_, ⟨h, rfl⟩, _, ⟨h', rfl⟩, rfl⟩

theorem State.storeHalfLane_eq_next {w : Word} {n : BitVec 1} :
    s.storeHalfLane w n = .next t ↔ s.inFile zeroReg = true ∧ s.admitsAll (halfLaneAddr w n) 2 = true ∧
      t = (s.putBytes (halfLaneAddr w n) (halfBytes (halfLane (s.reg zeroReg) n))).advance := by
  simp only [State.storeHalfLane, andThen_eq_next, State.readReg_eq_next, State.store_eq_next, Host.Outcome.next.injEq]
  constructor
  · rintro ⟨x, ⟨h, rfl⟩, u, ⟨h', rfl⟩, rfl⟩
    exact ⟨h, h', rfl⟩
  · rintro ⟨h, h', rfl⟩
    exact ⟨_, ⟨h, rfl⟩, _, ⟨h', rfl⟩, rfl⟩

theorem State.loadTo_eq_next {a : RegNum} {w : Word} :
    s.loadTo a w = .next t ↔
      s.admitsAll w 4 = true ∧ s.inFile a = true ∧ t = (s.setReg a (s.wordAt w)).advance := by
  simp only [State.loadTo, andThen_eq_next, State.load32_eq_next, State.assign_eq_next]
  constructor
  · rintro ⟨x, ⟨h, rfl⟩, h', rfl⟩
    exact ⟨h, h', rfl⟩
  · rintro ⟨h, h', rfl⟩
    exact ⟨_, ⟨h, rfl⟩, h', rfl⟩

theorem State.storeFrom_eq_next {a : RegNum} {w : Word} :
    s.storeFrom a w = .next t ↔
      s.inFile a = true ∧ s.admitsAll w 4 = true ∧ t = (s.putBytes w (wordBytes (s.reg a))).advance := by
  simp only [State.storeFrom, andThen_eq_next, State.readReg_eq_next, State.store_eq_next, Host.Outcome.next.injEq]
  constructor
  · rintro ⟨x, ⟨h, rfl⟩, u, ⟨h', rfl⟩, rfl⟩
    exact ⟨h, h', rfl⟩
  · rintro ⟨h, h', rfl⟩
    exact ⟨_, ⟨h, rfl⟩, _, ⟨h', rfl⟩, rfl⟩

/-! ### Taking a trap and returning -/

theorem State.enterTrapAt_eq_next {n : BitVec 6} {ret : Word} {w : BitVec 5} :
    s.enterTrapAt n ret w = .next t ↔
      (s.trapped n w).inFile linkReg = true ∧ s.admitsAll (s.vectorAddr n) 4 = true ∧
        t = ((s.trapped n w).setReg linkReg (s.address ret >>> 1)).atHandler (s.wordAt (s.vectorAddr n)) := by
  simp only [State.enterTrapAt, andThen_eq_next, State.writeReg_eq_next, State.load32_eq_next,
    Host.Outcome.next.injEq]
  constructor
  · rintro ⟨x, ⟨h, rfl⟩, v, ⟨h', rfl⟩, rfl⟩
    exact ⟨h, (State.admitsAll_congr rfl _ _).symm.trans h', rfl⟩
  · rintro ⟨h, h', rfl⟩
    exact ⟨_, ⟨h, rfl⟩, _, ⟨(State.admitsAll_congr rfl _ _).trans h', rfl⟩, rfl⟩

theorem State.raiseTrap_eq_next {n : BitVec 6} {ret : Word} :
    s.raiseTrap n ret = .next t ↔
      s.status.cwp ≠ 0#5 ∧ s.enterTrapAt n ret (s.status.cwp - 1#5) = .next t := by
  simp only [State.raiseTrap]
  split <;> simp_all

theorem State.returnFromTrap_eq_next {a : RegNum} :
    s.returnFromTrap a = .next t ↔ s.inFile a = true ∧ s.badWindow s.istatus.cwp = false ∧
      t = (s.setStatus s.istatus).retire (s.reg a * 2#32) none := by
  simp only [State.returnFromTrap, andThen_eq_next, State.readReg_eq_next]
  constructor
  · rintro ⟨x, ⟨h, rfl⟩, h'⟩
    split at h' <;> simp_all
  · rintro ⟨h, h', rfl⟩
    exact ⟨_, ⟨h, rfl⟩, by simp [h']⟩

/-! ### Fetching, skipping, stepping -/

theorem State.fetch16_eq_next {p : Word} {w : Half} :
    s.fetch16 p = .next w ↔ p.getLsbD 0 = false ∧ s.admitsAll p 2 = true ∧
      s.wasStored p = false ∧ s.wasStored (p + 1#32) = false ∧
        w = halfOfBytes (s.byteAt p) (s.byteAt (p + 1#32)) := by
  simp only [State.fetch16]
  split
  · simp_all
  · split
    · split
      · rename_i h
        simp only [reduceCtorEq, false_iff]
        rintro ⟨-, -, h1, h2, -⟩
        simp [h1, h2] at h
      · simp_all [next_eq_next, -Host.Outcome.next.injEq]
    · simp_all

theorem State.fetch16_congr (hc : t.cfg = s.cfg) (hm : t.mem = s.mem) (hs : t.stored = s.stored) (p : Word) :
    t.fetch16 p = s.fetch16 p := by
  simp [State.fetch16, State.admitsAll_congr hc, State.wasStored_congr hc hs, State.byteAt_congr hc hm]

/-- A skip ends behind a run of PFX and one more word. -/
theorem State.skipFrom_eq_next {fuel : Nat} {p q : Word} :
    s.skipFrom fuel p = .next q ↔ ∃ n < fuel, q = p + BitVec.ofNat 32 (2 * n) + 2#32 ∧
      (∀ j < n, ∃ w, s.fetch16 (p + BitVec.ofNat 32 (2 * j)) = .next w ∧ isPfxWord w = true) ∧
      ∃ w, s.fetch16 (p + BitVec.ofNat 32 (2 * n)) = .next w ∧ isPfxWord w = false := by
  induction fuel generalizing p with
  | zero => simp [State.skipFrom]
  | succ fuel ih =>
    have hadd : ∀ j : Nat, p + 2#32 + BitVec.ofNat 32 (2 * j) = p + BitVec.ofNat 32 (2 * (j + 1)) := by
      intro j
      rw [BitVec.add_assoc]
      congr 1
      apply BitVec.eq_of_toNat_eq
      simp [Nat.mul_add, Nat.add_comm]
    simp only [State.skipFrom, andThen_eq_next]
    constructor
    · rintro ⟨w, hw, h⟩
      split at h
      · rename_i hp
        obtain ⟨n, hn, rfl, hj, w', hw', hp'⟩ := ih.1 h
        refine ⟨n + 1, by omega, by rw [hadd], fun j hjn => ?_, w', by rw [← hadd]; exact hw', hp'⟩
        cases j with
        | zero => exact ⟨w, by simpa using hw, hp⟩
        | succ j =>
          rw [← hadd]
          exact hj j (by omega)
      · rename_i hp
        simp only [Host.Outcome.next.injEq] at h
        exact ⟨0, by omega, by simp [← h], by simp, w, by simpa using hw, by simpa using hp⟩
    · rintro ⟨n, hn, rfl, hj, w, hw, hp⟩
      cases n with
      | zero => exact ⟨w, by simpa using hw, by simp [hp]⟩
      | succ n =>
        obtain ⟨w0, hw0, hp0⟩ := hj 0 (by omega)
        refine ⟨w0, by simpa using hw0, ?_⟩
        rw [if_pos hp0]
        refine ih.2 ⟨n, by omega, by rw [hadd], fun j hjn => ?_, w, by rw [hadd]; exact hw, hp⟩
        rw [hadd]
        exact hj (j + 1) (by omega)

theorem State.skipIf_eq_next {taken : Bool} :
    s.skipIf taken = .next t ↔
      (taken = false ∧ t = s.advance) ∨
        (taken = true ∧ ∃ p, s.skipFrom skipFuel (s.pc + 2#32) = .next p ∧ t = s.retire p none) := by
  cases taken <;> simp [State.skipIf, andThen_eq_next, next_eq_next, -Host.Outcome.next.injEq]

theorem State.fetchInstr_eq_next {i : Instr} :
    s.fetchInstr = .next i ↔ ∃ w, s.fetch16 s.pc = .next w ∧ decode w s.pfx = .ok i := by
  simp only [State.fetchInstr, andThen_eq_next]
  refine exists_congr fun w => and_congr_right fun _ => ?_
  cases decode w s.pfx <;> simp

/-- Everything a step can do: enter an accepted request's trap, or run the instruction at the pc. -/
theorem step_eq_next :
    step s = .next t ↔
      (∃ n, s.accepted = some n ∧ s.raiseTrap n s.pc = .next t) ∨
        (s.accepted = none ∧ ∃ i, s.fetchInstr = .next i ∧ s.placeFault i = none ∧ exec i s = .next t) := by
  simp only [step]
  cases h : s.accepted with
  | some n => simp
  | none =>
    simp only [andThen_eq_next, reduceCtorEq, false_and, exists_false, true_and, false_or]
    refine exists_congr fun i => and_congr_right fun _ => ?_
    cases s.placeFault i <;> simp

theorem State.accepted_eq_some {n : BitVec 6} :
    s.accepted = some n ↔ s.request = some n ∧ s.delay = none ∧ s.pfx = false ∧ s.wrctlHazard = false ∧
      s.status.ie = true ∧ n.toNat < s.status.ipri.toNat := by
  simp only [State.accepted]
  cases s.request with
  | none => simp
  | some m =>
    simp only [Option.some.injEq]
    constructor
    · intro h
      split at h
      · simp_all
      · simp at h
    · rintro ⟨rfl, h⟩
      simp_all

theorem State.placeFault_eq_none {i : Instr} :
    s.placeFault i = none ↔
      (s.delay = none ∨ slotForbidden i = false) ∧ (s.wrctlHazard = false ∨ i = nop) := by
  simp only [State.placeFault]
  split
  · rename_i h
    cases hd : s.delay <;> simp_all
  · rename_i h
    split <;> cases hd : s.delay <;> cases hw : s.wrctlHazard <;> simp_all

end Sys2Proof.Machine
end

