-- ==== Sys2Proof/Laws/Values.lean ====
section
/-!
SUPPORT. What the values of the operand forms are, as numbers: one lemma per form.
-/

namespace Sys2Proof.Machine

/-- All of a run of bytes is admitted when each is. -/
theorem State.admitsAll_iff (s : State) (a : Word) (n : Nat) :
    s.admitsAll a n = true ↔ ∀ j < n, s.admits (a + BitVec.ofNat 32 j) = true := by
  induction n generalizing a with
  | zero => simp [State.admitsAll]
  | succ n ih =>
    simp only [State.admitsAll, Bool.and_eq_true, ih]
    constructor
    · rintro ⟨h0, h⟩ j hj
      cases j with
      | zero => simpa using h0
      | succ j =>
        have := h j (by omega)
        rwa [BitVec.add_assoc, show (1#32 + BitVec.ofNat 32 j : Word) = BitVec.ofNat 32 (j+1) by
          apply BitVec.eq_of_toNat_eq; simp [Nat.add_comm]] at this
    · intro h
      refine ⟨by simpa using h 0 (by omega), fun j hj => ?_⟩
      rw [BitVec.add_assoc, show (1#32 + BitVec.ofNat 32 j : Word) = BitVec.ofNat 32 (j+1) by
          apply BitVec.eq_of_toNat_eq; simp [Nat.add_comm]]
      exact h _ (by omega)

/-- The 16-bit immediate as a number. -/
theorem State.imm16_toNat (s : State) (i : BitVec 5) : (s.imm16 i).toNat = s.k.toNat * 32 + i.toNat := by
  have := s.k.isLt
  have := i.isLt
  simp only [State.imm16, BitVec.toNat_setWidth, BitVec.toNat_append]
  rw [← Nat.shiftLeft_add_eq_or_of_lt i.isLt, Nat.shiftLeft_eq]
  omega

/-- Truncation clears the two lowest bits. -/
theorem align32_eq_append (x : Word) : align32 x = x.extractLsb' 2 30 ++ 0#2 := by
  apply BitVec.eq_of_getLsbD_eq
  intro i hi
  obtain ⟨j, rfl⟩ : ∃ j : Fin 32, i = j.val := ⟨⟨i, hi⟩, rfl⟩
  simp only [align32, BitVec.getLsbD_and, BitVec.getLsbD_append, BitVec.getLsbD_extractLsb']
  fin_cases j <;> simp

/-- Truncation rounds down to a multiple of four. -/
theorem align32_toNat (x : Word) : (align32 x).toNat = x.toNat / 4 * 4 := by
  rw [align32_eq_append, BitVec.toNat_append, ← Nat.shiftLeft_add_eq_or_of_lt (BitVec.isLt _), Nat.shiftLeft_eq]
  simp [Nat.shiftRight_eq_div_pow]
  omega

/-- The offset in K is four times the signed number in it. -/
theorem State.offsetK_eq (s : State) : s.offsetK = BitVec.ofInt 32 (s.k.toInt * 4) := by
  rw [BitVec.ofInt_mul]
  rfl

/-- The offset in K and IMM5 is four times the signed number in them. -/
theorem State.offsetK5_eq (s : State) (i : BitVec 5) : s.offsetK5 i = BitVec.ofInt 32 ((s.k ++ i).toInt * 4) := by
  rw [BitVec.ofInt_mul]
  rfl

/-- The target of BR and BSR from the signed number in the instruction. -/
theorem State.branchTarget_eq (s : State) (i : BitVec 11) :
    s.branchTarget i = s.pc + BitVec.ofInt 32 ((i.toInt + 1) * 2) := by
  rw [BitVec.ofInt_mul, BitVec.ofInt_add]
  rfl

/-- The shift count a register holds. -/
theorem shiftCount_eq (y : Word) : shiftCount y = y.toNat % 32 := by simp [shiftCount]

/-- The window below one that is not window 0. -/
theorem cwp_pred {w : BitVec 5} (h : w ≠ 0#5) : (w - 1#5).toNat = w.toNat - 1 ∧ 1 ≤ w.toNat := by
  have : w.toNat ≠ 0 := fun e => h (BitVec.eq_of_toNat_eq e)
  have := w.isLt
  rw [BitVec.toNat_sub]; simp; omega

/-- The window above one of a file of at most 31. -/
theorem cwp_succ {w : BitVec 5} {n : Nat} (h : w.toNat < n) (hn : n ≤ 31) : (w + 1#5).toNat = w.toNat + 1 := by
  rw [BitVec.toNat_add]
  simp
  omega

/-- The register the p-field names, by cases. -/
theorem State.pReg_eq (s : State) (p : BitVec 2) :
    s.pReg p = if p = 0#2 then s.cfg.preg0 else if p = 1#2 then s.cfg.preg1 else if p = 2#2 then s.cfg.preg2
      else s.cfg.preg3 := by
  obtain ⟨j, rfl⟩ : ∃ j : Fin 4, p = BitVec.ofFin j := ⟨p.toFin, rfl⟩
  fin_cases j <;> rfl

end Sys2Proof.Machine
end

