-- ==== Sys2Proof/Laws/Claims.lean ====
section
/-!
SUPPORT. From the shared operations to the words of the statements: when an instruction whose meaning is one shared
operation assigns, loads, stores, skips, or is at its handler.
-/

namespace Sys2Proof.Claims

open Sys2Proof.Machine

/-- With CWP legal every visible register is there. -/
theorem hasReg_of_inWindow {s : State} (h : InWindow s) (i : RegNum) : HasReg s i := by
  refine ⟨?_, h.2⟩
  have := h.1; have := i.isLt
  unfold State.inFile
  rw [decide_eq_true_eq]
  unfold State.regIndex Config.nregs
  split <;> omega

/-- A forbidden instruction is stopped in a slot. -/
theorem notInSlot {i : Instr} {s : State} (h : slotForbidden i = true) : NotInSlot i s := by
  intro hd
  unfold State.placeFault
  rw [if_pos]
  rw [Bool.and_eq_true]; exact ⟨by cases hh : s.delay <;> simp_all, h⟩

/-- The statements' addresses are the model's. -/
theorem address_eq (s : State) (p : Word) : s.address p = wrapped s p := by
  apply BitVec.eq_of_toNat_eq
  have := p.isLt
  have : p.toNat % 2 ^ s.cfg.addrBits ≤ p.toNat := Nat.mod_le _ _
  rw [State.address_toNat, wrapped, BitVec.toNat_ofNat]
  omega

theorem advances_refl (u s : State) (hc : u.cfg = s.cfg) (h1 : u.delay = s.delay) (h2 : u.pc = s.pc) :
    Advances s u.advance := by
  refine ⟨?_, by simp, rfl, rfl, rfl⟩
  rw [State.advance_pc, h1, h2, State.address_congr hc, address_eq]

theorem branches_refl (u s : State) (g : Word) (hc : u.cfg = s.cfg) (h1 : u.delay = s.delay) (h2 : u.pc = s.pc) :
    BranchesTo s (u.branch g) g := by
  refine ⟨?_, ?_, rfl, rfl, rfl⟩
  · rw [State.branch_pc, h1, h2, State.address_congr hc, address_eq]
  · rw [State.branch_delay, h1, State.address_congr hc, address_eq]
    cases s.delay <;> rfl

/-- A write of a register and of STATUS that keeps CWP. -/
theorem assigns_setStatus {i : Instr} {s : State} {a : RegNum} {v : Word} {st : Status} (ha : HasReg s a)
    (hst : st.cwp = s.status.cwp) (h : exec i s = .next ((s.setStatus st).setReg a v).advance) :
    Assigns i s a v st := by
  have hidx : (s.setStatus st).regIndex a = s.regIndex a := State.regIndex_congr (by simp [hst]) a
  have hin : (s.setStatus st).inFile a = true :=
    ((State.inFile_congr (s := s) (t := s.setStatus st) (by simp [hst]) rfl a).trans ha.1)
  refine ⟨_, h, ?_, ?_, rfl, ⟨rfl, rfl, rfl, rfl, rfl⟩, fun b => ⟨rfl, rfl⟩, advances_refl _ _ rfl rfl rfl⟩
  · exact State.reg_setReg_self (s := s.setStatus st) hin ha.2 v
  · intro n hn
    exact State.cell_setReg_ne (s := s.setStatus st) (by rw [hidx]; exact hn) v

theorem assigns_setReg {i : Instr} {s : State} {a : RegNum} {v : Word} (ha : HasReg s a)
    (h : exec i s = .next (s.setReg a v).advance) : Assigns i s a v s.status :=
  assigns_setStatus ha rfl h

theorem setsStatus {i : Instr} {s : State} {st : Status}
    (h : exec i s = .next (s.setStatus st).advance) : SetsStatus i s st :=
  ⟨_, h, fun _ => rfl, rfl, ⟨rfl, rfl, rfl, rfl, rfl⟩, fun _ => ⟨rfl, rfl⟩, advances_refl _ _ rfl rfl rfl⟩

theorem mapReg_assigns {i : Instr} {s : State} {a : RegNum} {f : Word → Word} {v : Word} (ha : HasReg s a)
    (h : exec i s = s.mapReg a f) (hv : f (s.reg a) = v) : Assigns i s a v s.status :=
  assigns_setReg ha (by rw [h, State.mapReg_eq_next, hv]; exact ⟨ha.1, rfl⟩)

theorem mapRegs_assigns {i : Instr} {s : State} {a b : RegNum} {f : Word → Word → Word} {v : Word}
    (ha : HasReg s a) (hb : HasReg s b)
    (h : exec i s = s.mapRegs a b f) (hv : f (s.reg a) (s.reg b) = v) : Assigns i s a v s.status :=
  assigns_setReg ha (by rw [h, State.mapRegs_eq_next, hv]; exact ⟨ha.1, hb.1, rfl⟩)

theorem assign_assigns {i : Instr} {s : State} {a : RegNum} {v : Word} (ha : HasReg s a)
    (h : exec i s = s.assign a v) : Assigns i s a v s.status :=
  assigns_setReg ha (by rw [h, State.assign_eq_next]; exact ⟨ha.1, rfl⟩)

theorem mapZero_assigns {i : Instr} {s : State} {a : RegNum} {f : Word → Word → Word} {v : Word}
    (h0 : HasReg s 0#5) (ha : HasReg s a)
    (h : exec i s = s.mapZero a f) (hv : f (s.reg 0#5) (s.reg a) = v) : Assigns i s 0#5 v s.status :=
  assigns_setReg h0 (by rw [h, State.mapZero_eq_next, ← hv]; exact ⟨h0.1, ha.1, rfl⟩)

theorem imm16_eq (s : State) (i : BitVec 5) : s.imm16 i = immediate s i := by
  apply BitVec.eq_of_toNat_eq
  have := s.k.isLt; have := i.isLt
  simp only [State.imm16, immediate, BitVec.toNat_setWidth, BitVec.toNat_append, BitVec.toNat_ofNat]
  rw [← Nat.shiftLeft_add_eq_or_of_lt i.isLt, Nat.shiftLeft_eq]

theorem addStatus_eq (st : Status) (a b : Word) : st.withFlags (addFlags a b) = addStatus st a b := by
  simp only [Status.withFlags, addFlags, addStatus, flagN, flagZ]
  congr 1
  simp [bne, BEq.beq]

theorem subStatus_eq (st : Status) (a b : Word) : st.withFlags (subFlags a b) = subStatus st a b := by
  simp only [Status.withFlags, subFlags, subStatus, flagN, flagZ]
  congr 1
  simp [bne, BEq.beq]

theorem logicStatus_eq (st : Status) (r : Word) : st.withNZ r = logicStatus st r := by
  simp only [Status.withNZ, logicStatus, flagN, flagZ]
  congr 1

theorem quiet_advance (s : State) : Quiet s s.advance :=
  ⟨fun _ => rfl, rfl, ⟨rfl, rfl, rfl, rfl, rfl⟩, fun _ => ⟨rfl, rfl⟩⟩

theorem admitsAll_of {s : State} {w : Word} {lo hi : Nat} {a : Word} {n : Nat} (h : Admitted s w lo hi)
    (ha : a = at_ w lo) (hn : hi = lo + n) :
    s.admitsAll a n = true := by
  subst ha hn
  rw [State.admitsAll_iff]
  intro j hj
  have := h (lo + j) (by omega) (by omega)
  simpa [at_, BitVec.add_assoc, BitVec.ofNat_add] using this

theorem wordAt_ok (s : State) (w : Word) : WordAt s w (s.wordAt w) := by
  intro j hj
  have : j = 0 ∨ j = 1 ∨ j = 2 ∨ j = 3 := by omega
  apply BitVec.eq_of_getLsbD_eq
  intro i hi
  rcases this with rfl | rfl | rfl | rfl <;>
    simp only [byteOf, State.wordAt, at_, BitVec.getLsbD_extractLsb', hi, decide_true, Bool.true_and,
      BitVec.getLsbD_append] <;>
    simp [hi] <;> grind

theorem loads {i : Instr} {s : State} {a : RegNum} {w : Word} (ha : HasReg s a) (hA : Admitted s w 0 4)
    (h : exec i s = s.loadTo a w) : Loads i s a w := by
  refine ⟨_, wordAt_ok s w, assigns_setReg ha ?_⟩
  rw [h, State.loadTo_eq_next]
  exact ⟨admitsAll_of hA (by simp [at_]) rfl, ha.1, rfl⟩

/-- With two address bits or more, the four bytes of a word are four bytes. -/
theorem at_inj {s : State} {w : Word} {i j : Nat} (hs : WordsFit s) (hi : i < 4) (hj : j < 4)
    (h : s.address (at_ w i) = s.address (at_ w j)) : i = j := by
  have hd : 4 ∣ 2 ^ s.cfg.addrBits := Nat.pow_dvd_pow 2 hs
  have := congrArg (fun x => x.toNat % 4) h
  simp only [State.address_toNat, at_, BitVec.toNat_add, BitVec.toNat_ofNat] at this
  rw [Nat.mod_mod_of_dvd _ hd, Nat.mod_mod_of_dvd _ hd] at this
  omega

theorem at_add (w : Word) (i j : Nat) : at_ w i + BitVec.ofNat 32 j = at_ w (i + j) := by
  simp [at_, BitVec.add_assoc, BitVec.ofNat_add]

theorem byteAt_putBytes (s : State) (w : Word) (lo : Nat) (l : List Byte) (hs : l.length ≤ 1 ∨ WordsFit s)
    (hl : lo + l.length ≤ 4) (j : Nat) (hj : j < l.length) :
    (s.putBytes (at_ w lo) l).byteAt (at_ w (lo + j)) = l[j] ∧
      (s.putBytes (at_ w lo) l).wasStored (at_ w (lo + j)) = true := by
  induction l generalizing s lo j with
  | nil => simp at hj
  | cons v l ih =>
    have e : at_ w lo + 1#32 = at_ w (lo + 1) := at_add w lo 1
    simp only [State.putBytes, e]
    simp only [List.length_cons] at hl hj hs
    cases j with
    | zero =>
      have hne : ∀ k < l.length, (s.putByte (at_ w lo) v).address (at_ w lo) ≠
          (s.putByte (at_ w lo) v).address (at_ w (lo + 1) + BitVec.ofNat 32 k) := by
        intro k hk h
        rw [at_add] at h
        have := at_inj (hs.resolve_left (by omega)) (by omega) (by omega) h
        omega
      simp only [Nat.add_zero]
      rw [State.byteAt_putBytes_of_ne _ _ _ _ hne, State.wasStored_putBytes_of_ne _ _ _ _ hne]
      simp [State.byteAt_putByte, State.wasStored_putByte]
    | succ j =>
      have := ih (s.putByte (at_ w lo) v) (lo + 1) (by rcases hs with h | h; exacts [.inl (by omega), .inr h])
        (by omega) j (by omega)
      rw [show lo + (j + 1) = lo + 1 + j by omega]
      simpa using this

theorem stores {i : Instr} {s : State} {w a : Word} {lo hi : Nat} {x : Word} {l : List Byte}
    (h : exec i s = .next (s.putBytes a l).advance) (ha : a = at_ w lo) (hhi : hi = lo + l.length) (h4 : hi ≤ 4)
    (hs : l.length ≤ 1 ∨ WordsFit s) (hl : ∀ j (hj : j < l.length), l[j] = byteOf x (lo + j)) :
    Stores i s w lo hi x := by
  subst ha hhi
  refine ⟨_, h, fun j h1 h2 => ?_, fun b hb => ?_, fun n => ?_, by simp,
    ⟨by simp, by simp, by simp, by simp, by simp⟩, advances_refl _ _ (by simp) (by simp) (by simp)⟩
  · obtain ⟨k, rfl⟩ := Nat.exists_eq_add_of_le h1
    have := byteAt_putBytes s w lo l hs h4 k (by omega)
    rw [hl] at this
    exact this
  · have hne : ∀ k < l.length, s.address b ≠ s.address (at_ w lo + BitVec.ofNat 32 k) := by
      intro k hk h
      rw [at_add, address_eq, address_eq] at h
      exact hb (lo + k) (by omega) (by omega) h
    exact ⟨State.byteAt_putBytes_of_ne _ _ _ _ hne, State.wasStored_putBytes_of_ne _ _ _ _ hne⟩
  · simp [State.cell]

theorem storeWord {i : Instr} {s : State} {a : RegNum} {w : Word} (hs : WordsFit s) (ha : HasReg s a)
    (hA : Admitted s w 0 4) (h : exec i s = s.storeFrom a w) :
    Stores i s w 0 4 (s.reg a) := by
  refine stores (l := wordBytes (s.reg a)) (a := w) ?_ (by simp [at_]) rfl (by omega) (.inr hs) ?_
  · rw [h, State.storeFrom_eq_next]
    exact ⟨ha.1, admitsAll_of hA (by simp [at_]) rfl, rfl⟩
  · intro j hj
    simp only [wordBytes, List.length_cons, List.length_nil] at hj
    have : j = 0 ∨ j = 1 ∨ j = 2 ∨ j = 3 := by omega
    rcases this with rfl | rfl | rfl | rfl <;> rfl

theorem storeByte {i : Instr} {s : State} {w : Word} {n : BitVec 2} {m : Nat} (h0 : HasReg s 0#5)
    (hm : m = n.toNat) (hA : Admitted s w m (m + 1)) (h : exec i s = s.storeByteLane w n) :
    Stores i s w m (m+1) (s.reg 0#5) := by
  have e : byteLaneAddr w n = at_ w m := by
    subst hm
    simp only [byteLaneAddr, at_]; congr 1
    apply BitVec.eq_of_toNat_eq; have := n.isLt; simp
  refine stores (l := [byteLane (s.reg 0#5) n]) (a := byteLaneAddr w n) ?_ e rfl (by have := n.isLt; omega)
    (.inl (by simp)) ?_
  · rw [h, State.storeByteLane_eq_next]
    exact ⟨h0.1, admitsAll_of hA e rfl, rfl⟩
  · intro j hj
    simp at hj; subst hj
    simp [byteLane, byteOf, hm]

theorem storeHalf {i : Instr} {s : State} {w : Word} {n : BitVec 1} {m : Nat} (hs : WordsFit s) (h0 : HasReg s 0#5)
    (hm : m = n.toNat) (hA : Admitted s w (2*m) (2*m+2)) (h : exec i s = s.storeHalfLane w n) :
    Stores i s w (2*m) (2*m+2) (s.reg 0#5) := by
  have hn := n.isLt
  have e : halfLaneAddr w n = at_ w (2*m) := by
    subst hm
    simp only [halfLaneAddr, at_]; congr 1
  refine stores (l := halfBytes (halfLane (s.reg 0#5) n)) (a := halfLaneAddr w n) ?_ e rfl (by omega) (.inr hs) ?_
  · rw [h, State.storeHalfLane_eq_next]
    exact ⟨h0.1, admitsAll_of hA e rfl, rfl⟩
  · intro j hj
    simp only [halfBytes, List.length_cons, List.length_nil] at hj
    have hj' : j = 0 ∨ j = 1 := by omega
    apply BitVec.eq_of_getLsbD_eq
    intro b hb
    rcases hj' with rfl | rfl <;>
    simp only [halfBytes, halfLane, byteOf, List.getElem_cons_zero, List.getElem_cons_succ,
      BitVec.getLsbD_extractLsb', hb, decide_true, Bool.true_and] <;>
    subst hm <;> simp [show b < 16 by omega, show 8 + b < 16 by omega] <;> congr 1 <;> omega

theorem half_eq (x : Word) : x >>> 1 = halfAddress x := by
  apply BitVec.eq_of_toNat_eq
  have := x.isLt
  simp [halfAddress, Nat.shiftRight_eq_div_pow]; omega

theorem skipsWhen {i : Instr} {s : State} {b : Bool} {P : Prop} (hP : P ↔ b = true) (h : exec i s = s.skipIf b) :
    SkipsWhen i s P := by
  constructor
  · intro hn
    have : b = false := by cases b <;> simp_all
    exact ⟨s.advance, by rw [h, State.skipIf_eq_next]; exact .inl ⟨this, rfl⟩, quiet_advance s,
      advances_refl _ _ rfl rfl rfl⟩
  · rintro hp n ⟨hn, hj, hw⟩
    refine ⟨s.retire (at_ (s.pc + 2#32) (2 * n + 2)) none, ?_,
      ⟨fun _ => rfl, rfl, ⟨rfl, rfl, rfl, rfl, rfl⟩, fun _ => ⟨rfl, rfl⟩⟩,
      ⟨by rw [State.retire_pc, address_eq], by simp, rfl, rfl, rfl⟩⟩
    rw [h, State.skipIf_eq_next]
    refine .inr ⟨hP.1 hp, _, State.skipFrom_eq_next.2 ⟨n, hn, ?_, hj, hw⟩, rfl⟩
    simp [at_, BitVec.add_assoc, BitVec.ofNat_add]

theorem sw_regIndex (s : State) (j : RegNum) (h : 8 ≤ j.toNat) :
    s.regIndex j = 16 * s.status.cwp.toNat + j.toNat := by
  simp only [State.regIndex]; rw [if_neg (by omega)]

theorem atHandler_of {s u : State} {n : BitVec 6} {ret : Word} {w : BitVec 5} (hu : u.cfg = s.cfg)
    (hm : u.mem = s.mem) (hs : u.stored = s.stored) (hhi : u.hiLimit = s.hiLimit)
    (hlo : u.loLimit = s.loLimit) (hr : u.request = s.request) (hl : u.regs.length = s.regs.length)
    (hc : CanEnter s n w.toNat) :
    ∃ t, u.enterTrapAt n ret w = .next t ∧ AtHandler s t n ret w u.status ∧
      ∀ m, m ≠ 16 * w.toNat + 15 → t.cell m = u.cell m := by
  obtain ⟨h1, h2, h3⟩ := hc
  have hidx : (u.trapped n w).regIndex linkReg = 16 * w.toNat + 15 := by rw [sw_regIndex _ _ (by decide)]; rfl
  have hin : (u.trapped n w).inFile linkReg = true := by
    unfold State.inFile
    rw [hidx, decide_eq_true_eq]
    show _ < u.cfg.nregs
    rw [hu]; unfold Config.nregs; omega
  have hv : u.vectorAddr n = s.cfg.vecbase + BitVec.ofNat 32 (4 * n.toNat) := by
    unfold State.vectorAddr
    rw [hu]; congr 1
  have ha : u.admitsAll (u.vectorAddr n) 4 = true := by
    rw [State.admitsAll_congr hu, hv]
    exact admitsAll_of h3 (by simp [at_]) rfl
  refine ⟨_, State.enterTrapAt_eq_next.2 ⟨hin, ha, rfl⟩, ⟨rfl, rfl, ?_, ⟨u.wordAt (u.vectorAddr n), ?_, ?_⟩,
    rfl, rfl, rfl, rfl, hu, hhi, hlo, hr, fun b => ⟨?_, ?_⟩⟩, fun m hm' => ?_⟩
  · rw [← address_eq, ← State.address_congr hu, ← hidx, half_eq]
    exact State.cell_setReg_self hin (by show u.regs.length = u.cfg.nregs; rw [hl, hu, h2]) _
  · rw [hv, State.wordAt_congr hu hm]
    exact wordAt_ok _ _
  · rw [State.atHandler_pc, ← address_eq, ← State.address_congr hu]
    rfl
  · exact State.byteAt_congr hu hm _
  · exact State.wasStored_congr hu hs _
  · exact State.cell_setReg_ne (s := u.trapped n w) (by rw [hidx]; exact hm') _

/-- The fields that a register holds are those the model unpacks. -/
theorem unpack_eq (l : StatusLayout) (x : Word) : Status.unpack l x = fieldsOf l x := by
  have wide : ∀ p n, x.extractLsb' p n = BitVec.ofNat n (x.toNat / 2 ^ p) := fun p n => by
    apply BitVec.eq_of_toNat_eq
    simp [Nat.shiftRight_eq_div_pow]
  simp only [Status.unpack, fieldsOf, wide, BitVec.getLsbD]

/-- The packed STATUS has its fields at their places and zeros elsewhere. -/
theorem readsAs_pack {l : StatusLayout} (hl : l.wellFormed = true) (st : Status) : ReadsAs l st (st.pack l) :=
  ⟨by rw [← unpack_eq, Status.unpack_pack hl], fun _ => Status.pack_outside l st⟩

/-- In the default layout the fields of a register are its lower half. -/
theorem statusNumber_fields (x : Word) : statusNumber (fieldsOf Config.default.layout x) = x.toNat % 2 ^ 16 := by
  have bit : ∀ p, (x.toNat.testBit p).toNat = x.toNat / 2 ^ p % 2 := fun p => by
    rw [Nat.testBit_eq_decide_div_mod_eq]
    have := Nat.mod_two_eq_zero_or_one (x.toNat / 2 ^ p)
    rcases this with h | h <;> simp [h]
  simp only [statusNumber, fieldsOf, Config.default, bit, BitVec.toNat_ofNat]
  omega

/-- STATUS packed in the default layout, as a number. -/
theorem pack_number (st : Status) : (st.pack Config.default.layout).toNat = statusNumber st := by
  have h : st.pack Config.default.layout <<< 16 >>> 16 = st.pack Config.default.layout := by
    apply BitVec.eq_of_getLsbD_eq
    intro j hj
    rw [BitVec.getLsbD_ushiftRight, BitVec.getLsbD_shiftLeft]
    by_cases hs : j < 16
    · simp [hj, show 16 + j < 32 by omega]
    · rw [Status.pack_outside _ st (j := j)]
      · simp [hj, show ¬16 + j < 32 by omega]
      · simp [StatusLayout.covers, StatusLayout.fields, Config.default]
        omega
  have h1 := statusNumber_fields (st.pack Config.default.layout)
  rw [← unpack_eq, Status.unpack_pack (by decide)] at h1
  rw [h1]
  have := congrArg BitVec.toNat h
  have hlt := (st.pack Config.default.layout).isLt
  simp only [BitVec.toNat_ushiftRight, BitVec.toNat_shiftLeft, Nat.shiftRight_eq_div_pow, Nat.shiftLeft_eq] at this
  omega

theorem align_eq (x : Word) : align32 x = aligned x := by
  apply BitVec.eq_of_toNat_eq
  have := x.isLt
  rw [align32_toNat, aligned, BitVec.toNat_ofNat]
  omega

end Sys2Proof.Claims
end

