-- ==== Sys2Proof/Laws/Effect.lean ====
section
/-!
SUPPORT. Everything an instruction can do, said once: `exec_effect`. A proof about all instructions goes over the
nineteen effects and not over the sixty-nine instructions.
-/

namespace Sys2Proof.Machine

/-- What an instruction `i` can make of a state. -/
inductive Effect (i : Instr) (s : State) : State → Prop where
  /-- A register is written. -/
  | assign (a : RegNum) (v : Word) (ha : s.inFile a = true) : Effect i s (s.setReg a v).advance
  /-- A register and the four flags are written. -/
  | arithmetic (a : RegNum) (v : Word) (f : Flags) (hi : isArithmetic i = true) (ha : s.inFile a = true) :
    Effect i s ((s.setStatus (s.status.withFlags f)).setReg a v).advance
  /-- The four flags are written. -/
  | compare (f : Flags) (hi : isArithmetic i = true) : Effect i s (s.setStatus (s.status.withFlags f)).advance
  /-- A register, N and Z are written. -/
  | logic (a : RegNum) (v r : Word) (hi : isLogic i = true) (ha : s.inFile a = true) :
    Effect i s ((s.setStatus (s.status.withNZ r)).setReg a v).advance
  /-- A register and C are written. -/
  | rotate (a : RegNum) (v : Word) (c : Bool) (hi : isRotate i = true) (ha : s.inFile a = true) :
    Effect i s ((s.setStatus (s.status.withC c)).setReg a v).advance
  /-- Nothing is written: NOP, and a skip whose condition fails. -/
  | goOn : Effect i s s.advance
  /-- Bytes of memory are written. -/
  | store (w : Word) (l : List Byte) (hi : isStore i = true) : Effect i s (s.putBytes w l).advance
  /-- A branch to an address that is even, or an even way from the pc. -/
  | branch (g : Word) (hi : slotForbidden i = true) (hg : s.pc.getLsbD 0 = false → g.getLsbD 0 = false) :
    Effect i s (s.branch g)
  /-- The same, with the link register written. -/
  | link (v g : Word) (hi : slotForbidden i = true) (ha : s.inFile linkReg = true)
    (hg : s.pc.getLsbD 0 = false → g.getLsbD 0 = false) : Effect i s ((s.setReg linkReg v).branch g)
  /-- A skip whose condition holds. -/
  | skip (p : Word) (hi : slotForbidden i = true) (hp : s.pc.getLsbD 0 = false → p.getLsbD 0 = false) :
    Effect i s (s.retire p none)
  /-- A prefix. -/
  | loadK (k : BitVec 11) (hi : i = .pfx k) : Effect i s (s.advance.setPrefix k)
  /-- A return from a trap. -/
  | tret (a : RegNum) (hi : i = .tret a) (ha : s.inFile a = true) (hw : s.badWindow s.istatus.cwp = false) :
    Effect i s ((s.setStatus s.istatus).retire (s.reg a * 2#32) none)
  /-- A write of STATUS. -/
  | writeStatus (a : RegNum) (st : Status) (hi : i = .wrctl a) (hk : s.k = 0#11) (hw : s.badWindow st.cwp = false) :
    Effect i s (s.setStatus st).advance.markHazard
  /-- A write of ISTATUS. -/
  | writeIstatus (a : RegNum) (st : Status) (hi : i = .wrctl a) (hk : s.k = s.cfg.ctlIstatus) :
    Effect i s (s.setIstatus st).advance
  /-- A write of the window limits. -/
  | writeLimits (a : RegNum) (hi' lo : BitVec 5) (hi : i = .wrctl a) (hk : s.k = s.cfg.ctlWvalid) :
    Effect i s (s.setLimits hi' lo).advance
  /-- A SAVE that does not trap. -/
  | save (v : Word) (hi : isWindowOrTrap i = true) (h0 : s.status.cwp ≠ 0#5)
    (ha : (s.setStatus (s.status.withCwp (s.status.cwp - 1#5))).inFile s.cfg.spReg = true) :
    Effect i s ((s.setStatus (s.status.withCwp (s.status.cwp - 1#5))).setReg s.cfg.spReg v).advance
  /-- A RESTORE that does not trap. -/
  | restore (hi : i = .restore) (hw : s.status.cwp.toNat + 1 < s.cfg.nwin) :
    Effect i s (s.setStatus (s.status.withCwp (s.status.cwp + 1#5))).advance
  /-- A trap entry from window `u.status.cwp` of a state `u` that the instruction has reached, into window `w`: `u` is the
  state itself (TRAP), or that after the window move (RESTORE). -/
  | trap (u : State) (n : BitVec 6) (r x : Word) (w : BitVec 5) (hi : isWindowOrTrap i = true)
    (hu : u = s ∨ u = s.setStatus (s.status.withCwp (s.status.cwp + 1#5))) (h0 : u.status.cwp ≠ 0#5)
    (hw : w = u.status.cwp - 1#5) (ha : (u.trapped n w).inFile linkReg = true)
    (hd : s.delay = none ∨ slotForbidden i = true) :
    Effect i s (((u.trapped n w).setReg linkReg r).atHandler x)
  /-- The trap of a SAVE, entered in the window the SAVE has moved to, whose `%sp` it has written. -/
  | underflow (v r x : Word) (hi : isWindowOrTrap i = true) (h0 : s.status.cwp ≠ 0#5)
    (hs : (s.setStatus (s.status.withCwp (s.status.cwp - 1#5))).inFile s.cfg.spReg = true)
    (ha : (((s.setStatus (s.status.withCwp (s.status.cwp - 1#5))).setReg s.cfg.spReg v).trapped 1#6
      (s.status.cwp - 1#5)).inFile linkReg = true) (hd : s.delay = none) :
    Effect i s (((((s.setStatus (s.status.withCwp (s.status.cwp - 1#5))).setReg s.cfg.spReg v).trapped 1#6
      (s.status.cwp - 1#5)).setReg linkReg r).atHandler x)

variable {s t : State}

theorem Effect.of_assign {i : Instr} {a : RegNum} {v : Word} (h : s.assign a v = .next t) : Effect i s t := by
  obtain ⟨ha, rfl⟩ := State.assign_eq_next.1 h
  exact .assign a v ha

theorem Effect.of_mapReg {i : Instr} {a : RegNum} {f : Word → Word} (h : s.mapReg a f = .next t) : Effect i s t := by
  obtain ⟨ha, rfl⟩ := State.mapReg_eq_next.1 h
  exact .assign a _ ha

theorem Effect.of_mapRegs {i : Instr} {a b : RegNum} {f : Word → Word → Word} (h : s.mapRegs a b f = .next t) :
    Effect i s t := by
  obtain ⟨ha, -, rfl⟩ := State.mapRegs_eq_next.1 h
  exact .assign a _ ha

theorem Effect.of_mapZero {i : Instr} {a : RegNum} {f : Word → Word → Word} (h : s.mapZero a f = .next t) :
    Effect i s t := by
  obtain ⟨ha, -, rfl⟩ := State.mapZero_eq_next.1 h
  exact .assign zeroReg _ ha

theorem Effect.of_addTo {i : Instr} {a : RegNum} {y : Word} (hi : isArithmetic i = true)
    (h : s.addTo a y = .next t) : Effect i s t := by
  obtain ⟨ha, rfl⟩ := State.addTo_eq_next.1 h
  exact .arithmetic a _ _ hi ha

theorem Effect.of_subFrom {i : Instr} {a : RegNum} {y : Word} (hi : isArithmetic i = true)
    (h : s.subFrom a y = .next t) : Effect i s t := by
  obtain ⟨ha, rfl⟩ := State.subFrom_eq_next.1 h
  exact .arithmetic a _ _ hi ha

theorem Effect.of_compare {i : Instr} {a : RegNum} {y : Word} (hi : isArithmetic i = true)
    (h : s.compare a y = .next t) : Effect i s t := by
  obtain ⟨-, rfl⟩ := State.compare_eq_next.1 h
  exact .compare _ hi

theorem Effect.of_logic {i : Instr} {a : RegNum} {o : LogicOperand} {f : Word → Word → Word} (hi : isLogic i = true)
    (h : s.logic a o f = .next t) : Effect i s t := by
  obtain ⟨ha, y, -, rfl⟩ := State.logic_eq_next.1 h
  exact .logic a _ _ hi ha

theorem Effect.of_custom {i : Instr} {l : CustomLogic} {op : Word → Word → Word} {a b : RegNum}
    (h : s.custom l op a b = .next t) : Effect i s t := by
  obtain ⟨-, ha, -, rfl⟩ := State.custom_eq_next.1 h
  exact .assign a _ ha

theorem Effect.of_loadTo {i : Instr} {a : RegNum} {w : Word} (h : s.loadTo a w = .next t) : Effect i s t := by
  obtain ⟨-, ha, rfl⟩ := State.loadTo_eq_next.1 h
  exact .assign a _ ha

theorem Effect.of_storeFrom {i : Instr} {a : RegNum} {w : Word} (hi : isStore i = true)
    (h : s.storeFrom a w = .next t) : Effect i s t := by
  obtain ⟨-, -, rfl⟩ := State.storeFrom_eq_next.1 h
  exact .store w _ hi

theorem Effect.of_storeByteLane {i : Instr} {w : Word} {n : BitVec 2} (hi : isStore i = true)
    (h : s.storeByteLane w n = .next t) : Effect i s t := by
  obtain ⟨-, -, rfl⟩ := State.storeByteLane_eq_next.1 h
  exact .store _ _ hi

theorem Effect.of_storeHalfLane {i : Instr} {w : Word} {n : BitVec 1} (hi : isStore i = true)
    (h : s.storeHalfLane w n = .next t) : Effect i s t := by
  obtain ⟨-, -, rfl⟩ := State.storeHalfLane_eq_next.1 h
  exact .store _ _ hi

/-- An even number of bytes further on, the lowest bit is the same. -/
theorem getLsbD_zero_add {x y : Word} (hy : y.getLsbD 0 = false) : (x + y).getLsbD 0 = x.getLsbD 0 := by
  simp only [BitVec.getLsbD, Nat.testBit_zero, BitVec.toNat_add] at *
  have : y.toNat % 2 = 0 := by simpa using hy
  congr 1
  rw [eq_iff_iff]
  omega

/-- Twice anything is even. -/
theorem getLsbD_zero_double (x : Word) : (x * 2#32).getLsbD 0 = false := by
  simp only [BitVec.getLsbD, Nat.testBit_zero, BitVec.toNat_mul, decide_eq_false_iff_not]
  rw [show (2#32).toNat = 2 from rfl]
  omega

theorem Effect.of_skipIf {i : Instr} {taken : Bool} (hi : slotForbidden i = true)
    (h : s.skipIf taken = .next t) : Effect i s t := by
  rcases State.skipIf_eq_next.1 h with ⟨-, rfl⟩ | ⟨-, p, hp, rfl⟩
  · exact .goOn
  · refine .skip p hi fun hpc => ?_
    obtain ⟨n, -, rfl, -⟩ := State.skipFrom_eq_next.1 hp
    rw [getLsbD_zero_add rfl, getLsbD_zero_add, getLsbD_zero_add rfl, hpc]
    simp [BitVec.getLsbD]

theorem Effect.of_andThen_readReg {i : Instr} {a : RegNum} {f : Word → Result State}
    (hf : f (s.reg a) = .next t → s.inFile a = true → Effect i s t) (h : andThen (s.readReg a) f = .next t) :
    Effect i s t := by
  obtain ⟨x, hx, h⟩ := andThen_eq_next.1 h
  obtain ⟨ha, rfl⟩ := State.readReg_eq_next.1 hx
  exact hf h ha

theorem execMov_effect {a b : RegNum} (h : execMov a b s = .next t) : Effect (.mov a b) s t := by
  unfold execMov at h
  split at h
  · cases h
    exact .goOn
  · exact Effect.of_andThen_readReg (fun h _ => .of_assign h) h

theorem execRlc_effect {a : RegNum} (h : execRlc a s = .next t) : Effect (.rlc a) s t := by
  refine Effect.of_andThen_readReg (fun h ha => ?_) h
  obtain ⟨-, rfl⟩ := State.assign_eq_next.1 h
  exact .rotate a _ _ rfl ha

theorem execRrc_effect {a : RegNum} (h : execRrc a s = .next t) : Effect (.rrc a) s t := by
  refine Effect.of_andThen_readReg (fun h ha => ?_) h
  obtain ⟨-, rfl⟩ := State.assign_eq_next.1 h
  exact .rotate a _ _ rfl ha

theorem branchTarget_even (imm11 : BitVec 11) (h : s.pc.getLsbD 0 = false) :
    (s.branchTarget imm11).getLsbD 0 = false := by
  rw [State.branchTarget, getLsbD_zero_add (getLsbD_zero_double _), h]

theorem execBsr_effect {imm11 : BitVec 11} (h : execBsr imm11 s = .next t) : Effect (.bsr imm11) s t := by
  simp only [execBsr, andThen_eq_next, State.writeReg_eq_next, Host.Outcome.next.injEq] at h
  obtain ⟨u, ⟨ha, rfl⟩, rfl⟩ := h
  exact .link _ _ rfl ha (branchTarget_even imm11)

theorem execCall_effect {a : RegNum} (h : execCall a s = .next t) : Effect (.call a) s t := by
  refine Effect.of_andThen_readReg (fun h _ => ?_) h
  simp only [andThen_eq_next, State.writeReg_eq_next, Host.Outcome.next.injEq] at h
  obtain ⟨u, ⟨ha, rfl⟩, rfl⟩ := h
  exact .link _ _ rfl ha fun _ => getLsbD_zero_double _

theorem execSkps_effect {code : BitVec 4} (h : execSkps code s = .next t) : Effect (.skps code) s t := by
  unfold execSkps at h
  split at h
  · exact .of_skipIf rfl h
  · simp at h

theorem execTrap_effect {n : BitVec 6} (h : execTrap n s = .next t) : Effect (.trap n) s t := by
  obtain ⟨h0, h⟩ := State.raiseTrap_eq_next.1 h
  obtain ⟨ha, -, rfl⟩ := State.enterTrapAt_eq_next.1 h
  exact .trap s n _ _ _ rfl (.inl rfl) h0 rfl ha (.inr rfl)

theorem execRestore_effect (h : execRestore s = .next t) : Effect .restore s t := by
  unfold execRestore at h
  split at h
  · simp at h
  · rename_i hw
    split at h
    · split at h
      · simp at h
      · rename_i hd
        obtain ⟨h0, h⟩ := State.raiseTrap_eq_next.1 h
        obtain ⟨ha, -, rfl⟩ := State.enterTrapAt_eq_next.1 h
        refine .trap _ 2#6 _ _ _ rfl (.inr rfl) h0 rfl ha (.inl ?_)
        simpa using hd
    · rename_i hhi
      cases h
      refine .restore rfl ?_
      by_contra hc
      exact hw ⟨by omega, hhi⟩

theorem execSave_effect {imm8 : BitVec 8} (h : execSave imm8 s = .next t) : Effect (.save imm8) s t := by
  unfold execSave at h
  split at h
  · simp at h
  · rename_i h0
    simp only [andThen_eq_next, State.readReg_eq_next, State.writeReg_eq_next] at h
    obtain ⟨fp, ⟨-, rfl⟩, u, ⟨hs, rfl⟩, h⟩ := h
    split at h
    · split at h
      · simp at h
      · rename_i hd
        obtain ⟨ha, -, rfl⟩ := State.enterTrapAt_eq_next.1 h
        exact .underflow _ _ _ rfl h0 hs ha (by simpa using hd)
    · cases h
      exact .save _ rfl h0 hs

theorem execTret_effect {a : RegNum} (h : execTret a s = .next t) : Effect (.tret a) s t := by
  obtain ⟨ha, hw, rfl⟩ := State.returnFromTrap_eq_next.1 h
  exact .tret a rfl ha hw

theorem execWrctl_effect {a : RegNum} (h : execWrctl a s = .next t) : Effect (.wrctl a) s t := by
  refine Effect.of_andThen_readReg (fun h _ => ?_) h
  split at h
  · rename_i hk
    split at h
    · simp at h
    · rename_i hw
      cases h
      exact .writeStatus a _ rfl hk (by simpa using hw)
  · split at h
    · rename_i hk
      cases h
      exact .writeIstatus a _ rfl hk
    · split at h
      · rename_i hk
        cases h
        exact .writeLimits a _ _ rfl hk
      · simp at h

theorem execRdctl_effect {a : RegNum} (h : execRdctl a s = .next t) : Effect (.rdctl a) s t := by
  unfold execRdctl at h
  split at h
  · exact .of_assign h
  · split at h
    · exact .of_assign h
    · split at h
      · exact .of_assign h
      · simp at h

theorem execLd_effect {a b : RegNum} (h : execLd a b s = .next t) : Effect (.ld a b) s t :=
  Effect.of_andThen_readReg (f := fun _ => s.loadTo a (s.addrK b)) (fun h _ => .of_loadTo h) h

theorem execLdp_effect {a : RegNum} {p : BitVec 2} {imm5 : BitVec 5} (h : execLdp a p imm5 s = .next t) :
    Effect (.ldp a p imm5) s t :=
  Effect.of_andThen_readReg (f := fun _ => s.loadTo a (s.addrP p imm5)) (fun h _ => .of_loadTo h) h

theorem execLds_effect {a : RegNum} {imm8 : BitVec 8} (h : execLds a imm8 s = .next t) : Effect (.lds a imm8) s t :=
  Effect.of_andThen_readReg (f := fun _ => s.loadTo a (s.addrSp (imm8.setWidth 32 * 4#32))) (fun h _ => .of_loadTo h) h

theorem execSt_effect {a b : RegNum} (h : execSt a b s = .next t) : Effect (.st a b) s t :=
  Effect.of_andThen_readReg (f := fun _ => s.storeFrom a (s.addrK b)) (fun h _ => .of_storeFrom rfl h) h

theorem execStp_effect {a : RegNum} {p : BitVec 2} {imm5 : BitVec 5} (h : execStp a p imm5 s = .next t) :
    Effect (.stp a p imm5) s t :=
  Effect.of_andThen_readReg (f := fun _ => s.storeFrom a (s.addrP p imm5)) (fun h _ => .of_storeFrom rfl h) h

theorem execSts_effect {a : RegNum} {imm8 : BitVec 8} (h : execSts a imm8 s = .next t) : Effect (.sts a imm8) s t :=
  Effect.of_andThen_readReg (f := fun _ => s.storeFrom a (s.addrSp (imm8.setWidth 32 * 4#32)))
    (fun h _ => .of_storeFrom rfl h) h

theorem execFill8_effect {a : RegNum} (h : execFill8 a s = .next t) : Effect (.fill8 a) s t := by
  unfold execFill8 at h
  obtain ⟨x, -, h⟩ := andThen_eq_next.1 h
  exact .of_assign h

theorem execFill16_effect {a : RegNum} (h : execFill16 a s = .next t) : Effect (.fill16 a) s t := by
  unfold execFill16 at h
  obtain ⟨x, -, h⟩ := andThen_eq_next.1 h
  exact .of_assign h

theorem execMul_effect {a : RegNum} (h : execMul a s = .next t) : Effect (.mul a) s t := by
  unfold execMul at h
  exact .of_mapZero h

/-- Whatever instruction completes, what it did is one of the effects. -/
theorem exec_effect {i : Instr} (h : exec i s = .next t) : Effect i s t := by
  cases i with
  | add a b => exact .of_andThen_readReg (fun h _ => .of_addTo rfl h) h
  | addi a imm5 => exact .of_addTo rfl h
  | sub a b => exact .of_andThen_readReg (fun h _ => .of_subFrom rfl h) h
  | subi a imm5 => exact .of_subFrom rfl h
  | cmp a b => exact .of_andThen_readReg (fun h _ => .of_compare rfl h) h
  | cmpi a imm5 => exact .of_compare rfl h
  | lsl a b => exact .of_mapRegs h
  | lsli a imm5 => exact .of_mapReg h
  | lsr a b => exact .of_mapRegs h
  | lsri a imm5 => exact .of_mapReg h
  | asr a b => exact .of_mapRegs h
  | asri a imm5 => exact .of_mapReg h
  | mov a b => exact execMov_effect h
  | movi a imm5 => exact .of_assign h
  | and a o => exact .of_logic rfl h
  | andn a o => exact .of_logic rfl h
  | or a o => exact .of_logic rfl h
  | xor a o => exact .of_logic rfl h
  | bgen a imm5 => exact .of_assign h
  | ext8d a b => exact .of_mapRegs h
  | skp0 a imm5 => exact .of_andThen_readReg (fun h _ => .of_skipIf rfl h) h
  | skp1 a imm5 => exact .of_andThen_readReg (fun h _ => .of_skipIf rfl h) h
  | ld a b => exact execLd_effect h
  | st a b => exact execSt_effect h
  | sts8s imm10 => exact .of_andThen_readReg (fun h _ => .of_storeByteLane rfl h) h
  | sts16s imm9 => exact .of_andThen_readReg (fun h _ => .of_storeHalfLane rfl h) h
  | ext16d a b => exact .of_mapRegs h
  | movhi a imm5 => exact .of_mapReg h
  | usr0 a b => exact .of_custom h
  | ext8s a imm2 => exact .of_mapReg h
  | ext16s a imm1 => exact .of_mapReg h
  | st8s a imm2 => exact .of_andThen_readReg (fun h _ => .of_storeByteLane rfl h) h
  | st16s a imm1 => exact .of_andThen_readReg (fun h _ => .of_storeHalfLane rfl h) h
  | save imm8 => exact execSave_effect h
  | trap imm6 => exact execTrap_effect h
  | not a => exact .of_mapReg h
  | neg a => exact .of_mapReg h
  | abs a => exact .of_mapReg h
  | sext8 a => exact .of_mapReg h
  | sext16 a => exact .of_mapReg h
  | rlc a => exact execRlc_effect h
  | rrc a => exact execRrc_effect h
  | swap a => exact .of_mapReg h
  | usr1 a => exact .of_custom h
  | usr2 a => exact .of_custom h
  | usr3 a => exact .of_custom h
  | usr4 a => exact .of_custom h
  | restore => exact execRestore_effect h
  | tret a => exact execTret_effect h
  | st8d a => exact .of_andThen_readReg (fun h _ => .of_storeByteLane rfl h) h
  | st16d a => exact .of_andThen_readReg (fun h _ => .of_storeHalfLane rfl h) h
  | fill8 a => exact execFill8_effect h
  | fill16 a => exact execFill16_effect h
  | mstep a => exact .of_mapZero h
  | mul a => exact execMul_effect h
  | skprz a => exact .of_andThen_readReg (fun h _ => .of_skipIf rfl h) h
  | skps imm4 => exact execSkps_effect h
  | wrctl a => exact execWrctl_effect h
  | rdctl a => exact execRdctl_effect h
  | skprnz a => exact .of_andThen_readReg (fun h _ => .of_skipIf rfl h) h
  | jmp a =>
    refine .of_andThen_readReg (fun h _ => ?_) h
    cases h
    exact .branch _ rfl fun _ => getLsbD_zero_double _
  | call a => exact execCall_effect h
  | br imm11 =>
    cases h
    exact .branch _ rfl (branchTarget_even imm11)
  | bsr imm11 => exact execBsr_effect h
  | pfx imm11 =>
    cases h
    exact .loadK imm11 rfl
  | stp a p imm5 => exact execStp_effect h
  | ldp a p imm5 => exact execLdp_effect h
  | sts a imm8 => exact execSts_effect h
  | lds a imm8 => exact execLds_effect h

end Sys2Proof.Machine
end

