-- ==== Sys2Proof/Laws/PerInstr.lean ====
section
/-!
SUPPORT. The family EncodeMatches: the word of every instruction has the fixed bits that its row of
spec/opcode_table.json gives it. The mask and the match are copied from the table, not computed from the encoder.
-/

namespace Sys2Proof.Laws

/-- The mask of an instruction's row of the opcode table. -/
def opcodeMask : Instr → Half
  | .add .. => 0xFC00#16
  | .addi .. => 0xFC00#16
  | .sub .. => 0xFC00#16
  | .subi .. => 0xFC00#16
  | .cmp .. => 0xFC00#16
  | .cmpi .. => 0xFC00#16
  | .lsl .. => 0xFC00#16
  | .lsli .. => 0xFC00#16
  | .lsr .. => 0xFC00#16
  | .lsri .. => 0xFC00#16
  | .asr .. => 0xFC00#16
  | .asri .. => 0xFC00#16
  | .mov .. => 0xFC00#16
  | .movi .. => 0xFC00#16
  | .and .. => 0xFC00#16
  | .andn .. => 0xFC00#16
  | .or .. => 0xFC00#16
  | .xor .. => 0xFC00#16
  | .bgen .. => 0xFC00#16
  | .ext8d .. => 0xFC00#16
  | .skp0 .. => 0xFC00#16
  | .skp1 .. => 0xFC00#16
  | .ld .. => 0xFC00#16
  | .st .. => 0xFC00#16
  | .sts8s .. => 0xFC00#16
  | .sts16s .. => 0xFC01#16
  | .ext16d .. => 0xFC00#16
  | .movhi .. => 0xFC00#16
  | .usr0 .. => 0xFC00#16
  | .ext8s .. => 0xFF80#16
  | .ext16s .. => 0xFFA0#16
  | .st8s .. => 0xFF80#16
  | .st16s .. => 0xFFA0#16
  | .save .. => 0xFF00#16
  | .trap .. => 0xFFC0#16
  | .not .. => 0xFFE0#16
  | .neg .. => 0xFFE0#16
  | .abs .. => 0xFFE0#16
  | .sext8 .. => 0xFFE0#16
  | .sext16 .. => 0xFFE0#16
  | .rlc .. => 0xFFE0#16
  | .rrc .. => 0xFFE0#16
  | .swap .. => 0xFFE0#16
  | .usr1 .. => 0xFFE0#16
  | .usr2 .. => 0xFFE0#16
  | .usr3 .. => 0xFFE0#16
  | .usr4 .. => 0xFFE0#16
  | .restore => 0xFFFF#16
  | .tret .. => 0xFFE0#16
  | .st8d .. => 0xFFE0#16
  | .st16d .. => 0xFFE0#16
  | .fill8 .. => 0xFFE0#16
  | .fill16 .. => 0xFFE0#16
  | .mstep .. => 0xFFE0#16
  | .mul .. => 0xFFE0#16
  | .skprz .. => 0xFFE0#16
  | .skps .. => 0xFFF0#16
  | .wrctl .. => 0xFFE0#16
  | .rdctl .. => 0xFFE0#16
  | .skprnz .. => 0xFFE0#16
  | .jmp .. => 0xFFE0#16
  | .call .. => 0xFFE0#16
  | .br .. => 0xF800#16
  | .bsr .. => 0xF800#16
  | .pfx .. => 0xF800#16
  | .stp .. => 0xF000#16
  | .ldp .. => 0xF000#16
  | .sts .. => 0xE000#16
  | .lds .. => 0xE000#16

/-- The match of an instruction's row of the opcode table. -/
def opcodeMatch : Instr → Half
  | .add .. => 0x0000#16
  | .addi .. => 0x0400#16
  | .sub .. => 0x0800#16
  | .subi .. => 0x0C00#16
  | .cmp .. => 0x1000#16
  | .cmpi .. => 0x1400#16
  | .lsl .. => 0x1800#16
  | .lsli .. => 0x1C00#16
  | .lsr .. => 0x2000#16
  | .lsri .. => 0x2400#16
  | .asr .. => 0x2800#16
  | .asri .. => 0x2C00#16
  | .mov .. => 0x3000#16
  | .movi .. => 0x3400#16
  | .and .. => 0x3800#16
  | .andn .. => 0x3C00#16
  | .or .. => 0x4000#16
  | .xor .. => 0x4400#16
  | .bgen .. => 0x4800#16
  | .ext8d .. => 0x4C00#16
  | .skp0 .. => 0x5000#16
  | .skp1 .. => 0x5400#16
  | .ld .. => 0x5800#16
  | .st .. => 0x5C00#16
  | .sts8s .. => 0x6000#16
  | .sts16s .. => 0x6400#16
  | .ext16d .. => 0x6800#16
  | .movhi .. => 0x6C00#16
  | .usr0 .. => 0x7000#16
  | .ext8s .. => 0x7400#16
  | .ext16s .. => 0x7480#16
  | .st8s .. => 0x7600#16
  | .st16s .. => 0x7680#16
  | .save .. => 0x7800#16
  | .trap .. => 0x7900#16
  | .not .. => 0x7C00#16
  | .neg .. => 0x7C20#16
  | .abs .. => 0x7C40#16
  | .sext8 .. => 0x7C60#16
  | .sext16 .. => 0x7C80#16
  | .rlc .. => 0x7CA0#16
  | .rrc .. => 0x7CC0#16
  | .swap .. => 0x7D00#16
  | .usr1 .. => 0x7D20#16
  | .usr2 .. => 0x7D40#16
  | .usr3 .. => 0x7D60#16
  | .usr4 .. => 0x7D80#16
  | .restore => 0x7DA0#16
  | .tret .. => 0x7DC0#16
  | .st8d .. => 0x7E00#16
  | .st16d .. => 0x7E20#16
  | .fill8 .. => 0x7E40#16
  | .fill16 .. => 0x7E60#16
  | .mstep .. => 0x7E80#16
  | .mul .. => 0x7EA0#16
  | .skprz .. => 0x7EC0#16
  | .skps .. => 0x7EE0#16
  | .wrctl .. => 0x7F00#16
  | .rdctl .. => 0x7F20#16
  | .skprnz .. => 0x7F40#16
  | .jmp .. => 0x7FC0#16
  | .call .. => 0x7FE0#16
  | .br .. => 0x8000#16
  | .bsr .. => 0x8800#16
  | .pfx .. => 0x9800#16
  | .stp .. => 0xA000#16
  | .ldp .. => 0xB000#16
  | .sts .. => 0xC000#16
  | .lds .. => 0xE000#16

/-- The word of the instruction has the fixed bits of its row. -/
def EncodeMatches.Statement (i : Instr) : Prop := encode i &&& opcodeMask i = opcodeMatch i

theorem encodeRR_mask (op6 : BitVec 6) (b a : BitVec 5) : encodeRR op6 b a &&& 0xFC00#16 = op6 ++ 0#10 := by
  apply BitVec.eq_of_getLsbD_eq
  intro i hi
  simp only [encodeRR, BitVec.getLsbD_and, BitVec.getLsbD_append]
  obtain ⟨j, rfl⟩ : ∃ j : Fin 16, i = j.val := ⟨⟨i, hi⟩, rfl⟩
  fin_cases j <;> simp

theorem encodeRw_mask (op5w a : BitVec 5) : encodeRw op5w a &&& 0xFFE0#16 = 0b011111#6 ++ op5w ++ 0#5 := by
  apply BitVec.eq_of_getLsbD_eq
  intro i hi
  simp only [encodeRw, BitVec.getLsbD_and, BitVec.getLsbD_append]
  obtain ⟨j, rfl⟩ : ∃ j : Fin 16, i = j.val := ⟨⟨i, hi⟩, rfl⟩
  fin_cases j <;> simp

theorem EncodeMatches.add (a : RegNum) (b : RegNum) : EncodeMatches.Statement (.add a b) := by
  simp only [EncodeMatches.Statement, encode, opcodeMask, opcodeMatch, encodeRR_mask]
  rfl

theorem EncodeMatches.addi (a : RegNum) (imm5 : BitVec 5) : EncodeMatches.Statement (.addi a imm5) := by
  simp only [EncodeMatches.Statement, encode, opcodeMask, opcodeMatch, encodeRR_mask]
  rfl

theorem EncodeMatches.sub (a : RegNum) (b : RegNum) : EncodeMatches.Statement (.sub a b) := by
  simp only [EncodeMatches.Statement, encode, opcodeMask, opcodeMatch, encodeRR_mask]
  rfl

theorem EncodeMatches.subi (a : RegNum) (imm5 : BitVec 5) : EncodeMatches.Statement (.subi a imm5) := by
  simp only [EncodeMatches.Statement, encode, opcodeMask, opcodeMatch, encodeRR_mask]
  rfl

theorem EncodeMatches.cmp (a : RegNum) (b : RegNum) : EncodeMatches.Statement (.cmp a b) := by
  simp only [EncodeMatches.Statement, encode, opcodeMask, opcodeMatch, encodeRR_mask]
  rfl

theorem EncodeMatches.cmpi (a : RegNum) (imm5 : BitVec 5) : EncodeMatches.Statement (.cmpi a imm5) := by
  simp only [EncodeMatches.Statement, encode, opcodeMask, opcodeMatch, encodeRR_mask]
  rfl

theorem EncodeMatches.lsl (a : RegNum) (b : RegNum) : EncodeMatches.Statement (.lsl a b) := by
  simp only [EncodeMatches.Statement, encode, opcodeMask, opcodeMatch, encodeRR_mask]
  rfl

theorem EncodeMatches.lsli (a : RegNum) (imm5 : BitVec 5) : EncodeMatches.Statement (.lsli a imm5) := by
  simp only [EncodeMatches.Statement, encode, opcodeMask, opcodeMatch, encodeRR_mask]
  rfl

theorem EncodeMatches.lsr (a : RegNum) (b : RegNum) : EncodeMatches.Statement (.lsr a b) := by
  simp only [EncodeMatches.Statement, encode, opcodeMask, opcodeMatch, encodeRR_mask]
  rfl

theorem EncodeMatches.lsri (a : RegNum) (imm5 : BitVec 5) : EncodeMatches.Statement (.lsri a imm5) := by
  simp only [EncodeMatches.Statement, encode, opcodeMask, opcodeMatch, encodeRR_mask]
  rfl

theorem EncodeMatches.asr (a : RegNum) (b : RegNum) : EncodeMatches.Statement (.asr a b) := by
  simp only [EncodeMatches.Statement, encode, opcodeMask, opcodeMatch, encodeRR_mask]
  rfl

theorem EncodeMatches.asri (a : RegNum) (imm5 : BitVec 5) : EncodeMatches.Statement (.asri a imm5) := by
  simp only [EncodeMatches.Statement, encode, opcodeMask, opcodeMatch, encodeRR_mask]
  rfl

theorem EncodeMatches.mov (a : RegNum) (b : RegNum) : EncodeMatches.Statement (.mov a b) := by
  simp only [EncodeMatches.Statement, encode, opcodeMask, opcodeMatch, encodeRR_mask]
  rfl

theorem EncodeMatches.movi (a : RegNum) (imm5 : BitVec 5) : EncodeMatches.Statement (.movi a imm5) := by
  simp only [EncodeMatches.Statement, encode, opcodeMask, opcodeMatch, encodeRR_mask]
  rfl

theorem EncodeMatches.and (a : RegNum) (o : LogicOperand) : EncodeMatches.Statement (.and a o) := by
  simp only [EncodeMatches.Statement, encode, opcodeMask, opcodeMatch, encodeRR_mask]
  rfl

theorem EncodeMatches.andn (a : RegNum) (o : LogicOperand) : EncodeMatches.Statement (.andn a o) := by
  simp only [EncodeMatches.Statement, encode, opcodeMask, opcodeMatch, encodeRR_mask]
  rfl

theorem EncodeMatches.or (a : RegNum) (o : LogicOperand) : EncodeMatches.Statement (.or a o) := by
  simp only [EncodeMatches.Statement, encode, opcodeMask, opcodeMatch, encodeRR_mask]
  rfl

theorem EncodeMatches.xor (a : RegNum) (o : LogicOperand) : EncodeMatches.Statement (.xor a o) := by
  simp only [EncodeMatches.Statement, encode, opcodeMask, opcodeMatch, encodeRR_mask]
  rfl

theorem EncodeMatches.bgen (a : RegNum) (imm5 : BitVec 5) : EncodeMatches.Statement (.bgen a imm5) := by
  simp only [EncodeMatches.Statement, encode, opcodeMask, opcodeMatch, encodeRR_mask]
  rfl

theorem EncodeMatches.ext8d (a : RegNum) (b : RegNum) : EncodeMatches.Statement (.ext8d a b) := by
  simp only [EncodeMatches.Statement, encode, opcodeMask, opcodeMatch, encodeRR_mask]
  rfl

theorem EncodeMatches.skp0 (a : RegNum) (imm5 : BitVec 5) : EncodeMatches.Statement (.skp0 a imm5) := by
  simp only [EncodeMatches.Statement, encode, opcodeMask, opcodeMatch, encodeRR_mask]
  rfl

theorem EncodeMatches.skp1 (a : RegNum) (imm5 : BitVec 5) : EncodeMatches.Statement (.skp1 a imm5) := by
  simp only [EncodeMatches.Statement, encode, opcodeMask, opcodeMatch, encodeRR_mask]
  rfl

theorem EncodeMatches.ld (a : RegNum) (b : RegNum) : EncodeMatches.Statement (.ld a b) := by
  simp only [EncodeMatches.Statement, encode, opcodeMask, opcodeMatch, encodeRR_mask]
  rfl

theorem EncodeMatches.st (a : RegNum) (b : RegNum) : EncodeMatches.Statement (.st a b) := by
  simp only [EncodeMatches.Statement, encode, opcodeMask, opcodeMatch, encodeRR_mask]
  rfl

theorem EncodeMatches.sts8s (imm10 : BitVec 10) : EncodeMatches.Statement (.sts8s imm10) := by
  apply BitVec.eq_of_getLsbD_eq
  intro i hi
  simp only [encode, opcodeMask, opcodeMatch, BitVec.getLsbD_and, BitVec.getLsbD_append]
  obtain ⟨j, rfl⟩ : ∃ j : Fin 16, i = j.val := ⟨⟨i, hi⟩, rfl⟩
  fin_cases j <;> simp

theorem EncodeMatches.sts16s (imm9 : BitVec 9) : EncodeMatches.Statement (.sts16s imm9) := by
  apply BitVec.eq_of_getLsbD_eq
  intro i hi
  simp only [encode, opcodeMask, opcodeMatch, BitVec.getLsbD_and, BitVec.getLsbD_append]
  obtain ⟨j, rfl⟩ : ∃ j : Fin 16, i = j.val := ⟨⟨i, hi⟩, rfl⟩
  fin_cases j <;> simp

theorem EncodeMatches.ext16d (a : RegNum) (b : RegNum) : EncodeMatches.Statement (.ext16d a b) := by
  simp only [EncodeMatches.Statement, encode, opcodeMask, opcodeMatch, encodeRR_mask]
  rfl

theorem EncodeMatches.movhi (a : RegNum) (imm5 : BitVec 5) : EncodeMatches.Statement (.movhi a imm5) := by
  simp only [EncodeMatches.Statement, encode, opcodeMask, opcodeMatch, encodeRR_mask]
  rfl

theorem EncodeMatches.usr0 (a : RegNum) (b : RegNum) : EncodeMatches.Statement (.usr0 a b) := by
  simp only [EncodeMatches.Statement, encode, opcodeMask, opcodeMatch, encodeRR_mask]
  rfl

theorem EncodeMatches.ext8s (a : RegNum) (imm2 : BitVec 2) : EncodeMatches.Statement (.ext8s a imm2) := by
  apply BitVec.eq_of_getLsbD_eq
  intro i hi
  simp only [encode, opcodeMask, opcodeMatch, BitVec.getLsbD_and, BitVec.getLsbD_append]
  obtain ⟨j, rfl⟩ : ∃ j : Fin 16, i = j.val := ⟨⟨i, hi⟩, rfl⟩
  fin_cases j <;> simp

theorem EncodeMatches.ext16s (a : RegNum) (imm1 : BitVec 1) : EncodeMatches.Statement (.ext16s a imm1) := by
  apply BitVec.eq_of_getLsbD_eq
  intro i hi
  simp only [encode, opcodeMask, opcodeMatch, BitVec.getLsbD_and, BitVec.getLsbD_append]
  obtain ⟨j, rfl⟩ : ∃ j : Fin 16, i = j.val := ⟨⟨i, hi⟩, rfl⟩
  fin_cases j <;> simp

theorem EncodeMatches.st8s (a : RegNum) (imm2 : BitVec 2) : EncodeMatches.Statement (.st8s a imm2) := by
  apply BitVec.eq_of_getLsbD_eq
  intro i hi
  simp only [encode, opcodeMask, opcodeMatch, BitVec.getLsbD_and, BitVec.getLsbD_append]
  obtain ⟨j, rfl⟩ : ∃ j : Fin 16, i = j.val := ⟨⟨i, hi⟩, rfl⟩
  fin_cases j <;> simp

theorem EncodeMatches.st16s (a : RegNum) (imm1 : BitVec 1) : EncodeMatches.Statement (.st16s a imm1) := by
  apply BitVec.eq_of_getLsbD_eq
  intro i hi
  simp only [encode, opcodeMask, opcodeMatch, BitVec.getLsbD_and, BitVec.getLsbD_append]
  obtain ⟨j, rfl⟩ : ∃ j : Fin 16, i = j.val := ⟨⟨i, hi⟩, rfl⟩
  fin_cases j <;> simp

theorem EncodeMatches.save (imm8 : BitVec 8) : EncodeMatches.Statement (.save imm8) := by
  apply BitVec.eq_of_getLsbD_eq
  intro i hi
  simp only [encode, opcodeMask, opcodeMatch, BitVec.getLsbD_and, BitVec.getLsbD_append]
  obtain ⟨j, rfl⟩ : ∃ j : Fin 16, i = j.val := ⟨⟨i, hi⟩, rfl⟩
  fin_cases j <;> simp

theorem EncodeMatches.trap (imm6 : BitVec 6) : EncodeMatches.Statement (.trap imm6) := by
  apply BitVec.eq_of_getLsbD_eq
  intro i hi
  simp only [encode, opcodeMask, opcodeMatch, BitVec.getLsbD_and, BitVec.getLsbD_append]
  obtain ⟨j, rfl⟩ : ∃ j : Fin 16, i = j.val := ⟨⟨i, hi⟩, rfl⟩
  fin_cases j <;> simp

theorem EncodeMatches.not (a : RegNum) : EncodeMatches.Statement (.not a) := by
  simp only [EncodeMatches.Statement, encode, opcodeMask, opcodeMatch, encodeRw_mask]
  rfl

theorem EncodeMatches.neg (a : RegNum) : EncodeMatches.Statement (.neg a) := by
  simp only [EncodeMatches.Statement, encode, opcodeMask, opcodeMatch, encodeRw_mask]
  rfl

theorem EncodeMatches.abs (a : RegNum) : EncodeMatches.Statement (.abs a) := by
  simp only [EncodeMatches.Statement, encode, opcodeMask, opcodeMatch, encodeRw_mask]
  rfl

theorem EncodeMatches.sext8 (a : RegNum) : EncodeMatches.Statement (.sext8 a) := by
  simp only [EncodeMatches.Statement, encode, opcodeMask, opcodeMatch, encodeRw_mask]
  rfl

theorem EncodeMatches.sext16 (a : RegNum) : EncodeMatches.Statement (.sext16 a) := by
  simp only [EncodeMatches.Statement, encode, opcodeMask, opcodeMatch, encodeRw_mask]
  rfl

theorem EncodeMatches.rlc (a : RegNum) : EncodeMatches.Statement (.rlc a) := by
  simp only [EncodeMatches.Statement, encode, opcodeMask, opcodeMatch, encodeRw_mask]
  rfl

theorem EncodeMatches.rrc (a : RegNum) : EncodeMatches.Statement (.rrc a) := by
  simp only [EncodeMatches.Statement, encode, opcodeMask, opcodeMatch, encodeRw_mask]
  rfl

theorem EncodeMatches.swap (a : RegNum) : EncodeMatches.Statement (.swap a) := by
  simp only [EncodeMatches.Statement, encode, opcodeMask, opcodeMatch, encodeRw_mask]
  rfl

theorem EncodeMatches.usr1 (a : RegNum) : EncodeMatches.Statement (.usr1 a) := by
  simp only [EncodeMatches.Statement, encode, opcodeMask, opcodeMatch, encodeRw_mask]
  rfl

theorem EncodeMatches.usr2 (a : RegNum) : EncodeMatches.Statement (.usr2 a) := by
  simp only [EncodeMatches.Statement, encode, opcodeMask, opcodeMatch, encodeRw_mask]
  rfl

theorem EncodeMatches.usr3 (a : RegNum) : EncodeMatches.Statement (.usr3 a) := by
  simp only [EncodeMatches.Statement, encode, opcodeMask, opcodeMatch, encodeRw_mask]
  rfl

theorem EncodeMatches.usr4 (a : RegNum) : EncodeMatches.Statement (.usr4 a) := by
  simp only [EncodeMatches.Statement, encode, opcodeMask, opcodeMatch, encodeRw_mask]
  rfl

theorem EncodeMatches.restore : EncodeMatches.Statement .restore := by
  unfold EncodeMatches.Statement
  decide

theorem EncodeMatches.tret (a : RegNum) : EncodeMatches.Statement (.tret a) := by
  simp only [EncodeMatches.Statement, encode, opcodeMask, opcodeMatch, encodeRw_mask]
  rfl

theorem EncodeMatches.st8d (a : RegNum) : EncodeMatches.Statement (.st8d a) := by
  simp only [EncodeMatches.Statement, encode, opcodeMask, opcodeMatch, encodeRw_mask]
  rfl

theorem EncodeMatches.st16d (a : RegNum) : EncodeMatches.Statement (.st16d a) := by
  simp only [EncodeMatches.Statement, encode, opcodeMask, opcodeMatch, encodeRw_mask]
  rfl

theorem EncodeMatches.fill8 (a : RegNum) : EncodeMatches.Statement (.fill8 a) := by
  simp only [EncodeMatches.Statement, encode, opcodeMask, opcodeMatch, encodeRw_mask]
  rfl

theorem EncodeMatches.fill16 (a : RegNum) : EncodeMatches.Statement (.fill16 a) := by
  simp only [EncodeMatches.Statement, encode, opcodeMask, opcodeMatch, encodeRw_mask]
  rfl

theorem EncodeMatches.mstep (a : RegNum) : EncodeMatches.Statement (.mstep a) := by
  simp only [EncodeMatches.Statement, encode, opcodeMask, opcodeMatch, encodeRw_mask]
  rfl

theorem EncodeMatches.mul (a : RegNum) : EncodeMatches.Statement (.mul a) := by
  simp only [EncodeMatches.Statement, encode, opcodeMask, opcodeMatch, encodeRw_mask]
  rfl

theorem EncodeMatches.skprz (a : RegNum) : EncodeMatches.Statement (.skprz a) := by
  simp only [EncodeMatches.Statement, encode, opcodeMask, opcodeMatch, encodeRw_mask]
  rfl

theorem EncodeMatches.skps (imm4 : BitVec 4) : EncodeMatches.Statement (.skps imm4) := by
  revert imm4
  unfold EncodeMatches.Statement
  decide

theorem EncodeMatches.wrctl (a : RegNum) : EncodeMatches.Statement (.wrctl a) := by
  simp only [EncodeMatches.Statement, encode, opcodeMask, opcodeMatch, encodeRw_mask]
  rfl

theorem EncodeMatches.rdctl (a : RegNum) : EncodeMatches.Statement (.rdctl a) := by
  simp only [EncodeMatches.Statement, encode, opcodeMask, opcodeMatch, encodeRw_mask]
  rfl

theorem EncodeMatches.skprnz (a : RegNum) : EncodeMatches.Statement (.skprnz a) := by
  simp only [EncodeMatches.Statement, encode, opcodeMask, opcodeMatch, encodeRw_mask]
  rfl

theorem EncodeMatches.jmp (a : RegNum) : EncodeMatches.Statement (.jmp a) := by
  simp only [EncodeMatches.Statement, encode, opcodeMask, opcodeMatch, encodeRw_mask]
  rfl

theorem EncodeMatches.call (a : RegNum) : EncodeMatches.Statement (.call a) := by
  simp only [EncodeMatches.Statement, encode, opcodeMask, opcodeMatch, encodeRw_mask]
  rfl

theorem EncodeMatches.br (imm11 : BitVec 11) : EncodeMatches.Statement (.br imm11) := by
  apply BitVec.eq_of_getLsbD_eq
  intro i hi
  simp only [encode, opcodeMask, opcodeMatch, BitVec.getLsbD_and, BitVec.getLsbD_append]
  obtain ⟨j, rfl⟩ : ∃ j : Fin 16, i = j.val := ⟨⟨i, hi⟩, rfl⟩
  fin_cases j <;> simp

theorem EncodeMatches.bsr (imm11 : BitVec 11) : EncodeMatches.Statement (.bsr imm11) := by
  apply BitVec.eq_of_getLsbD_eq
  intro i hi
  simp only [encode, opcodeMask, opcodeMatch, BitVec.getLsbD_and, BitVec.getLsbD_append]
  obtain ⟨j, rfl⟩ : ∃ j : Fin 16, i = j.val := ⟨⟨i, hi⟩, rfl⟩
  fin_cases j <;> simp

theorem EncodeMatches.pfx (imm11 : BitVec 11) : EncodeMatches.Statement (.pfx imm11) := by
  apply BitVec.eq_of_getLsbD_eq
  intro i hi
  simp only [encode, opcodeMask, opcodeMatch, BitVec.getLsbD_and, BitVec.getLsbD_append]
  obtain ⟨j, rfl⟩ : ∃ j : Fin 16, i = j.val := ⟨⟨i, hi⟩, rfl⟩
  fin_cases j <;> simp

theorem EncodeMatches.stp (a : RegNum) (p : BitVec 2) (imm5 : BitVec 5) : EncodeMatches.Statement (.stp a p imm5) := by
  apply BitVec.eq_of_getLsbD_eq
  intro i hi
  simp only [encode, opcodeMask, opcodeMatch, BitVec.getLsbD_and, BitVec.getLsbD_append]
  obtain ⟨j, rfl⟩ : ∃ j : Fin 16, i = j.val := ⟨⟨i, hi⟩, rfl⟩
  fin_cases j <;> simp

theorem EncodeMatches.ldp (a : RegNum) (p : BitVec 2) (imm5 : BitVec 5) : EncodeMatches.Statement (.ldp a p imm5) := by
  apply BitVec.eq_of_getLsbD_eq
  intro i hi
  simp only [encode, opcodeMask, opcodeMatch, BitVec.getLsbD_and, BitVec.getLsbD_append]
  obtain ⟨j, rfl⟩ : ∃ j : Fin 16, i = j.val := ⟨⟨i, hi⟩, rfl⟩
  fin_cases j <;> simp

theorem EncodeMatches.sts (a : RegNum) (imm8 : BitVec 8) : EncodeMatches.Statement (.sts a imm8) := by
  apply BitVec.eq_of_getLsbD_eq
  intro i hi
  simp only [encode, opcodeMask, opcodeMatch, BitVec.getLsbD_and, BitVec.getLsbD_append]
  obtain ⟨j, rfl⟩ : ∃ j : Fin 16, i = j.val := ⟨⟨i, hi⟩, rfl⟩
  fin_cases j <;> simp

theorem EncodeMatches.lds (a : RegNum) (imm8 : BitVec 8) : EncodeMatches.Statement (.lds a imm8) := by
  apply BitVec.eq_of_getLsbD_eq
  intro i hi
  simp only [encode, opcodeMask, opcodeMatch, BitVec.getLsbD_and, BitVec.getLsbD_append]
  obtain ⟨j, rfl⟩ : ∃ j : Fin 16, i = j.val := ⟨⟨i, hi⟩, rfl⟩
  fin_cases j <;> simp

end Sys2Proof.Laws
end

