-- ==== Sys2Proof/Laws/Request.lean ====
section
/-!
SUPPORT. No instruction looks at the interrupt input: with another request an instruction does the same to the rest of
the state, and stops as it stopped (60_exceptions.md R340; log 22).
-/

namespace Sys2Proof.Machine

/-- The state with another interrupt input. -/
def State.withRequest (s : State) (q : Option (BitVec 6)) : State := { s with request := q }

/-- The answer of an operation, with another interrupt input in the state it answers. -/
def Result.withRequest (o : Result State) (q : Option (BitVec 6)) : Result State :=
  andThen o fun t => .next (t.withRequest q)

variable {s : State} {q : Option (BitVec 6)}

theorem andThen_assoc {α β γ : Type} (o : Result α) (f : α → Result β) (g : β → Result γ) :
    andThen (andThen o f) g = andThen o fun x => andThen (f x) g := by cases o <;> rfl

/-- An operation that reads a value which does not depend on the input, and goes on. -/
theorem withRequest_andThen {α : Type} {o : Result α} {f g : α → Result State}
    (h : ∀ x, g x = (f x).withRequest q) : andThen o g = (andThen o f).withRequest q := by
  rw [Result.withRequest, andThen_assoc]
  congr 1
  exact funext h

/-- An operation that makes a state and goes on from it. -/
theorem withRequest_bind {o p : Result State} {f g : State → Result State} (ho : p = o.withRequest q)
    (h : ∀ t, g (t.withRequest q) = (f t).withRequest q) : andThen p g = (andThen o f).withRequest q := by
  subst ho
  cases o
  · exact h _
  · rfl
  · rfl

theorem withRequest_ite {c : Prop} [Decidable c] {o p o' p' : Result State} (h1 : o' = o.withRequest q)
    (h2 : p' = p.withRequest q) : (if c then o' else p') = (if c then o else p).withRequest q := by
  split <;> assumption

theorem putBytes_withRequest (s : State) (a : Word) (l : List Byte) :
    (s.withRequest q).putBytes a l = (s.putBytes a l).withRequest q := by
  induction l generalizing s a with
  | nil => rfl
  | cons v l ih => exact ih (s.putByte a v) (a + 1#32)

theorem admitsAll_withRequest (a : Word) (n : Nat) : (s.withRequest q).admitsAll a n = s.admitsAll a n :=
  State.admitsAll_congr (s := s) (t := s.withRequest q) rfl a n

theorem writeReg_withRequest (a : RegNum) (v : Word) :
    (s.withRequest q).writeReg a v = (s.writeReg a v).withRequest q := withRequest_ite rfl rfl

theorem assign_withRequest (a : RegNum) (v : Word) :
    (s.withRequest q).assign a v = (s.assign a v).withRequest q :=
  withRequest_bind (writeReg_withRequest a v) fun _ => rfl

theorem mapReg_withRequest (a : RegNum) (f : Word → Word) :
    (s.withRequest q).mapReg a f = (s.mapReg a f).withRequest q :=
  withRequest_andThen fun _ => assign_withRequest a _

theorem mapRegs_withRequest (a b : RegNum) (f : Word → Word → Word) :
    (s.withRequest q).mapRegs a b f = (s.mapRegs a b f).withRequest q :=
  withRequest_andThen fun _ => withRequest_andThen fun _ => assign_withRequest a _

theorem mapZero_withRequest (a : RegNum) (f : Word → Word → Word) :
    (s.withRequest q).mapZero a f = (s.mapZero a f).withRequest q :=
  withRequest_andThen fun _ => withRequest_andThen fun _ => assign_withRequest zeroReg _

theorem addTo_withRequest (a : RegNum) (y : Word) : (s.withRequest q).addTo a y = (s.addTo a y).withRequest q :=
  withRequest_andThen fun _ => assign_withRequest (s := s.setStatus _) a _

theorem subFrom_withRequest (a : RegNum) (y : Word) : (s.withRequest q).subFrom a y = (s.subFrom a y).withRequest q :=
  withRequest_andThen fun _ => assign_withRequest (s := s.setStatus _) a _

theorem compare_withRequest (a : RegNum) (y : Word) : (s.withRequest q).compare a y = (s.compare a y).withRequest q :=
  withRequest_andThen fun _ => rfl

theorem logicOperand_withRequest (o : LogicOperand) : (s.withRequest q).logicOperand o = s.logicOperand o := by
  cases o <;> rfl

theorem logic_withRequest (a : RegNum) (o : LogicOperand) (f : Word → Word → Word) :
    (s.withRequest q).logic a o f = (s.logic a o f).withRequest q := by
  refine withRequest_andThen fun _ => ?_
  rw [logicOperand_withRequest]
  exact withRequest_andThen fun _ => assign_withRequest (s := s.setStatus _) a _

theorem custom_withRequest (l : CustomLogic) (op : Word → Word → Word) (a b : RegNum) :
    (s.withRequest q).custom l op a b = (s.custom l op a b).withRequest q := by
  cases l
  · rfl
  · exact mapRegs_withRequest a b op
  · rfl

theorem load32_withRequest (a : Word) : (s.withRequest q).load32 a = s.load32 a := by
  rw [State.load32, admitsAll_withRequest]
  rfl

theorem store_withRequest (a : Word) (l : List Byte) :
    (s.withRequest q).store a l = (s.store a l).withRequest q := by
  rw [State.store, admitsAll_withRequest, putBytes_withRequest]
  exact withRequest_ite rfl rfl

theorem storeByteLane_withRequest (w : Word) (n : BitVec 2) :
    (s.withRequest q).storeByteLane w n = (s.storeByteLane w n).withRequest q :=
  withRequest_andThen fun _ => withRequest_bind (store_withRequest _ _) fun _ => rfl

theorem storeHalfLane_withRequest (w : Word) (n : BitVec 1) :
    (s.withRequest q).storeHalfLane w n = (s.storeHalfLane w n).withRequest q :=
  withRequest_andThen fun _ => withRequest_bind (store_withRequest _ _) fun _ => rfl

theorem loadTo_withRequest (a : RegNum) (w : Word) : (s.withRequest q).loadTo a w = (s.loadTo a w).withRequest q := by
  rw [State.loadTo, load32_withRequest]
  exact withRequest_andThen fun _ => assign_withRequest a _

theorem storeFrom_withRequest (a : RegNum) (w : Word) :
    (s.withRequest q).storeFrom a w = (s.storeFrom a w).withRequest q :=
  withRequest_andThen fun _ => withRequest_bind (store_withRequest _ _) fun _ => rfl

theorem enterTrapAt_withRequest (n : BitVec 6) (ret : Word) (w : BitVec 5) :
    (s.withRequest q).enterTrapAt n ret w = (s.enterTrapAt n ret w).withRequest q := by
  refine withRequest_bind (writeReg_withRequest (s := s.trapped n w) linkReg _) fun t => ?_
  rw [load32_withRequest]
  exact withRequest_andThen fun _ => rfl

theorem raiseTrap_withRequest (n : BitVec 6) (ret : Word) :
    (s.withRequest q).raiseTrap n ret = (s.raiseTrap n ret).withRequest q :=
  withRequest_ite rfl (enterTrapAt_withRequest n ret _)

theorem skipFrom_withRequest (fuel : Nat) (p : Word) : (s.withRequest q).skipFrom fuel p = s.skipFrom fuel p := by
  induction fuel generalizing p with
  | zero => rfl
  | succ fuel ih => simp only [State.skipFrom, ih, State.fetch16_congr (s := s) (t := s.withRequest q) rfl rfl rfl]

theorem skipIf_withRequest (taken : Bool) : (s.withRequest q).skipIf taken = (s.skipIf taken).withRequest q := by
  refine withRequest_ite ?_ rfl
  rw [skipFrom_withRequest]
  exact withRequest_andThen fun _ => rfl

theorem execMov_withRequest (a b : RegNum) : execMov a b (s.withRequest q) = (execMov a b s).withRequest q :=
  withRequest_ite rfl (withRequest_andThen fun _ => assign_withRequest a _)

theorem execSkps_withRequest (code : BitVec 4) : execSkps code (s.withRequest q) = (execSkps code s).withRequest q := by
  show (match condition s.cfg.cc code s.status with
    | some taken => (s.withRequest q).skipIf taken
    | none => .fault .badCondition) = _
  rw [execSkps]
  cases condition s.cfg.cc code s.status
  · rfl
  · exact skipIf_withRequest _

theorem execSave_withRequest (imm8 : BitVec 8) : execSave imm8 (s.withRequest q) = (execSave imm8 s).withRequest q :=
  withRequest_ite rfl <| withRequest_andThen fun _ =>
    withRequest_bind (writeReg_withRequest (s := s.setStatus _) _ _) fun _ =>
    withRequest_ite (withRequest_ite rfl (enterTrapAt_withRequest _ _ _)) rfl

theorem execRestore_withRequest : execRestore (s.withRequest q) = (execRestore s).withRequest q :=
  withRequest_ite rfl <| withRequest_ite
    (withRequest_ite rfl (raiseTrap_withRequest (s := s.setStatus _) _ _)) rfl

theorem execWrctl_withRequest (a : RegNum) : execWrctl a (s.withRequest q) = (execWrctl a s).withRequest q :=
  withRequest_andThen fun _ => withRequest_ite (withRequest_ite rfl rfl) <| withRequest_ite rfl <| withRequest_ite rfl rfl

theorem execRdctl_withRequest (a : RegNum) : execRdctl a (s.withRequest q) = (execRdctl a s).withRequest q :=
  withRequest_ite (assign_withRequest a _) <| withRequest_ite (assign_withRequest a _) <|
    withRequest_ite (assign_withRequest a _) rfl

/-- What an instruction does, it does whatever is requested. -/
theorem exec_withRequest (i : Instr) : exec i (s.withRequest q) = Result.withRequest (exec i s) q := by
  cases i with
  | add a b => exact withRequest_andThen fun _ => addTo_withRequest a _
  | addi a imm5 => exact addTo_withRequest a _
  | sub a b => exact withRequest_andThen fun _ => subFrom_withRequest a _
  | subi a imm5 => exact subFrom_withRequest a _
  | cmp a b => exact withRequest_andThen fun _ => compare_withRequest a _
  | cmpi a imm5 => exact compare_withRequest a _
  | lsl a b | lsr a b | asr a b | ext8d a b | ext16d a b => exact mapRegs_withRequest a b _
  | lsli a _ | lsri a _ | asri a _ | movhi a _ | ext8s a _ | ext16s a _ => exact mapReg_withRequest a _
  | not a | neg a | abs a | sext8 a | sext16 a | swap a => exact mapReg_withRequest a _
  | mov a b => exact execMov_withRequest a b
  | movi a imm5 | bgen a imm5 => exact assign_withRequest a _
  | and a o | andn a o | or a o | xor a o => exact logic_withRequest a o _
  | rlc a | rrc a => exact withRequest_andThen fun _ => assign_withRequest (s := s.setStatus _) a _
  | skp0 a _ | skp1 a _ => exact withRequest_andThen fun _ => skipIf_withRequest _
  | skprz a | skprnz a => exact withRequest_andThen fun _ => skipIf_withRequest _
  | skps code => exact execSkps_withRequest code
  | ld a b => exact withRequest_andThen fun _ => loadTo_withRequest a _
  | ldp a p _ => exact withRequest_andThen fun _ => loadTo_withRequest a _
  | lds a _ => exact withRequest_andThen fun _ => loadTo_withRequest a _
  | st a b => exact withRequest_andThen fun _ => storeFrom_withRequest a _
  | stp a p _ => exact withRequest_andThen fun _ => storeFrom_withRequest a _
  | sts a _ => exact withRequest_andThen fun _ => storeFrom_withRequest a _
  | st8d _ | st8s _ _ | sts8s _ => exact withRequest_andThen fun _ => storeByteLane_withRequest _ _
  | st16d _ | st16s _ _ | sts16s _ => exact withRequest_andThen fun _ => storeHalfLane_withRequest _ _
  | usr0 a b => exact custom_withRequest _ _ a b
  | usr1 a | usr2 a | usr3 a | usr4 a => exact custom_withRequest _ _ a _
  | save imm8 => exact execSave_withRequest imm8
  | restore => exact execRestore_withRequest
  | trap n => exact raiseTrap_withRequest n _
  | tret a => exact withRequest_andThen fun _ => withRequest_ite rfl rfl
  | fill8 a | fill16 a => exact withRequest_andThen fun _ => assign_withRequest zeroReg _
  | mstep a => exact mapZero_withRequest a _
  | mul a =>
    unfold exec execMul
    exact mapZero_withRequest a _
  | wrctl a => exact execWrctl_withRequest a
  | rdctl a => exact execRdctl_withRequest a
  | jmp a => exact withRequest_andThen fun _ => rfl
  | call a =>
    refine withRequest_andThen fun _ => ?_
    exact withRequest_bind (writeReg_withRequest linkReg _) fun _ => rfl
  | br _ => rfl
  | bsr _ =>
    refine withRequest_bind (writeReg_withRequest linkReg _) ?_
    exact fun _ => rfl
  | pfx _ => rfl

end Sys2Proof.Machine
end

