-- ==== Sys2Proof/Tests/Slice0.lean ====
section
/-!
SUPPORT. Tests of the model. The words of the decoding tests are written bit by bit from the formats and opcodes of
30_encoding.md R91, R92, R100; what the one-step tests expect is taken from the vectors of 95_test_vectors.md, whose
name stands behind each. Then, for every statement with hypotheses, a state that meets them.
-/

namespace Sys2Proof.Tests

open Sys2Proof.Machine Sys2Proof.Claims

-- One theorem after the other: elaborated at once, the many small ones take a thread each.
set_option Elab.async false

/-! ### What the types do not check -/

theorem test_wellFormed_refuses_immediate_without_pfx :
    (Instr.and 1#5 (.imm 2#5)).wellFormed false = false ∧ (Instr.andn 1#5 (.imm 2#5)).wellFormed false = false ∧
      (Instr.or 1#5 (.imm 2#5)).wellFormed false = false ∧ (Instr.xor 1#5 (.imm 2#5)).wellFormed false = false := by
  decide

theorem test_wellFormed_refuses_register_after_pfx :
    (Instr.and 1#5 (.reg 2#5)).wellFormed true = false ∧ (Instr.andn 1#5 (.reg 2#5)).wellFormed true = false ∧
      (Instr.or 1#5 (.reg 2#5)).wellFormed true = false ∧ (Instr.xor 1#5 (.reg 2#5)).wellFormed true = false := by
  decide

theorem test_config_default : Config.default.wellFormed = true := by decide

theorem test_config_refuses_nwin :
    { Config.default with nwin := 1 }.nwinOk = false ∧ { Config.default with nwin := 32 }.wellFormed = false ∧
      { Config.default with nwin := 2 }.nwinOk = true := by decide

theorem test_config_refuses_addrBits :
    { Config.default with addrBits := 33 }.wellFormed = false ∧ { Config.default with addrBits := 1 }.addrBitsOk = false ∧
      { Config.default with addrBits := 16, admitted := [⟨0, 65536⟩] }.wellFormed = true := by decide

theorem test_config_refuses_vecbase :
    { Config.default with vecbase := 0x102#32 }.wellFormed = false ∧
      { Config.default with addrBits := 16, vecbase := 0x10000#32 }.vecbaseOk = false := by decide

theorem test_config_refuses_admitted :
    { Config.default with admitted := [⟨0, 16⟩, ⟨4294967295, 2⟩] }.wellFormed = false := by decide

theorem test_config_refuses_stack :
    { Config.default with spReg := 15#5, fpReg := 31#5 }.wellFormed = false ∧
      { Config.default with fpReg := 29#5 }.wellFormed = false ∧
      { Config.default with spReg := 13#5, fpReg := 29#5 }.wellFormed = true := by decide

/-- Two fields that overlap, and one that leaves the register. -/
theorem test_config_refuses_layout :
    { Config.default.layout with ipri := 8 }.wellFormed = false ∧
      { Config.default.layout with ipri := 27 }.wellFormed = false ∧
      { Config.default.layout with ipri := 26 }.wellFormed = true := by decide

theorem test_config_refuses_ctl :
    { Config.default with ctlIstatus := 0#11 }.wellFormed = false ∧
      { Config.default with ctlWvalid := 1#11 }.wellFormed = false := by decide

/-- A numbering that is too short, and one that names a condition twice. -/
theorem test_config_refuses_cc :
    { Config.default with cc := Config.default.cc.take 15 }.wellFormed = false ∧
      { Config.default with cc := Config.default.cc.set 15 (some .c) }.wellFormed = false ∧
      { Config.default with cc := Config.default.cc.reverse }.wellFormed = true := by decide

theorem test_config_refuses_reset :
    { Config.default with resetPc := 0x1001#32 }.wellFormed = false ∧
      { Config.default with nwin := 6 }.wellFormed = false := by decide

/-! ### Decoding, and encoding back -/

/-- The word is the instruction's, both ways. -/
def isWordOf (w : Half) (i : Instr) : Bool :=
  encode i == w &&
    match decode w false with
    | .ok j => j == i
    | .error _ => false

/-- Format RR. -/
theorem test_words_rr :
    isWordOf 0b000000_00010_00001#16 (.add 1#5 2#5) ∧ isWordOf 0b000010_11110_00001#16 (.sub 1#5 30#5) ∧
      isWordOf 0b000100_00010_00001#16 (.cmp 1#5 2#5) ∧ isWordOf 0b000110_00010_00001#16 (.lsl 1#5 2#5) ∧
      isWordOf 0b001000_00010_00001#16 (.lsr 1#5 2#5) ∧ isWordOf 0b001010_00010_00001#16 (.asr 1#5 2#5) ∧
      isWordOf 0b001100_00010_00001#16 (.mov 1#5 2#5) ∧ isWordOf 0b001110_00010_00001#16 (.and 1#5 (.reg 2#5)) ∧
      isWordOf 0b001111_00010_00001#16 (.andn 1#5 (.reg 2#5)) ∧
      isWordOf 0b010000_00010_00001#16 (.or 1#5 (.reg 2#5)) ∧
      isWordOf 0b010001_00010_00001#16 (.xor 1#5 (.reg 2#5)) ∧ isWordOf 0b010011_00010_00001#16 (.ext8d 1#5 2#5) ∧
      isWordOf 0b010110_00010_00001#16 (.ld 1#5 2#5) ∧ isWordOf 0b010111_00010_00001#16 (.st 1#5 2#5) ∧
      isWordOf 0b011010_00010_00001#16 (.ext16d 1#5 2#5) ∧ isWordOf 0b011100_00010_00001#16 (.usr0 1#5 2#5) := by
  decide

/-- Format Ri5. -/
theorem test_words_ri5 :
    isWordOf 0b000001_10010_00001#16 (.addi 1#5 18#5) ∧ isWordOf 0b000011_10010_00001#16 (.subi 1#5 18#5) ∧
      isWordOf 0b000101_10010_00001#16 (.cmpi 1#5 18#5) ∧ isWordOf 0b000111_10010_00001#16 (.lsli 1#5 18#5) ∧
      isWordOf 0b001001_10010_00001#16 (.lsri 1#5 18#5) ∧ isWordOf 0b001011_10010_00001#16 (.asri 1#5 18#5) ∧
      isWordOf 0b001101_10010_00001#16 (.movi 1#5 18#5) ∧ isWordOf 0b010010_10010_00001#16 (.bgen 1#5 18#5) ∧
      isWordOf 0b010100_10010_00001#16 (.skp0 1#5 18#5) ∧ isWordOf 0b010101_10010_00001#16 (.skp1 1#5 18#5) ∧
      isWordOf 0b011011_10010_00001#16 (.movhi 1#5 18#5) := by decide

/-- Formats i10, i9, Ri2u, Ri1u, i8v, i6v. -/
theorem test_words_op6 :
    isWordOf 0b011000_1000000001#16 (.sts8s 513#10) ∧ isWordOf 0b011001_100000001_0#16 (.sts16s 257#9) ∧
      isWordOf 0b011101_000_10_00001#16 (.ext8s 1#5 2#2) ∧ isWordOf 0b011101_001_1_0_00001#16 (.ext16s 1#5 1#1) ∧
      isWordOf 0b011101_100_10_00001#16 (.st8s 1#5 2#2) ∧ isWordOf 0b011101_101_1_0_00001#16 (.st16s 1#5 1#1) ∧
      isWordOf 0b011110_00_10000001#16 (.save 129#8) ∧ isWordOf 0b011110_01_00_100001#16 (.trap 33#6) := by decide

/-- Formats Rw and i4w, up to op5w 01110. -/
theorem test_words_rw_low :
    isWordOf 0b011111_00000_00001#16 (.not 1#5) ∧ isWordOf 0b011111_00001_00001#16 (.neg 1#5) ∧
      isWordOf 0b011111_00010_00001#16 (.abs 1#5) ∧ isWordOf 0b011111_00011_00001#16 (.sext8 1#5) ∧
      isWordOf 0b011111_00100_00001#16 (.sext16 1#5) ∧ isWordOf 0b011111_00101_00001#16 (.rlc 1#5) ∧
      isWordOf 0b011111_00110_00001#16 (.rrc 1#5) ∧ isWordOf 0b011111_01000_00001#16 (.swap 1#5) ∧
      isWordOf 0b011111_01001_00001#16 (.usr1 1#5) ∧ isWordOf 0b011111_01010_00001#16 (.usr2 1#5) ∧
      isWordOf 0b011111_01011_00001#16 (.usr3 1#5) ∧ isWordOf 0b011111_01100_00001#16 (.usr4 1#5) ∧
      isWordOf 0b011111_01101_00000#16 .restore ∧ isWordOf 0b011111_01110_00001#16 (.tret 1#5) := by decide

/-- Formats Rw and i4w, from op5w 10000. -/
theorem test_words_rw_high :
    isWordOf 0b011111_10000_00001#16 (.st8d 1#5) ∧ isWordOf 0b011111_10001_00001#16 (.st16d 1#5) ∧
      isWordOf 0b011111_10010_00001#16 (.fill8 1#5) ∧ isWordOf 0b011111_10011_00001#16 (.fill16 1#5) ∧
      isWordOf 0b011111_10100_00001#16 (.mstep 1#5) ∧ isWordOf 0b011111_10101_00001#16 (.mul 1#5) ∧
      isWordOf 0b011111_10110_00001#16 (.skprz 1#5) ∧ isWordOf 0b011111_10111_0_1001#16 (.skps 9#4) ∧
      isWordOf 0b011111_11000_00001#16 (.wrctl 1#5) ∧ isWordOf 0b011111_11001_00001#16 (.rdctl 1#5) ∧
      isWordOf 0b011111_11010_00001#16 (.skprnz 1#5) ∧ isWordOf 0b011111_11110_00001#16 (.jmp 1#5) ∧
      isWordOf 0b011111_11111_00001#16 (.call 1#5) := by decide

/-- Formats i11, RPi5, Ri8. -/
theorem test_words_high :
    isWordOf 0b10000_10000000001#16 (.br 0x401#11) ∧ isWordOf 0b10001_10000000001#16 (.bsr 0x401#11) ∧
      isWordOf 0b10011_10000000001#16 (.pfx 0x401#11) ∧ isWordOf 0b1010_10_10010_00001#16 (.stp 1#5 2#2 18#5) ∧
      isWordOf 0b1011_10_10010_00001#16 (.ldp 1#5 2#2 18#5) ∧ isWordOf 0b110_10000001_00001#16 (.sts 1#5 129#8) ∧
      isWordOf 0b111_10000001_00001#16 (.lds 1#5 129#8) := by decide

/-- The same bits are an immediate after PFX (30_encoding.md R102). -/
theorem test_words_after_pfx :
    decode 0b001110_00010_00001#16 true = .ok (.and 1#5 (.imm 2#5)) ∧
      decode 0b001111_00010_00001#16 true = .ok (.andn 1#5 (.imm 2#5)) ∧
      decode 0b010000_00010_00001#16 true = .ok (.or 1#5 (.imm 2#5)) ∧
      decode 0b010001_00010_00001#16 true = .ok (.xor 1#5 (.imm 2#5)) := by decide

/-- VD1 to VD7. -/
theorem test_words_refused :
    decode 0x7500#16 false = .error .unusedOpcode ∧ decode 0x75FF#16 false = .error .unusedOpcode ∧
      decode 0x7CFF#16 false = .error .unusedOpcode ∧ decode 0x7DE5#16 false = .error .unusedOpcode ∧
      decode 0x7F60#16 false = .error .unusedOpcode ∧ decode 0x7FBF#16 false = .error .unusedOpcode ∧
      decode 0x7700#16 false = .error .unlistedOpcode ∧ decode 0x7A00#16 false = .error .unlistedOpcode ∧
      decode 0x9000#16 false = .error .unlistedOpcode := by decide

/-- VD8 to VD12: a must-be-zero bit is one. -/
theorem test_words_zero_bits :
    decode 0x6401#16 false = .error .unlistedOpcode ∧ decode 0x74A1#16 false = .error .unlistedOpcode ∧
      decode 0x76A1#16 false = .error .unlistedOpcode ∧ decode 0x7940#16 false = .error .unlistedOpcode ∧
      decode 0x7EF0#16 false = .error .unlistedOpcode ∧ decode 0x7DA1#16 false = .error .unlistedOpcode := by decide

/-- The bytes of a word, the low one first, as the table numbers its bits. -/
theorem test_decodeTableWord :
    decodeTableWord 16 0x7905 = some (.trap 5#6) ∧ decodeTableWord 16 0xFFE1 = some (.lds 1#5 255#8) ∧
      decodeTableWord 16 0x7A00 = none := by decide

/-! ### The state after reset -/

theorem test_reset_memory : Memory.wf State.reset.mem ∧ Marks.wf State.reset.stored := by decide

theorem test_reset_runs_first_word :
    (match step (State.reset.withFetchWord 16 0x37E1) with
      | .next t => t.reg 1#5 == 31#32 && t.pc == 0x1002#32
      | _ => false) = true := by decide

/-! ### One step -/

/-- Words from `0x1000` on, with a NOP behind them, little-endian. -/
def at1000 (words : List Nat) : List Host.Cell :=
  (words ++ [0x3000]).zipIdx.flatMap fun (w, j) =>
    [(0x1000 + 2 * j, BitVec.ofNat 8 w), (0x1001 + 2 * j, BitVec.ofNat 8 (w / 256))]

/-- The state after reset with some registers and the words at the pc. -/
def start (regs : List (RegNum × Word)) (words : List Nat) : State :=
  regs.foldl (fun s p => s.setReg p.1 p.2) { State.reset with mem := at1000 words }

/-- STATUS from its lower half in the default layout. -/
def statusOf (w : Half) : Status := Status.unpack Config.default.layout (w.setWidth 32)

/-- The lower half of STATUS in the default layout. -/
def halfWord (st : Status) : Half := (st.pack Config.default.layout).setWidth 16

/-- The same in the window and with the flags of a STATUS word. -/
def startIn (status : Half) (regs : List (RegNum × Word)) (words : List Nat) : State :=
  regs.foldl (fun s p => s.setReg p.1 p.2)
    { State.reset with mem := at1000 words, status := statusOf status }

/-- The same after a PFX. -/
def prefixed (k : BitVec 11) (s : State) : State := s.setPrefix k

/-- The same with a word in memory. -/
def withWord (s : State) (a : Nat) (v : Word) : State := { s with mem := (
  (Memory.write (Memory.write (Memory.write (Memory.write s.mem a (byteOf v 0)) (a + 1) (byteOf v 1)) (a + 2)
    (byteOf v 2)) (a + 3) (byteOf v 3))) }

/-- The two words that the load and store vectors start from. -/
def data (s : State) : State := withWord (withWord s 0x2000 0x44332211#32) 0x2004 0x88776655#32

/-- The answer is a next state with a property. -/
def gives (o : Result State) (good : State → Bool) : Bool :=
  match o with
  | .next t => good t
  | _ => false

/-- The answer is a fault. -/
def faults (o : Result State) (f : Fault) : Bool :=
  match o with
  | .fault g => g == f
  | _ => false

/-- The answer is a refusal. -/
def refuses (o : Result State) (r : Refusal) : Bool :=
  match o with
  | .refused q => q == r
  | _ => false

/-- N V Z C as a number. -/
def nvzc (s : State) : Nat :=
  s.status.n.toNat * 8 + s.status.v.toNat * 4 + s.status.z.toNat * 2 + s.status.c.toNat

/-! Arithmetic. -/

/-- VA2. -/
theorem test_add_overflow : gives (step (start [(1#5, 0x7FFFFFFF#32), (2#5, 1#32)] [0x0041]))
    fun t => t.reg 1#5 == 0x80000000#32 && nvzc t == 0b1100 && t.pc == 0x1002#32 := by decide

/-- VA4. -/
theorem test_add_itself : gives (step (start [(1#5, 0x80000000#32)] [0x0021]))
    fun t => t.reg 1#5 == 0#32 && nvzc t == 0b0111 := by decide

/-- VA6. -/
theorem test_addi_prefixed : gives (step (prefixed 0x7FF#11 (start [(1#5, 1#32)] [0x07E1])))
    fun t => t.reg 1#5 == 0x10000#32 && nvzc t == 0 && t.k == 0#11 && t.pfx == false := by decide

/-- VA7. -/
theorem test_sub_borrow : gives (step (start [(1#5, 5#32), (2#5, 7#32)] [0x0841]))
    fun t => t.reg 1#5 == 0xFFFFFFFE#32 && nvzc t == 0b1001 := by decide

/-- VA11. -/
theorem test_subi_prefixed : gives (step (prefixed 1#11 (start [(1#5, 0x100#32)] [0x0C01])))
    fun t => t.reg 1#5 == 0xE0#32 && nvzc t == 0 := by decide

/-- VA15. -/
theorem test_cmp : gives (step (start [(1#5, 0x7FFFFFFF#32), (2#5, 0x80000000#32)] [0x1041]))
    fun t => t.reg 1#5 == 0x7FFFFFFF#32 && nvzc t == 0b1101 := by decide

/-- VA16. -/
theorem test_cmpi : gives (step (start [(1#5, 9#32)] [0x1541]))
    fun t => t.reg 1#5 == 9#32 && nvzc t == 0b1001 := by decide

/-- VA18. -/
theorem test_neg_keeps_flags : gives (step (startIn 0x7E6F#16 [(1#5, 1#32)] [0x7C21]))
    fun t => t.reg 1#5 == 0xFFFFFFFF#32 && nvzc t == 0b1111 := by decide

/-- VA20. -/
theorem test_abs : gives (step (start [(1#5, 0xFFFFFFFB#32)] [0x7C41])) fun t => t.reg 1#5 == 5#32 := by decide

/-- VA21. -/
theorem test_abs_most_negative : gives (step (start [(1#5, 0x80000000#32)] [0x7C41]))
    fun t => t.reg 1#5 == 0x80000000#32 && nvzc t == 0 := by decide

/-! Logic and shifts. -/

/-- VL1. -/
theorem test_and_keeps_v_c : gives (step (startIn 0x7E65#16 [(1#5, 0xFF00FF00#32), (2#5, 0x0FF00FF0#32)] [0x3841]))
    fun t => t.reg 1#5 == 0x0F000F00#32 && nvzc t == 0b0101 := by decide

/-- VP4. -/
theorem test_and_immediate : gives (step (prefixed 0#11 (start [(1#5, 0xFF#32), (2#5, 0xF0#32)] [0x3841])))
    fun t => t.reg 1#5 == 2#32 := by decide

/-- VL3. -/
theorem test_andn : gives (step (start [(1#5, 0xFFFFFFFF#32), (2#5, 0xFFFF#32)] [0x3C41]))
    fun t => t.reg 1#5 == 0xFFFF0000#32 && nvzc t == 0b1000 := by decide

/-- VL6. -/
theorem test_or_immediate : gives (step (prefixed 4#11 (start [] [0x4061]))) fun t => t.reg 1#5 == 0x83#32 := by decide

/-- VL7. -/
theorem test_xor : gives (step (startIn 0x7E6D#16 [(1#5, 0xCAFEBABE#32)] [0x4421]))
    fun t => t.reg 1#5 == 0#32 && nvzc t == 0b0111 := by decide

/-- VL9. -/
theorem test_not : gives (step (startIn 0x7E62#16 [(1#5, 0x0F0F0F0F#32)] [0x7C01]))
    fun t => t.reg 1#5 == 0xF0F0F0F0#32 && nvzc t == 0b0010 := by decide

/-- VL11. -/
theorem test_lsl_count : gives (step (start [(1#5, 1#32), (2#5, 0x21#32)] [0x1841])) fun t => t.reg 1#5 == 2#32 := by
  decide

/-- VL12. -/
theorem test_lsli : gives (step (start [(1#5, 3#32)] [0x1FE1])) fun t => t.reg 1#5 == 0x80000000#32 := by decide

/-- VL14. -/
theorem test_lsr : gives (step (start [(1#5, 0x80000000#32), (2#5, 31#32)] [0x2041])) fun t => t.reg 1#5 == 1#32 := by
  decide

/-- VL15. -/
theorem test_lsri : gives (step (start [(1#5, 0xF0000000#32)] [0x2481])) fun t => t.reg 1#5 == 0x0F000000#32 := by
  decide

/-- VL17. -/
theorem test_asr : gives (step (start [(1#5, 0x80000000#32), (2#5, 0xFFFFFFE4#32)] [0x2841]))
    fun t => t.reg 1#5 == 0xF8000000#32 := by decide

/-- VL18. -/
theorem test_asri : gives (step (start [(1#5, 0xF0000000#32)] [0x2C81])) fun t => t.reg 1#5 == 0xFF000000#32 := by
  decide

/-- VL21. -/
theorem test_rlc_carry_in : gives (step (startIn 0x7E61#16 [(1#5, 1#32)] [0x7CA1]))
    fun t => t.reg 1#5 == 3#32 && nvzc t == 0 := by decide

/-- VL20. -/
theorem test_rlc_carry_out : gives (step (start [(1#5, 0x80000001#32)] [0x7CA1]))
    fun t => t.reg 1#5 == 2#32 && nvzc t == 1 := by decide

/-- VL23. -/
theorem test_rrc_carry_in : gives (step (startIn 0x7E61#16 [(1#5, 2#32)] [0x7CC1]))
    fun t => t.reg 1#5 == 0x80000001#32 && nvzc t == 0 := by decide

/-- VL25. -/
theorem test_bgen : gives (step (start [] [0x4BE1])) fun t => t.reg 1#5 == 0x80000000#32 := by decide

/-! Moves, extraction, multiplication. -/

/-- VM1. -/
theorem test_mov : gives (step (startIn 0x7E6A#16 [(2#5, 0xDEADBEEF#32)] [0x3041]))
    fun t => t.reg 1#5 == 0xDEADBEEF#32 && nvzc t == 0b1010 := by decide

/-- VP7. -/
theorem test_movi_prefixed : gives (step (prefixed 0x7FF#11 (start [] [0x37E1]))) fun t => t.reg 1#5 == 0xFFFF#32 := by
  decide

/-- VP8. -/
theorem test_movhi_prefixed : gives (step (prefixed 0x7FF#11 (start [(1#5, 0x1234#32)] [0x6FE1])))
    fun t => t.reg 1#5 == 0xFFFF1234#32 := by decide

/-- VP2: the second PFX replaces the first. -/
theorem test_pfx : gives (step (prefixed 1#11 (start [] [0x9802])))
    fun t => t.k == 2#11 && t.pfx && t.pc == 0x1002#32 := by decide

/-- VM7. -/
theorem test_swap : gives (step (start [(1#5, 0x12345678#32)] [0x7D01])) fun t => t.reg 1#5 == 0x56781234#32 := by
  decide

/-- VM8. -/
theorem test_sext8 : gives (step (start [(1#5, 0x12345680#32)] [0x7C61])) fun t => t.reg 1#5 == 0xFFFFFF80#32 := by
  decide

/-- VM11. -/
theorem test_sext16 : gives (step (start [(1#5, 0xFFFF7FFF#32)] [0x7C81])) fun t => t.reg 1#5 == 0x7FFF#32 := by decide

/-- VM16. -/
theorem test_ext8d : gives (step (start [(1#5, 0x44332211#32), (2#5, 7#32)] [0x4C41])) fun t => t.reg 1#5 == 0x44#32 := by
  decide

/-- VM19. -/
theorem test_ext8s : gives (step (start [(1#5, 0x44332211#32)] [0x7441])) fun t => t.reg 1#5 == 0x33#32 := by decide

/-- VM22: bit 0 of RB does not matter. -/
theorem test_ext16d : gives (step (start [(1#5, 0x44332211#32), (2#5, 1#32)] [0x6841]))
    fun t => t.reg 1#5 == 0x2211#32 := by decide

/-- VM26. -/
theorem test_ext16s : gives (step (start [(1#5, 0x44332211#32)] [0x74C1])) fun t => t.reg 1#5 == 0x4433#32 := by decide

/-- VM27. -/
theorem test_fill8 : gives (step (start [(1#5, 0x1234565A#32)] [0x7E41]))
    fun t => t.reg 0#5 == 0x5A5A5A5A#32 && t.reg 1#5 == 0x1234565A#32 := by decide

/-- VM28. -/
theorem test_fill16 : gives (step (start [(1#5, 0x1234BEEF#32)] [0x7E61])) fun t => t.reg 0#5 == 0xBEEFBEEF#32 := by
  decide

/-- VM31. -/
theorem test_mstep : gives (step (start [(0#5, 0xFFFFFFFF#32), (1#5, 0xFFFFFFFF#32)] [0x7E81]))
    fun t => t.reg 0#5 == 0xFFFFFFFD#32 := by decide

/-- VM30. -/
theorem test_mstep_no_add : gives (step (start [(0#5, 0x40000003#32), (1#5, 7#32)] [0x7E81]))
    fun t => t.reg 0#5 == 0x80000006#32 := by decide

/-- VM35. -/
theorem test_mul : gives (step (start [(0#5, 0x12340010#32), (1#5, 0xABCD0100#32)] [0x7EA1]))
    fun t => t.reg 0#5 == 0x1000#32 := by decide

/-! Loads and stores. -/

/-- VS4. -/
theorem test_ld : gives (step (prefixed 0x7FF#11 (data (start [(2#5, 0x2004#32)] [0x5841]))))
    fun t => t.reg 1#5 == 0x44332211#32 := by decide

/-- VS6. -/
theorem test_st : gives (step (data (start [(1#5, 0xCAFEF00D#32), (2#5, 0x2002#32)] [0x5C41])))
    fun t => t.wordAt 0x2000#32 == 0xCAFEF00D#32 && t.wordAt 0x2004#32 == 0x88776655#32 := by decide

/-- VS10. -/
theorem test_ldp : gives (step (prefixed 0x7FF#11 (data (start [(17#5, 0x2004#32)] [0xB7E1]))))
    fun t => t.reg 1#5 == 0x44332211#32 := by decide

/-- VS11. -/
theorem test_stp : gives (step (data (start [(1#5, 0x01020304#32), (18#5, 0x2000#32)] [0xA821])))
    fun t => t.wordAt 0x2000#32 == 0x44332211#32 && t.wordAt 0x2004#32 == 0x01020304#32 := by decide

/-- VS12. -/
theorem test_lds : gives (step (data (start [(14#5, 0x2000#32)] [0xE021]))) fun t => t.reg 1#5 == 0x88776655#32 := by
  decide

/-- VS14. -/
theorem test_sts : gives (step (data (start [(1#5, 0x01020304#32), (14#5, 0x2000#32)] [0xC021])))
    fun t => t.wordAt 0x2004#32 == 0x01020304#32 := by decide

/-- VS17. -/
theorem test_st8d : gives (step (data (start [(0#5, 0xA3A2A1A0#32), (2#5, 0x2002#32)] [0x7E02])))
    fun t => t.wordAt 0x2000#32 == 0x44A22211#32 := by decide

/-- VS21. -/
theorem test_st8s : gives (step (data (start [(0#5, 0xA3A2A1A0#32), (2#5, 0x2002#32)] [0x7622])))
    fun t => t.wordAt 0x2000#32 == 0x4433A111#32 := by decide

/-- VS24. -/
theorem test_st16d : gives (step (data (start [(0#5, 0xB1B1B0B0#32), (2#5, 0x2001#32)] [0x7E22])))
    fun t => t.wordAt 0x2000#32 == 0x4433B0B0#32 := by decide

/-- VS27. -/
theorem test_st16s : gives (step (data (start [(0#5, 0xB1B1B0B0#32), (2#5, 0x2000#32)] [0x76C2])))
    fun t => t.wordAt 0x2000#32 == 0xB1B12211#32 := by decide

/-- VS30. -/
theorem test_sts8s : gives (step (data (start [(0#5, 0xA3A2A1A0#32), (14#5, 0x2003#32)] [0x6001])))
    fun t => t.wordAt 0x2000#32 == 0x44332211#32 && t.wordAt 0x2004#32 == 0x8877A155#32 := by decide

/-- VS32. -/
theorem test_sts16s : gives (step (data (start [(0#5, 0xB1B1B0B0#32), (14#5, 0x2000#32)] [0x6406])))
    fun t => t.wordAt 0x2004#32 == 0xB1B16655#32 && t.wasStored 0x2006#32 && !t.wasStored 0x2005#32 := by decide

/-! Control transfer. -/

/-- VC8. -/
theorem test_br : gives (step (start [] [0x8002])) fun t => t.pc == 0x1002#32 && t.delay == some 0x1006#32 := by decide

/-- VC10, from `0x1000`. -/
theorem test_bsr : gives (step (start [] [0x8FFF]))
    fun t => t.reg 15#5 == 0x802#32 && t.pc == 0x1002#32 && t.delay == some 0x1000#32 := by decide

/-- VC12: bit 31 is lost. -/
theorem test_jmp : gives (step (start [(1#5, 0x80000800#32)] [0x7FC1])) fun t => t.delay == some 0x1000#32 := by decide

/-- VC14: `%o7` is read before it is written. -/
theorem test_call_link : gives (step (start [(15#5, 0x1800#32)] [0x7FEF]))
    fun t => t.reg 15#5 == 0x802#32 && t.delay == some 0x3000#32 := by decide

/-- VC11, its slot. -/
theorem test_slot : gives (step { start [(1#5, 0x1800#32)] [0x3401] with delay := some 0x3000#32 })
    fun t => t.reg 1#5 == 0#32 && t.pc == 0x3000#32 && t.delay == none := by decide

/-- VC17. -/
theorem test_bad_slot : faults (step { start [] [0x8000] with delay := some 0x3000#32 }) .badDelaySlot := by decide

/-- VC18. -/
theorem test_skp0 : gives (step (start [(1#5, 0xF7#32)] [0x5061, 0x3422])) fun t => t.pc == 0x1004#32 := by decide

/-- VC20. -/
theorem test_skp1 : gives (step (start [(1#5, 0x80000000#32)] [0x57E1])) fun t => t.pc == 0x1004#32 := by decide

/-- VC27: two PFX and their instruction are skipped. -/
theorem test_skprz : gives (step (start [] [0x7EC1, 0x9801, 0x9802, 0x3462])) fun t => t.pc == 0x1008#32 := by decide

/-- VC25. -/
theorem test_skprnz : gives (step (start [] [0x7F41])) fun t => t.pc == 0x1002#32 := by decide

/-- VC43: cc_le with V set. -/
theorem test_skps : gives (step (startIn 0x7E64#16 [] [0x7EE8])) fun t => t.pc == 0x1004#32 := by decide

/-- VC52. -/
theorem test_skps_unnamed : faults (step (start [] [0x7EEE])) .badCondition := by decide

/-! Windows, traps, control registers. -/

/-- VW1. -/
theorem test_save : gives (step (start [(14#5, 0x8000#32)] [0x7817]))
    fun t => halfWord t.status == 0x7E50#16 && t.cell 94 == 0x7FA4#32 && t.reg 30#5 == 0x8000#32 := by decide

/-- VW4. -/
theorem test_save_underflow : gives (step (withWord (startIn 0xFE19#16 [(14#5, 0x8000#32)] [0x7804]) 0x104 0x1000#32))
    fun t => halfWord t.istatus == 0xFE09#16 && halfWord t.status == 0x0209#16 && t.cell 14 == 0x7FF0#32 &&
      t.cell 15 == 0x801#32 && t.pc == 0x2000#32 := by decide

/-- VW7. -/
theorem test_restore : gives (step (startIn 0x7E40#16 [] [0x7DA0])) fun t => halfWord t.status == 0x7E50#16 := by decide

/-- VW8. -/
theorem test_restore_overflow : gives (step (withWord (startIn 0xFE60#16 [] [0x7DA0]) 0x108 0x1800#32))
    fun t => halfWord t.istatus == 0xFE70#16 && halfWord t.status == 0x0460#16 && t.cell 111 == 0x801#32 &&
      t.pc == 0x3000#32 := by decide

/-- VW11. -/
theorem test_trap : gives (step (withWord (startIn 0xFE46#16 [] [0x7905]) 0x114 0x2000#32))
    fun t => halfWord t.istatus == 0xFE46#16 && halfWord t.status == 0x0A36#16 && t.cell 63 == 0x801#32 &&
      t.pc == 0x4000#32 := by decide

/-- VW13. -/
theorem test_trap_no_window : faults (step (startIn 0x7E00#16 [] [0x7900])) .windowOutOfFile := by decide

/-- VW14. -/
theorem test_tret : gives (step ((startIn 0x0A30#16 [(15#5, 0x801#32)] [0x7DCF]).setIstatus (statusOf 0xFE4A#16)))
    fun t => halfWord t.status == 0xFE4A#16 && t.pc == 0x1002#32 && halfWord t.istatus == 0xFE4A#16 := by decide

/-- VW17. -/
theorem test_wrctl : gives (step (start [(1#5, 0x8235#32)] [0x7F01]))
    fun t => halfWord t.status == 0x8235#16 && t.wrctlHazard := by decide

/-- VW18. -/
theorem test_wrctl_needs_nop : faults (step (start [] [0x0021]).markHazard) .wrctlNotFollowedByNop := by decide

/-- VW26. -/
theorem test_rdctl_limits : gives (step (prefixed 2#11 (start [] [0x7F22]))) fun t => t.reg 2#5 == 0xC1#32 := by decide

/-- VW23. -/
theorem test_rdctl : gives (step (startIn 0x7E69#16 [] [0x7F21])) fun t => t.reg 1#5 == 0x7E69#32 := by decide

/-- The worked example of 60_exceptions.md: request 3 is entered. -/
theorem test_request :
    gives (step { withWord (startIn 0xFE60#16 [] [0x3441]) 0x10C 0x900#32 with request := some 3#6 })
      fun t => halfWord t.istatus == 0xFE60#16 && halfWord t.status == 0x0650#16 && t.cell 95 == 0x800#32 &&
        t.pc == 0x1200#32 := by decide

/-! Custom instructions. -/

/-- VU3. -/
theorem test_usr2_absent : faults (step (start [] [0x7D41])) .customAbsent := by decide

/-- 47_custom.md R322. -/
theorem test_usr0_impure :
    refuses (step { start [] [0x7041] with cfg := { Config.default with usr0 := .impure } }) .customNotPure := by decide

/-- VU1 with the function left free. -/
theorem test_usr0_pure :
    ∃ t, step { start [(1#5, 10#32), (2#5, 20#32)] [0x7041] with cfg := { Config.default with usr0 := .pure } } =
      .next t ∧ t.reg 1#5 = Config.usrOp0 10#32 20#32 ∧ t.reg 2#5 = 20#32 := ⟨_, rfl, rfl, rfl⟩

/-- VU5 with the function left free: A = 0 makes both operands `%r0`. -/
theorem test_usr3_pure :
    ∃ t, step { start [(0#5, 5#32)] [0x7D60] with cfg := { Config.default with usr3 := .pure } } = .next t ∧
      t.reg 0#5 = Config.usrOp3 5#32 5#32 := ⟨_, rfl, rfl⟩

/-! Another configuration: 16 address bits, other registers, another layout, other numbers (00_scope.md R6). The values
expected are computed by hand from the rules. -/

/-- Every parameter that has a default, at another value. -/
def other : Config where
  nwin := 8
  addrBits := 16
  vecbase := 0x200#32
  admitted := [⟨0, 65536⟩]
  spReg := 13#5
  fpReg := 29#5
  preg0 := 20#5
  preg1 := 21#5
  preg2 := 22#5
  preg3 := 23#5
  layout := { ie := 31, ipri := 0, cwp := 16, n := 8, v := 9, z := 10, c := 11 }
  ctlIstatus := 5#11
  ctlWvalid := 6#11
  cc := Config.default.cc.reverse
  resetPc := 0x1000#32
  resetStatus := { ie := true, ipri := 0x3F#6, cwp := 5#5, n := false, v := true, z := false, c := true }
  usr0 := .absent
  usr1 := .absent
  usr2 := .absent
  usr3 := .absent
  usr4 := .absent

theorem test_other_wellFormed : other.wellFormed = true := by decide

/-- The state after reset in that configuration, with a word at `0x1000` and registers. -/
def startOther (regs : List (RegNum × Word)) (word : Nat) : State :=
  regs.foldl (fun s p => s.setReg p.1 p.2) { State.resetWith other with mem := at1000 [word] }

/-- 70_reset_and_hazards.md R370. -/
theorem test_other_reset :
    (State.resetWith other).hiLimit = 7#5 ∧ (State.resetWith other).loLimit = 1#5 ∧
      (State.resetWith other).regs.length = 144 := ⟨rfl, rfl, State.resetWith_fileSize other⟩

/-- 00_scope.md R16: behind the last half-word of 16 address bits comes address zero. -/
theorem test_other_pc : gives (exec (.movi 1#5 1#5) { startOther [] 0 with pc := 0xFFFE#32 })
    fun t => t.pc == 0#32 := by decide

/-- 20_memory.md R74: bit 16 of a data address is not decoded; the word written at `0x12000` is the one at `0x2000`. -/
theorem test_other_st : gives (step (startOther [(1#5, 0xCAFEF00D#32), (2#5, 0x12000#32)] 0x5C41))
    fun t => t.wordAt 0x2000#32 == 0xCAFEF00D#32 && t.wordAt 0x12000#32 == 0xCAFEF00D#32 := by decide

/-- `%sp` is `%r13` and p-field 1 is `%r21`. -/
theorem test_other_registers :
    gives (step (withWord (startOther [(13#5, 0x2000#32)] 0xE021) 0x2004 0x88776655#32))
        (fun t => t.reg 1#5 == 0x88776655#32) = true ∧
      gives (step (withWord (startOther [(21#5, 0x2000#32)] 0xB421) 0x2004 0x88776655#32))
        (fun t => t.reg 1#5 == 0x88776655#32) = true := by decide

/-- The fields of RESET_STATUS at the places of that layout: IE bit 31, CWP from 16, IPRI from 0, V 9, C 11. -/
theorem test_other_rdctl : gives (step (startOther [] 0x7F21)) fun t => t.reg 1#5 == 0x80050A3F#32 := by decide

/-- ISTATUS is control register 5 there. -/
theorem test_other_wrctl : gives (step (prefixed 5#11 (startOther [(1#5, 0x80030440#32)] 0x7F01)))
    fun t => t.istatus == { Status.zero with ie := true, cwp := 3#5, z := true } && t.pc == 0x1002#32 := by decide

/-- Code 15 is cc_c there, which holds, and code 1 names nothing. -/
theorem test_other_skps :
    gives (step (startOther [] 0x7EEF)) (fun t => t.pc == 0x1004#32) = true ∧
      faults (step (startOther [] 0x7EE1)) .badCondition = true := by decide

/-! Stops. -/

/-- 20_memory.md R79: a word the program stored is not fetched. -/
theorem test_self_modified : refuses (step ((start [] []).putByte 0x1001#32 0x30#8)) .selfModifiedFetch := by decide

/-- 20_memory.md R75. -/
theorem test_not_admitted :
    faults (step { start [] [] with cfg := { Config.default with admitted := [⟨0x1000, 1⟩] } }) .notAdmitted := by
  decide

/-! ### The statements have states to speak of

For each statement with hypotheses, a state and operands that meet them, at a boundary of the range where there is one:
the last register of the file, the lowest and the highest window, the top of memory. -/

/-- The hypotheses on registers alone: in the state after reset every register is there. -/
theorem all_registers (r : RegNum) : HasReg State.reset r := by
  refine ⟨?_, State.resetWith_fileSize _⟩
  revert r
  decide

theorem in_window : InWindow State.reset := ⟨by decide, State.resetWith_fileSize _⟩

theorem witness_DecodeOfEncode :
    (Instr.and 31#5 (.imm 31#5)).wellFormed true ∧ (Instr.and 31#5 (.reg 31#5)).wellFormed false ∧
      (Instr.lds 31#5 255#8).wellFormed true := by decide

theorem witness_EncodeOfDecode : decode 0xFFFF#16 true = .ok (.lds 31#5 255#8) := by decide

/-- First clause, and its second form behind a WRCTL. -/
theorem witness_StepRunsDecodedInstr :
    (start [] [0x0041]).accepted = none ∧ (start [] [0x0041]).pc.getLsbD 0 = false ∧
      (start [] [0x0041]).admits 0x1000#32 ∧ (start [] [0x0041]).admits 0x1001#32 ∧
      (start [] [0x0041]).wasStored 0x1000#32 = false ∧ (start [] [0x0041]).wasStored 0x1001#32 = false ∧
      decode ((start [] [0x0041]).byteAt 0x1001#32 ++ (start [] [0x0041]).byteAt 0x1000#32) false =
        .ok (.add 1#5 2#5) ∧
      (start [] [0x0041]).delay = none ∧ (start [] [0x0041]).wrctlHazard = false ∧
      decode ((start [] []).markHazard.byteAt 0x1001#32 ++ (start [] []).markHazard.byteAt 0x1000#32) false =
        .ok (.mov 0#5 0#5) := by decide

/-- Second clause: a branch in a slot. -/
theorem witness_StepRunsDecodedInstr_slot :
    decode ((start [] [0x8000]).byteAt 0x1001#32 ++ (start [] [0x8000]).byteAt 0x1000#32) false = .ok (.br 0#11) ∧
      slotForbidden (.br 0#11) ∧ { start [] [0x8000] with delay := some 0x3000#32 }.delay ≠ none := by decide

/-- Third clause: no NOP behind a WRCTL. -/
theorem witness_StepRunsDecodedInstr_hazard :
    (start [] [0x0041]).markHazard.accepted = none ∧ (start [] [0x0041]).markHazard.delay = none ∧
      (start [] [0x0041]).markHazard.wrctlHazard ∧ Instr.add 1#5 2#5 ≠ .mov 0#5 0#5 := by decide

/-- A memory that ends behind the first byte of the word. -/
theorem witness_StepStopsBeforeExec :
    { State.reset with pc := 0xFFFFFFFF#32 }.accepted = none ∧ (0xFFFFFFFF#32 : Word).getLsbD 0 = true ∧
      (let s := { State.reset with cfg := { Config.default with admitted := [⟨0, 0x1001⟩] } }
       s.accepted = none ∧ s.pc.getLsbD 0 = false ∧ (s.admits s.pc && s.admits (s.pc + 1#32)) = false) ∧
      (let s := (start [] []).putByte 0x1001#32 0x30#8
       s.accepted = none ∧ s.pc.getLsbD 0 = false ∧ s.admits s.pc ∧ s.admits (s.pc + 1#32) ∧
         (s.wasStored s.pc || s.wasStored (s.pc + 1#32))) := by decide

theorem witness_StepStopsBeforeExec_words :
    decode ((start [] [0x7FBF]).byteAt 0x1001#32 ++ (start [] [0x7FBF]).byteAt 0x1000#32) false =
        .error .unusedOpcode ∧
      decode ((start [] [0x6401]).byteAt 0x1001#32 ++ (start [] [0x6401]).byteAt 0x1000#32) false =
        .error .unlistedOpcode ∧
      (start [] [0x7FBF]).accepted = none ∧ (start [] [0x7FBF]).wasStored 0x1000#32 = false ∧
      (start [] [0x6401]).accepted = none ∧ (start [] [0x6401]).wasStored 0x1001#32 = false := by decide

/-- The lowest window that can be left, and the highest request below IPRI `0x3F`. -/
def asked : State := { startIn 0xFE10#16 [] [] with request := some 62#6 }

/-- In the configuration of reset every byte is admitted. -/
theorem admits_reset (s : State) (h : s.cfg = Config.default) (w : Word) : s.admits w = true := by
  simp only [State.admits, h, Config.admits, Config.default, List.any_cons, List.any_nil, Region.holds]
  simpa using (s.address w).isLt

theorem canEnter_reset (n : BitVec 6) (w : Nat) (hw : w < 7) : CanEnter State.reset n w := by
  refine ⟨hw, State.resetWith_fileSize _, fun j _ _ => ?_⟩
  exact admits_reset _ rfl _

/-- Request 62 is below IPRI 63, request 63 is not; window 0 has none below it. -/
theorem witness_RequestEntersTrap :
    asked.request = some 62#6 ∧ (asked.delay = none ∧ asked.pfx = false ∧ asked.wrctlHazard = false ∧
        asked.status.ie = true ∧ (62#6).toNat < asked.status.ipri.toNat) ∧
      asked.status.cwp ≠ 0#5 ∧ CanEnter asked 62#6 (asked.status.cwp.toNat - 1) ∧
      (let s := { startIn 0xFE00#16 [] [] with request := some 62#6 }
       s.delay = none ∧ s.pfx = false ∧ s.wrctlHazard = false ∧ s.status.ie = true ∧
         (62#6).toNat < s.status.ipri.toNat ∧ s.status.cwp = 0#5) ∧
      ¬(63#6).toNat < { asked with request := some 63#6 }.status.ipri.toNat :=
  ⟨by decide, by decide, by decide, canEnter_reset 62#6 0 (by decide), by decide, by decide⟩

/-- The second clause: with IE clear, a step that goes on, one that faults, one that is refused. -/
theorem witness_RequestEntersTrap_ignored :
    (¬(start [] [0x0041]).status.ie = true ∧
        ∃ t, step { start [] [0x0041] with request := none } = .next t) ∧
      step { start [] [0x7500] with request := none } = .fault .unusedOpcode ∧
      step { State.reset with pc := 1#32, request := none } = .refused .oddPc :=
  ⟨⟨by decide, _, rfl⟩, rfl, rfl⟩

theorem witness_PfxLoadsK : State.reset.delay = none := by decide

theorem witness_PrefixLivesOneInstruction :
    (∃ t, exec (.lsli 1#5 1#5) (prefixed 0x7FF#11 State.reset) = .next t) ∧ ∀ k, Instr.lsli 1#5 1#5 ≠ .pfx k :=
  ⟨⟨_, rfl⟩, fun _ h => by cases h⟩

theorem witness_AddsWithFlags : HasReg State.reset 31#5 ∧ HasReg State.reset 31#5 := ⟨all_registers _, all_registers _⟩

theorem witness_SubtractsWithFlags : HasReg State.reset 0#5 ∧ HasReg State.reset 31#5 := ⟨all_registers _, all_registers _⟩

theorem witness_ComparesWithFlags : HasReg State.reset 7#5 ∧ HasReg State.reset 8#5 := ⟨all_registers _, all_registers _⟩

theorem witness_NegatesAndTakesAbs : HasReg State.reset 31#5 := all_registers _

theorem witness_ComplementAndBitGenerate : HasReg State.reset 0#5 := all_registers _

/-- Both readings of the operand. -/
theorem witness_LogicInBothForms :
    HasReg State.reset 31#5 ∧
      (∃ b, LogicOperand.reg 30#5 = .reg b ∧ HasReg State.reset b ∧ 0#32 = State.reset.reg b) ∧
      ∃ f, LogicOperand.imm 31#5 = .imm f ∧ 31#32 = immediate State.reset f :=
  ⟨all_registers _, ⟨30#5, rfl, all_registers _, by decide⟩, 31#5, rfl, by decide⟩

/-- The count 31, of a register that holds more. -/
theorem witness_ShiftsByRegister :
    HasReg (start [(2#5, 0xFFFFFFFF#32)] []) 1#5 ∧ HasReg (start [(2#5, 0xFFFFFFFF#32)] []) 2#5 ∧
      31 = ((start [(2#5, 0xFFFFFFFF#32)] []).reg 2#5).toNat % 32 := ⟨⟨by decide, rfl⟩, ⟨by decide, rfl⟩, by decide⟩

theorem witness_ShiftsByImmediate : HasReg State.reset 31#5 := all_registers _

theorem witness_RotatesThroughCarry : HasReg State.reset 31#5 := all_registers _

theorem witness_MovesAndNop : HasReg State.reset 31#5 ∧ HasReg State.reset 0#5 := ⟨all_registers _, all_registers _⟩

theorem witness_MovesImmediates : HasReg State.reset 31#5 := all_registers _

theorem witness_SwapsAndExtends : HasReg State.reset 31#5 := all_registers _

theorem witness_ExtractsLanes : HasReg State.reset 31#5 ∧ HasReg State.reset 30#5 := ⟨all_registers _, all_registers _⟩

theorem witness_FillsR0 : HasReg State.reset 0#5 ∧ HasReg State.reset 31#5 := ⟨all_registers _, all_registers _⟩

theorem witness_MultipliesIntoR0 : HasReg State.reset 0#5 ∧ HasReg State.reset 31#5 := ⟨all_registers _, all_registers _⟩

/-- The largest factors. -/
theorem witness_SixteenMstepsMultiply :
    InWindow (start [(0#5, 0xFFFF0000#32), (31#5, 0xFFFF#32)] []) ∧ 31#5 ≠ 0#5 ∧
      ((start [(0#5, 0xFFFF0000#32), (31#5, 0xFFFF#32)] []).reg 0#5).toNat = 0xFFFF * 2 ^ 16 ∧
      ((start [(0#5, 0xFFFF0000#32), (31#5, 0xFFFF#32)] []).reg 31#5).toNat = 0xFFFF ∧ 0xFFFF < 2 ^ 16 :=
  ⟨⟨by decide, rfl⟩, by decide, by decide, by decide, by decide⟩

theorem witness_LoadsConstant : HasReg State.reset 31#5 ∧ State.reset.delay = none := ⟨all_registers _, by decide⟩

theorem admitted_reset (s : State) (h : s.cfg = Config.default) (w : Word) (lo hi : Nat) : Admitted s w lo hi :=
  fun _ _ _ => admits_reset s h _

/-- The last word of memory, with RA the base. -/
theorem witness_LoadsWord :
    HasReg (start [(1#5, 0xFFFFFFFF#32)] []) 1#5 ∧
      Admitted (start [(1#5, 0xFFFFFFFF#32)] []) ((start [(1#5, 0xFFFFFFFF#32)] []).addrK 1#5) 0 4 ∧
      (start [(1#5, 0xFFFFFFFF#32)] []).addrK 1#5 = 0xFFFFFFFC#32 :=
  ⟨⟨by decide, rfl⟩, admitted_reset _ rfl _ _ _, by decide⟩

/-- Both clauses: the offset -1 of LDP reaches back over address zero, the offset 255 of LDS is its largest. -/
theorem witness_LoadsFromPointerAndStack :
    HasReg State.reset 1#5 ∧ HasReg State.reset (pointerReg Config.default 3#2) ∧
      Admitted (prefixed 0x7FF#11 State.reset) ((prefixed 0x7FF#11 State.reset).addrP 3#2 31#5) 0 4 ∧
      (prefixed 0x7FF#11 State.reset).addrP 3#2 31#5 = 0xFFFFFFFC#32 ∧ HasReg State.reset 14#5 ∧
      Admitted State.reset 0x3FC#32 0 4 ∧
      0x3FC#32 = aligned (State.reset.reg 14#5 + BitVec.ofNat 32 ((255#8).toNat * 4)) :=
  ⟨all_registers _, all_registers _, admitted_reset _ rfl _ _ _, by decide, all_registers _,
    admitted_reset _ rfl _ _ _, by decide⟩

/-- 32 address bits are two or more. -/
theorem words_fit : WordsFit State.reset := Nat.le_add_left 2 30

theorem witness_StoresWord :
    WordsFit State.reset ∧ HasReg State.reset 31#5 ∧ HasReg State.reset 30#5 ∧
      Admitted State.reset (State.reset.addrK 30#5) 0 4 :=
  ⟨words_fit, all_registers _, all_registers _, admitted_reset _ rfl _ _ _⟩

theorem witness_StoresToPointerAndStack :
    WordsFit State.reset ∧ HasReg State.reset 1#5 ∧ HasReg State.reset (pointerReg Config.default 3#2) ∧
      Admitted State.reset (State.reset.addrP 3#2 31#5) 0 4 ∧ HasReg State.reset 14#5 ∧
      Admitted State.reset (State.reset.addrSp ((255#8).setWidth 32 * 4#32)) 0 4 :=
  ⟨words_fit, all_registers _, all_registers _, admitted_reset _ rfl _ _ _, all_registers _,
    admitted_reset _ rfl _ _ _⟩

/-- Lane 3 of the last word. -/
theorem witness_StoresByteLane :
    3 = ((start [(1#5, 0xFFFFFFFF#32)] []).reg 1#5).toNat % 4 ∧ HasReg (start [(1#5, 0xFFFFFFFF#32)] []) 1#5 ∧
      HasReg (start [(1#5, 0xFFFFFFFF#32)] []) 0#5 ∧
      Admitted (start [(1#5, 0xFFFFFFFF#32)] []) ((start [(1#5, 0xFFFFFFFF#32)] []).addrK 1#5) 3 4 :=
  ⟨by decide, ⟨by decide, rfl⟩, ⟨by decide, rfl⟩, admitted_reset _ rfl _ _ _⟩

/-- Lane 1 of the last word. -/
theorem witness_StoresHalfLane :
    WordsFit (start [(1#5, 0xFFFFFFFF#32)] []) ∧ 1 = ((start [(1#5, 0xFFFFFFFF#32)] []).reg 1#5).toNat / 2 % 2 ∧
      HasReg (start [(1#5, 0xFFFFFFFF#32)] []) 1#5 ∧
      HasReg (start [(1#5, 0xFFFFFFFF#32)] []) 0#5 ∧
      Admitted (start [(1#5, 0xFFFFFFFF#32)] []) ((start [(1#5, 0xFFFFFFFF#32)] []).addrK 1#5) 2 4 :=
  ⟨words_fit, by decide, ⟨by decide, rfl⟩, ⟨by decide, rfl⟩, admitted_reset _ rfl _ _ _⟩

theorem witness_StoresStackLanes :
    WordsFit State.reset ∧ 3 = (0x3FF#10).toNat % 4 ∧ 1 = (0x1FF#9).toNat % 2 ∧ HasReg State.reset 14#5 ∧
      HasReg State.reset 0#5 ∧
      Admitted State.reset (State.reset.addrSp ((0x3FF#10).setWidth 32)) 3 4 ∧
      Admitted State.reset (State.reset.addrSp ((0x1FF#9).setWidth 32 * 2#32)) 2 4 :=
  ⟨words_fit, by decide, by decide, all_registers _, all_registers _, admitted_reset _ rfl _ _ _,
    admitted_reset _ rfl _ _ _⟩

/-- A memory that ends one byte too early for a word, in front of the vector table. -/
def shortMemory : State := { State.reset with cfg := { Config.default with admitted := [⟨0, 3⟩] } }

/-- The same in window 1, which is LO_LIMIT, with a request. -/
def shortAsked : State :=
  { shortMemory with status := statusOf 0xFE10#16, request := some 5#6 }

/-- Word accesses: byte 3 is missing. -/
theorem witness_AccessOutsideMemoryStops :
    HasReg shortMemory 1#5 ∧ HasReg shortMemory 2#5 ∧ ¬Admitted shortMemory (shortMemory.addrK 2#5) 0 4 ∧
      HasReg shortMemory (pointerReg shortMemory.cfg 3#2) ∧ ¬Admitted shortMemory (shortMemory.addrP 3#2 0#5) 0 4 ∧
      HasReg shortMemory shortMemory.cfg.spReg ∧
      ¬Admitted shortMemory (aligned (shortMemory.reg shortMemory.cfg.spReg + BitVec.ofNat 32 ((0#8).toNat * 4))) 0 4 :=
  ⟨all_registers _, all_registers _, fun h => absurd (h 3 (by decide) (by decide)) (by decide), all_registers _,
    fun h => absurd (h 3 (by decide) (by decide)) (by decide), all_registers _,
    fun h => absurd (h 3 (by decide) (by decide)) (by decide)⟩

/-- Lane accesses: ST8D at address 3, ST8S with lane 3, ST16D at address 2, ST16S with lane 1, STS8S and STS16S. -/
theorem witness_AccessOutsideMemoryStops_lanes :
    (let s := shortMemory.setReg 1#5 3#32
     3 = (s.reg 1#5).toNat % 4 ∧ s.admits (at_ (s.addrK 1#5) 3) = false ∧ 1 = (s.reg 1#5).toNat / 2 % 2) ∧
      HasReg shortMemory 0#5 ∧ 3 = (3#2).toNat ∧ 1 = (1#1).toNat ∧
      ¬Admitted shortMemory (shortMemory.addrK 1#5) 3 4 ∧ ¬Admitted shortMemory (shortMemory.addrK 1#5) 2 4 ∧
      3 = (3#10).toNat % 4 ∧ 1 = (1#9).toNat % 2 ∧
      ¬Admitted shortMemory (aligned (shortMemory.reg shortMemory.cfg.spReg + BitVec.ofNat 32 (3#10).toNat)) 3 4 ∧
      ¬Admitted shortMemory (aligned (shortMemory.reg shortMemory.cfg.spReg + BitVec.ofNat 32 ((1#9).toNat * 2))) 2 4 :=
  ⟨by decide, all_registers _, by decide, by decide, fun h => absurd (h 3 (by decide) (by decide)) (by decide),
    fun h => absurd (h 3 (by decide) (by decide)) (by decide), by decide, by decide,
    fun h => absurd (h 3 (by decide) (by decide)) (by decide),
    fun h => absurd (h 3 (by decide) (by decide)) (by decide)⟩

/-- Trap entry: TRAP, SAVE and an accepted request from window 1, RESTORE from the highest window. -/
theorem witness_AccessOutsideMemoryStops_vector :
    InWindow shortAsked ∧ shortAsked.status.cwp ≠ 0#5 ∧ shortAsked.accepted = some 5#6 ∧
      ¬Admitted shortAsked (shortAsked.cfg.vecbase + BitVec.ofNat 32 (4 * (5#6).toNat)) 0 4 ∧
      ¬Admitted shortAsked (shortAsked.cfg.vecbase + 4#32) 0 4 ∧ shortAsked.delay = none ∧
      shortAsked.status.cwp = shortAsked.loLimit ∧
      InWindow shortMemory ∧ shortMemory.cfg.nwin ≤ 31 ∧ shortMemory.delay = none ∧
      shortMemory.status.cwp = shortMemory.hiLimit ∧ ¬Admitted shortMemory (shortMemory.cfg.vecbase + 8#32) 0 4 :=
  ⟨⟨by decide, rfl⟩, by decide, by decide,
    fun h => absurd (h 0 (by decide) (by decide)) (by decide),
    fun h => absurd (h 0 (by decide) (by decide)) (by decide), by decide, by decide,
    ⟨by decide, rfl⟩, by decide, by decide, by decide,
    fun h => absurd (h 0 (by decide) (by decide)) (by decide)⟩

theorem witness_ByteIdioms :
    InWindow State.reset ∧ 31#5 ≠ 0#5 ∧ State.reset.admits (State.reset.reg 31#5) ∧ 1#5 ≠ 2#5 ∧
      State.reset.k = 0#11 ∧ Admitted State.reset (aligned (State.reset.reg 2#5)) 0 4 :=
  ⟨in_window, by decide, by decide, by decide, by decide, admitted_reset _ rfl _ _ _⟩

theorem witness_BranchesRelative : State.reset.delay = none ∧ HasReg State.reset 15#5 := ⟨by decide, all_registers _⟩

theorem witness_JumpsToRegister : State.reset.delay = none ∧ HasReg State.reset 31#5 := ⟨by decide, all_registers _⟩

theorem witness_CallsRegister :
    State.reset.delay = none ∧ HasReg State.reset 15#5 ∧ { State.reset with delay := some 0#32 }.delay ≠ none :=
  ⟨by decide, all_registers _, by decide⟩

theorem witness_SlotGoesToTarget :
    slotForbidden (.movi 1#5 0#5) = false ∧
      ∃ t, exec (.movi 1#5 0#5) { State.reset with delay := some 0xFFFFFFFE#32 } = .next t :=
  ⟨by decide, _, rfl⟩

/-- A unit of two PFX and a NOP behind the skip, and one of a NOP alone. -/
theorem witness_SkipsOnRegister :
    HasReg (start [] [0x7EC1, 0x9801, 0x9802]) 1#5 ∧ UnitAt (start [] [0x7EC1, 0x9801, 0x9802]) 0x1002#32 2 ∧
      UnitAt (start [] [0x7EC1]) 0x1002#32 0 := by
  refine ⟨⟨by decide, rfl⟩, ⟨by decide, fun j hj => ?_, 0x3000#16, by rfl, by decide⟩, by decide,
    fun j hj => by omega, 0x3000#16, by rfl, by decide⟩
  have : j = 0 ∨ j = 1 := by omega
  rcases this with rfl | rfl
  · exact ⟨0x9801#16, by rfl, by decide⟩
  · exact ⟨0x9802#16, by rfl, by decide⟩

/-- The lowest code, which names cc_c, the highest, which names none, and the default numbering. -/
theorem witness_SkipsOnCondition :
    (startIn 0x7E61#16 [] [0x7EE0]).cfg.cc.getD (0#4).toNat none = some .c ∧
      means .c (startIn 0x7E61#16 [] [0x7EE0]).status ∧ UnitAt (startIn 0x7E61#16 [] [0x7EE0]) 0x1002#32 0 ∧
      ¬means .c (start [] [0x7EE0]).status ∧ State.reset.cfg.cc.getD (15#4).toNat none = none ∧
      State.reset.cfg.cc = Config.default.cc :=
  ⟨by decide, rfl, ⟨by decide, fun j hj => by omega, 0x3000#16, by rfl, by decide⟩, Bool.false_ne_true, by decide, rfl⟩

/-- The highest window for SAVE, the next to highest for RESTORE. -/
theorem witness_MovesWindow :
    InWindow State.reset ∧ State.reset.status.cwp ≠ 0#5 ∧ State.reset.status.cwp ≠ State.reset.loLimit ∧
      (startIn 0x7E50#16 [] []).status.cwp.toNat + 1 < (startIn 0x7E50#16 [] []).cfg.nwin ∧
      (startIn 0x7E50#16 [] []).cfg.nwin ≤ 31 ∧
      (startIn 0x7E50#16 [] []).status.cwp ≠ (startIn 0x7E50#16 [] []).hiLimit ∧ StackPair State.reset.cfg :=
  ⟨in_window, by decide, by decide, by decide, by decide, by decide, by decide, by decide, rfl⟩

/-- Window 1 is LO_LIMIT; in a slot and outside one. -/
theorem witness_UnderflowTraps :
    InWindow (startIn 0x7E10#16 [] []) ∧ (startIn 0x7E10#16 [] []).status.cwp ≠ 0#5 ∧
      (startIn 0x7E10#16 [] []).status.cwp = (startIn 0x7E10#16 [] []).loLimit ∧
      (startIn 0x7E10#16 [] []).delay = none ∧ CanEnter (startIn 0x7E10#16 [] []) 1#6 0 ∧
      { startIn 0x7E10#16 [] [] with delay := some 0#32 }.delay ≠ none ∧
      State.reset.status.cwp = State.reset.hiLimit :=
  ⟨⟨by decide, rfl⟩, by decide, by decide, by decide, canEnter_reset 1#6 0 (by decide), by decide, by decide⟩

theorem witness_OverflowTraps :
    State.reset.status.cwp = State.reset.hiLimit ∧ State.reset.cfg.nwin ≤ 31 ∧
      CanEnter State.reset 2#6 State.reset.hiLimit.toNat ∧ State.reset.delay = none :=
  ⟨by decide, by decide, canEnter_reset 2#6 6 (by decide), by decide⟩

/-- The highest vector, from window 1. -/
theorem witness_TrapEnters :
    (startIn 0x7E10#16 [] []).status.cwp ≠ 0#5 ∧
      CanEnter (startIn 0x7E10#16 [] []) 63#6 ((startIn 0x7E10#16 [] []).status.cwp.toNat - 1) :=
  ⟨by decide, canEnter_reset 63#6 0 (by decide)⟩

/-- ISTATUS names window 0, then the highest window. -/
theorem witness_TretReturns :
    State.reset.delay = none ∧ HasReg State.reset 15#5 ∧ State.reset.istatus.cwp.toNat < State.reset.cfg.nwin ∧
      (State.reset.setIstatus (statusOf 0x7E60#16)).istatus.cwp.toNat + 1 =
        (State.reset.setIstatus (statusOf 0x7E60#16)).cfg.nwin :=
  ⟨by decide, all_registers _, by decide, by decide⟩

theorem witness_TrapTretRoundTrip :
    InWindow State.reset ∧ State.reset.pc.getLsbD 0 = false ∧ ∃ t, exec (.trap 63#6) State.reset = .next t :=
  ⟨in_window, by decide, _, rfl⟩

/-- Each of the three registers; for STATUS a word that names the highest window. -/
theorem witness_WritesControl :
    HasReg (start [(1#5, 0xFFFFFE6F#32)] []) 1#5 ∧ (start [(1#5, 0xFFFFFE6F#32)] []).k = 0#11 ∧
      (fieldsOf (start [(1#5, 0xFFFFFE6F#32)] []).cfg.layout ((start [(1#5, 0xFFFFFE6F#32)] []).reg 1#5)).cwp.toNat + 1 =
        (start [(1#5, 0xFFFFFE6F#32)] []).cfg.nwin ∧
      (prefixed 1#11 State.reset).k ≠ 0#11 ∧
      (prefixed 1#11 State.reset).k = (prefixed 1#11 State.reset).cfg.ctlIstatus ∧
      (prefixed 2#11 State.reset).k ≠ 0#11 ∧
      (prefixed 2#11 State.reset).k ≠ (prefixed 2#11 State.reset).cfg.ctlIstatus ∧
      (prefixed 2#11 State.reset).k = (prefixed 2#11 State.reset).cfg.ctlWvalid :=
  ⟨⟨by decide, rfl⟩, by decide, by decide, by decide, by decide, by decide, by decide, by decide⟩

theorem witness_ReadsControl :
    HasReg State.reset 31#5 ∧ State.reset.k = 0#11 ∧ State.reset.cfg.layout.wellFormed = true ∧
      State.reset.cfg.layout = Config.default.layout ∧ (prefixed 1#11 State.reset).k ≠ 0#11 ∧
      (prefixed 1#11 State.reset).k = (prefixed 1#11 State.reset).cfg.ctlIstatus ∧
      (prefixed 2#11 State.reset).k ≠ (prefixed 2#11 State.reset).cfg.ctlIstatus ∧
      (prefixed 2#11 State.reset).k = (prefixed 2#11 State.reset).cfg.ctlWvalid :=
  ⟨all_registers _, by decide, by decide, rfl, by decide, by decide, by decide, by decide⟩

/-- One state for each clause. -/
theorem witness_StopsOutsideTheFile :
    (HasReg (prefixed 3#11 State.reset) 1#5 ∧ (prefixed 3#11 State.reset).k ≠ 0#11 ∧
        (prefixed 3#11 State.reset).k ≠ (prefixed 3#11 State.reset).cfg.ctlIstatus ∧
        (prefixed 3#11 State.reset).k ≠ (prefixed 3#11 State.reset).cfg.ctlWvalid) ∧
      (startIn 0x7E00#16 [] []).status.cwp = 0#5 ∧
      ((State.reset.setLimits 4#5 1#5).cfg.nwin ≤ (State.reset.setLimits 4#5 1#5).status.cwp.toNat + 1 ∧
        (State.reset.setLimits 4#5 1#5).status.cwp ≠ (State.reset.setLimits 4#5 1#5).hiLimit) ∧
      (HasReg State.reset 15#5 ∧
        State.reset.cfg.nwin ≤ (State.reset.setIstatus (statusOf 0xFE70#16)).istatus.cwp.toNat) ∧
      State.reset.cfg.nwin ≤
        (fieldsOf State.reset.cfg.layout ((start [(1#5, 0x70#32)] []).reg 1#5)).cwp.toNat ∧
      ∃ t, exec (.add 31#5 31#5) State.reset = .next t :=
  ⟨⟨all_registers _, by decide, by decide, by decide⟩, by decide, by decide, ⟨all_registers _, by decide⟩, by decide,
    _, rfl⟩

/-- Each kind of block. -/
theorem witness_CustomInstructions :
    HasReg { State.reset with cfg := { Config.default with usr0 := .pure } } 31#5 ∧
      { Config.default with usr0 := .pure }.usr0 = .pure ∧ { Config.default with usr1 := .pure }.usr1 = .pure ∧
      { Config.default with usr2 := .pure }.usr2 = .pure ∧ { Config.default with usr3 := .pure }.usr3 = .pure ∧
      { Config.default with usr4 := .pure }.usr4 = .pure ∧ Config.default.usr0 = .absent ∧
      Config.default.usr1 = .absent ∧ Config.default.usr2 = .absent ∧ Config.default.usr3 = .absent ∧
      Config.default.usr4 = .absent ∧ { Config.default with usr0 := .impure }.usr0 = .impure ∧
      { Config.default with usr1 := .impure }.usr1 = .impure ∧
      { Config.default with usr2 := .impure }.usr2 = .impure ∧
      { Config.default with usr3 := .impure }.usr3 = .impure ∧
      { Config.default with usr4 := .impure }.usr4 = .impure :=
  ⟨all_registers _, by decide⟩

/-- An instruction for each clause: ADD for the flags, TRAP for the window and ISTATUS, WRCTL for the limits. -/
theorem witness_OnlyNamedWriteControl :
    (∃ t, exec (.sub 1#5 2#5) State.reset = .next t ∧ t.status.z ≠ State.reset.status.z) ∧
      (∃ t, exec (.trap 0#6) State.reset = .next t ∧ t.status.cwp ≠ State.reset.status.cwp ∧
        t.istatus ≠ State.reset.istatus ∧ t.status.ipri ≠ State.reset.status.ipri) ∧
      (∃ t, exec (.trap 0#6) (startIn 0xFE60#16 [] []) = .next t ∧
        t.status.ie ≠ (startIn 0xFE60#16 [] []).status.ie) ∧
      (∃ t, exec (.subi 1#5 1#5) State.reset = .next t ∧ t.status.c ≠ State.reset.status.c ∧
        t.status.n ≠ State.reset.status.n) ∧
      (∃ t, exec (.subi 1#5 1#5) (start [(1#5, 0x80000000#32)] []) = .next t ∧
        t.status.v ≠ (start [(1#5, 0x80000000#32)] []).status.v) ∧
      ∃ t, exec (.wrctl 1#5) (prefixed 2#11 State.reset) = .next t ∧ t.hiLimit ≠ State.reset.hiLimit :=
  ⟨⟨_, rfl, by decide⟩, ⟨_, rfl, by decide, by decide, by decide⟩, ⟨_, rfl, by decide⟩,
    ⟨_, rfl, by decide, by decide⟩, ⟨_, rfl, by decide⟩, _, rfl, by decide⟩

theorem witness_OnlyStoresWriteMemory :
    ∃ t, exec (.st 1#5 2#5) (data (start [(2#5, 0x2000#32)] [])) = .next t ∧
      t.byteAt 0x2000#32 ≠ (data (start [(2#5, 0x2000#32)] [])).byteAt 0x2000#32 ∧ t.wasStored 0x2000#32 :=
  ⟨_, rfl, by decide, by decide⟩

theorem witness_CellsOutsideWindowsKept :
    ∃ t, exec (.trap 63#6) State.reset = .next t ∧ t.cell 95 ≠ State.reset.cell 95 := ⟨_, rfl, by decide⟩

/-- Window 5 and the window above it; two windows of the file, the last register. -/
theorem witness_WindowsOverlap :
    (7#5 : RegNum).toNat < 8 ∧ State.reset.status.cwp.toNat = (startIn 0x7E50#16 [] []).status.cwp.toNat + 1 ∧
      State.reset.regIndex 31#5 = 127 ∧ State.reset.status.cwp.toNat < State.reset.cfg.nwin := by decide

/-- The state after reset, with a word at the pc. -/
theorem witness_InvariantKept :
    (start [] [0x0041]).Inv ∧ ∃ t, step (start [] [0x0041]) = .next t :=
  ⟨{ config := by decide
     fileSize := rfl
     window := by decide
     pcEven := by decide
     delayEven := fun _ h => by cases h
     pcFits := by decide
     delayFits := fun _ h => by cases h
     prefixClear := by decide
     pendingAlone := by decide
     memory := by decide
     marks := by decide
     memoryFits := by decide
     storedKnown := by decide }, _, rfl⟩

/-- The default configuration, and one that differs from it in every parameter that has a default. -/
theorem witness_InvariantAtReset : Config.default.wellFormed = true ∧ other.wellFormed = true := by decide

theorem witness_ResetHiddenState :
    other.wellFormed = true ∧ State.resetWith other = State.resetWith other := ⟨by decide, rfl⟩

end Sys2Proof.Tests
end

section
/-!
PROOFS. The statements of 00_scope.md: which instruction a step runs (R16), and the default parameters (R6).
-/

namespace Sys2Proof.Proofs

open Sys2Proof.Machine Sys2Proof.Claims

variable {s : State} {i : Instr}

/-! ### The step at a fetched instruction -/

/-- What the two bytes at the pc decode to is what the step fetches, where neither the pc nor the memory stops it. -/
theorem fetchInstr_of_decode (heven : s.pc.getLsbD 0 = false) (hadmits0 : s.admits s.pc = true)
    (hadmits1 : s.admits (s.pc + 1#32) = true) (hfresh0 : s.wasStored s.pc = false)
    (hfresh1 : s.wasStored (s.pc + 1#32) = false)
    (hdecode : decode (s.byteAt (s.pc + 1#32) ++ s.byteAt s.pc) s.pfx = .ok i) : s.fetchInstr = .next i := by
  have hadmitted : s.admitsAll s.pc 2 = true := by simp [State.admitsAll, hadmits0, hadmits1]
  exact State.fetchInstr_eq_next.2
    ⟨_, State.fetch16_eq_next.2 ⟨heven, hadmitted, hfresh0, hfresh1, rfl⟩, hdecode⟩

theorem step_of_placeFault_none (hrequest : s.accepted = none) (hfetch : s.fetchInstr = .next i)
    (hplace : s.placeFault i = none) : step s = exec i s := by
  simp only [step, hrequest, hfetch, andThen_next, hplace]

theorem step_of_placeFault_some {r : Fault} (hrequest : s.accepted = none) (hfetch : s.fetchInstr = .next i)
    (hplace : s.placeFault i = some r) : step s = .fault r := by
  simp only [step, hrequest, hfetch, andThen_next, hplace]

/-- Behind a WRCTL, an instruction that its slot does not forbid still has to be NOP. -/
theorem placeFault_of_hazard (hslot : s.delay = none ∨ slotForbidden i = false) (hhazard : s.wrctlHazard = true)
    (hnop : i ≠ nop) : s.placeFault i = some .wrctlNotFollowedByNop := by
  have hallowed : (s.delay.isSome && slotForbidden i) = false := by
    rcases hslot with h | h <;> simp [h]
  simp [State.placeFault, hallowed, hhazard, hnop]

/-- Settles O5: the fetch is fixed by the bytes, and then the two checks of 00_scope.md R16 decide, in their order. -/
theorem stepRunsDecodedInstr : Obligations.StepRunsDecodedInstr := by
  intro s i hrequest heven hadmits0 hadmits1 hfresh0 hfresh1 hdecode
  have hfetch : s.fetchInstr = .next i :=
    fetchInstr_of_decode heven hadmits0 hadmits1 hfresh0 hfresh1 hdecode
  refine ⟨fun hslot hhazard => ?allowed, fun hdelay hforbidden => ?slot, fun hslot hhazard hnop => ?hazard⟩
  case allowed => exact step_of_placeFault_none hrequest hfetch (State.placeFault_eq_none.2 ⟨hslot, hhazard⟩)
  case slot => exact step_of_placeFault_some hrequest hfetch (notInSlot hforbidden hdelay)
  case hazard => exact step_of_placeFault_some hrequest hfetch (placeFault_of_hazard hslot hhazard hnop)

/-! ### The default parameters -/

/-- The pointer registers are `%L0` to `%L3`, at 16 and up, in the order of the p-field. -/
theorem pointerReg_default : ∀ p : BitVec 2, pointerReg Config.default p = 16#5 + p.setWidth 5 := by decide

/-- The fields that the reset of the test vectors leaves are those of the word `0x7E60`: IPRI 63, CWP 6, the rest 0. -/
theorem resetStatus_default : Config.default.resetStatus = fieldsOf Config.default.layout 0x7E60#32 := by decide

/-- Settles O60: the configuration of State.reset is `Config.default`, whose fields are read off. -/
theorem defaultParameters : Obligations.DefaultParameters :=
  ⟨rfl, by decide, rfl, rfl, rfl, rfl, rfl, rfl, pointerReg_default, rfl, rfl, rfl, rfl, rfl, rfl, rfl, rfl, rfl,
    resetStatus_default⟩

end Sys2Proof.Proofs
end

section
/-!
PROOFS. The statements of 10_state.md. Whatever completes is one of the effects of `exec_effect`; a statement over all
instructions is one lemma per operation that the effects are made of, put together effect by effect.
-/

namespace Sys2Proof.Proofs

open Sys2Proof.Machine Sys2Proof.Claims

variable {s t : State} {i : Instr}

/-! ### The windows -/

/-- The globals are the same cells in every window. -/
theorem regIndex_of_lt {j : RegNum} (h : j.toNat < 8) : s.regIndex j = j.toNat := if_pos h

theorem regIndex_injective {i j : RegNum} (h : s.regIndex i = s.regIndex j) : i = j := by
  apply BitVec.eq_of_toNat_eq
  rcases Nat.lt_or_ge i.toNat 8 with hi | hi <;> rcases Nat.lt_or_ge j.toNat 8 with hj | hj
  · rwa [regIndex_of_lt hi, regIndex_of_lt hj] at h
  · rw [regIndex_of_lt hi, sw_regIndex _ _ hj] at h
    omega
  · rw [sw_regIndex _ _ hi, regIndex_of_lt hj] at h
    omega
  · rw [sw_regIndex _ _ hi, sw_regIndex _ _ hj] at h
    omega

/-- The file has sixteen cells for each window, and sixteen more for the globals and the last window's in registers. -/
theorem inFile_of_window (hw : s.status.cwp.toNat < s.cfg.nwin) (j : RegNum) : s.inFile j = true := by
  have := j.isLt
  rw [State.inFile, decide_eq_true_eq, Config.nregs]
  rcases Nat.lt_or_ge j.toNat 8 with hj | hj
  · rw [regIndex_of_lt hj]
    omega
  · rw [sw_regIndex _ _ hj]
    omega

/-- In register `j` of a window is out register `j` of the window above, sixteen cells up. -/
theorem regIndex_in_eq_out {j : RegNum} (hj : j.toNat < 8)
    (hw : s.status.cwp.toNat = t.status.cwp.toNat + 1) : t.regIndex (24#5 + j) = s.regIndex (8#5 + j) := by
  have hin : (24#5 + j).toNat = 24 + j.toNat := by bv_omega
  have hout : (8#5 + j).toNat = 8 + j.toNat := by bv_omega
  rw [sw_regIndex _ _ (by omega), sw_regIndex _ _ (by omega), hin, hout, hw]
  omega

/-- Settles O56: globals are their own numbers, every other register is at sixteen times its window. -/
theorem windowsOverlap : Obligations.WindowsOverlap :=
  ⟨fun _ _ _ hj hw => ⟨regIndex_in_eq_out hj hw, by rw [regIndex_of_lt hj, regIndex_of_lt hj]⟩,
    fun _ _ _ => regIndex_injective, fun _ j hw => inFile_of_window hw j⟩

/-! ### The cells an effect reaches -/

/-- Every cell that changes from `s` to `t` is a visible register of the window before or of the window after. -/
def ChangesVisibleCells (s t : State) : Prop :=
  ∀ n, t.cell n ≠ s.cell n → ∃ r, n = s.regIndex r ∨ n = t.regIndex r

theorem changesVisibleCells_of_regs_eq (h : t.regs = s.regs) : ChangesVisibleCells s t :=
  fun n hn => absurd (State.cell_congr h n) hn

/-- One register of a window that is that of `s` or that of `t` is written. -/
theorem changesVisibleCells_of_setReg {u : State} {a : RegNum} {v : Word} (hu : u.regs = s.regs)
    (ht : t.regs = (u.setReg a v).regs) (hw : u.status.cwp = s.status.cwp ∨ u.status.cwp = t.status.cwp) :
    ChangesVisibleCells s t := by
  intro n hn
  have hna : n = u.regIndex a := by
    by_contra hne
    rw [State.cell_congr ht, State.cell_setReg_ne hne, State.cell_congr hu] at hn
    exact hn rfl
  exact ⟨a, hna ▸ hw.imp (State.regIndex_congr · a) (State.regIndex_congr · a)⟩

/-- A register of the window that CWP has moved to is written. -/
theorem changesVisibleCells_withCwp_setReg (w : BitVec 5) (a : RegNum) (v : Word) :
    ChangesVisibleCells s ((s.setStatus (s.status.withCwp w)).setReg a v) :=
  changesVisibleCells_of_setReg (u := s.setStatus (s.status.withCwp w)) rfl rfl (.inr rfl)

/-- Two registers of one window are written: `%sp` and `%o7` of the window of the handler. -/
theorem changesVisibleCells_trans {u : State} (hs : ChangesVisibleCells s u) (ht : ChangesVisibleCells u t)
    (hw : u.status.cwp = t.status.cwp) : ChangesVisibleCells s t := by
  intro n hn
  by_cases hu : u.cell n = s.cell n
  · obtain ⟨r, hr⟩ := ht n (hu ▸ hn)
    exact ⟨r, .inr (hr.elim (·.trans (State.regIndex_congr hw r)) id)⟩
  · obtain ⟨r, hr⟩ := hs n hu
    exact ⟨r, hr.imp id (·.trans (State.regIndex_congr hw r))⟩

theorem changesVisibleCells_of_effect (h : Effect i s t) : ChangesVisibleCells s t := by
  cases h with
  | assign a v => exact changesVisibleCells_of_setReg (u := s) rfl rfl (.inl rfl)
  | arithmetic a v f =>
    exact changesVisibleCells_of_setReg (u := s.setStatus (s.status.withFlags f)) rfl rfl (.inl rfl)
  | logic a v r => exact changesVisibleCells_of_setReg (u := s.setStatus (s.status.withNZ r)) rfl rfl (.inl rfl)
  | rotate a v c => exact changesVisibleCells_of_setReg (u := s.setStatus (s.status.withC c)) rfl rfl (.inl rfl)
  | link v => exact changesVisibleCells_of_setReg (u := s) rfl rfl (.inl rfl)
  | save v => exact changesVisibleCells_withCwp_setReg (s.status.cwp - 1#5) s.cfg.spReg v
  | trap u n r x w _ hu =>
    have hregs : u.regs = s.regs := by rcases hu with rfl | rfl <;> rfl
    exact changesVisibleCells_of_setReg (u := u.trapped n w) hregs rfl (.inr rfl)
  | underflow v r x =>
    exact changesVisibleCells_trans (changesVisibleCells_withCwp_setReg (s.status.cwp - 1#5) s.cfg.spReg v)
      (changesVisibleCells_of_setReg (u := State.trapped _ 1#6 (s.status.cwp - 1#5)) rfl rfl (.inr rfl)) rfl
  | store w l => exact changesVisibleCells_of_regs_eq (by simp)
  | compare | goOn | branch | skip | loadK | tret | writeStatus | writeIstatus | writeLimits | restore =>
    exact changesVisibleCells_of_regs_eq rfl

/-- Settles O55: an effect writes registers of the window before, or, where it moves the window, of the window after. -/
theorem cellsOutsideWindowsKept : Obligations.CellsOutsideWindowsKept :=
  fun _ _ _ n h => changesVisibleCells_of_effect (exec_effect h) n

/-! ### The fields of STATUS -/

/-- A field of STATUS that changes names the family of the instruction (10_state.md R30, R33). -/
structure StatusNamed (i : Instr) (s t : State) : Prop where
  c : t.status.c ≠ s.status.c → (isArithmetic i || isRotate i || isStatusWriter s.k i) = true
  n : t.status.n ≠ s.status.n → (isArithmetic i || isLogic i || isStatusWriter s.k i) = true
  z : t.status.z ≠ s.status.z → (isArithmetic i || isLogic i || isStatusWriter s.k i) = true
  v : t.status.v ≠ s.status.v → (isArithmetic i || isStatusWriter s.k i) = true
  cwp : t.status.cwp ≠ s.status.cwp → (isWindowOrTrap i || isStatusWriter s.k i) = true
  ie : t.status.ie ≠ s.status.ie → (isWindowOrTrap i || isStatusWriter s.k i) = true
  ipri : t.status.ipri ≠ s.status.ipri → (isWindowOrTrap i || isStatusWriter s.k i) = true

theorem statusNamed_of_status_eq (h : t.status = s.status) : StatusNamed i s t := by
  constructor <;> simp [h]

theorem statusNamed_of_withFlags {f : Flags} (hi : isArithmetic i = true) (h : t.status = s.status.withFlags f) :
    StatusNamed i s t := by
  constructor <;> simp [h, hi]

theorem statusNamed_of_withNZ {r : Word} (hi : isLogic i = true) (h : t.status = s.status.withNZ r) :
    StatusNamed i s t := by
  constructor <;> simp [h, hi]

theorem statusNamed_of_withC {c : Bool} (hi : isRotate i = true) (h : t.status = s.status.withC c) :
    StatusNamed i s t := by
  constructor <;> simp [h, hi]

/-- A move of the window and a trap entry keep the flags. -/
theorem statusNamed_of_windowOrTrap {ie : Bool} {ipri : BitVec 6} {w : BitVec 5} (hi : isWindowOrTrap i = true)
    (h : t.status = { s.status with ie := ie, ipri := ipri, cwp := w }) : StatusNamed i s t := by
  constructor <;> simp [h, hi]

theorem statusNamed_of_statusWriter (hi : isStatusWriter s.k i = true) : StatusNamed i s t := by
  constructor <;> simp [hi]

theorem statusNamed_of_effect (h : Effect i s t) : StatusNamed i s t := by
  cases h with
  | arithmetic a v f hi | compare f hi => exact statusNamed_of_withFlags hi rfl
  | logic a v r hi => exact statusNamed_of_withNZ hi rfl
  | rotate a v c hi => exact statusNamed_of_withC hi rfl
  | tret a hi => exact statusNamed_of_statusWriter (by simp [hi, isStatusWriter])
  | writeStatus a st hi hk => exact statusNamed_of_statusWriter (by simp [hi, hk, isStatusWriter])
  | save v hi | underflow v r x hi => exact statusNamed_of_windowOrTrap hi rfl
  | restore hi => exact statusNamed_of_windowOrTrap (by simp [hi, isWindowOrTrap]) rfl
  | trap u n r x w hi hu => rcases hu with rfl | rfl <;> exact statusNamed_of_windowOrTrap hi rfl
  | store w l => exact statusNamed_of_status_eq (by simp)
  | assign | goOn | branch | link | skip | loadK | writeIstatus | writeLimits => exact statusNamed_of_status_eq rfl

/-! ### ISTATUS, the limits, the configuration and the interrupt input -/

/-- A change of ISTATUS or of the limits names the family of the instruction, and the rest does not change (10_state.md
R35, R36; logs 6 and 22). -/
structure SystemNamed (i : Instr) (s t : State) : Prop where
  istatus : t.istatus ≠ s.istatus → isWindowOrTrap i = true ∨ (s.k = s.cfg.ctlIstatus ∧ ∃ a, i = .wrctl a)
  limits : t.hiLimit ≠ s.hiLimit ∨ t.loLimit ≠ s.loLimit → s.k = s.cfg.ctlWvalid ∧ ∃ a, i = .wrctl a
  cfg : t.cfg = s.cfg
  request : t.request = s.request

theorem systemNamed_of_keepsSystem (h : KeepsSystem s t) : SystemNamed i s t := by
  obtain ⟨hcfg, histatus, hhi, hlo, hrequest⟩ := h
  exact ⟨absurd histatus, fun hne => (hne.elim (· hhi) (· hlo)).elim, hcfg, hrequest⟩

theorem systemNamed_of_windowOrTrap (hi : isWindowOrTrap i = true) (hhi : t.hiLimit = s.hiLimit)
    (hlo : t.loLimit = s.loLimit) (hcfg : t.cfg = s.cfg) (hrequest : t.request = s.request) : SystemNamed i s t :=
  ⟨fun _ => .inl hi, fun hne => (hne.elim (· hhi) (· hlo)).elim, hcfg, hrequest⟩

theorem systemNamed_of_effect (h : Effect i s t) : SystemNamed i s t := by
  cases h with
  | writeIstatus a st hi hk => exact ⟨fun _ => .inr ⟨hk, a, hi⟩, by simp, rfl, rfl⟩
  | writeLimits a hi' lo hi hk => exact ⟨by simp, fun _ => ⟨hk, a, hi⟩, rfl, rfl⟩
  | trap u n r x w hi hu =>
    rcases hu with rfl | rfl <;> exact systemNamed_of_windowOrTrap hi rfl rfl rfl rfl
  | underflow v r x hi => exact systemNamed_of_windowOrTrap hi rfl rfl rfl rfl
  | store w l => exact systemNamed_of_keepsSystem (by simp [KeepsSystem])
  | assign | arithmetic | compare | logic | rotate | goOn | branch | link | skip | loadK | tret | writeStatus | save
  | restore => exact systemNamed_of_keepsSystem ⟨rfl, rfl, rfl, rfl, rfl⟩

/-- Settles O53: an effect that writes a control field carries the family of its instruction. -/
theorem onlyNamedWriteControl : Obligations.OnlyNamedWriteControl := by
  intro i s t h
  obtain ⟨hc, hn, hz, hv, hcwp, hie, hipri⟩ := statusNamed_of_effect (exec_effect h)
  obtain ⟨histatus, hlimits, hcfg, hrequest⟩ := systemNamed_of_effect (exec_effect h)
  exact ⟨hc, hn, hz, hv, hcwp, hie, hipri, histatus, hlimits, hcfg, hrequest⟩

/-! ### What completes had its registers in the file -/

/-- Every register of the list is a cell of the register file. -/
def AllInFile (s : State) (l : List RegNum) : Prop := ∀ r ∈ l, s.inFile r = true

theorem allInFile_nil : AllInFile s [] := by simp [AllInFile]

theorem allInFile_single {a : RegNum} (ha : s.inFile a = true) : AllInFile s [a] := by simpa [AllInFile] using ha

theorem allInFile_pair {a b : RegNum} (ha : s.inFile a = true) (hb : s.inFile b = true) : AllInFile s [a, b] := by
  simp [AllInFile, ha, hb]

theorem andThen_readReg_eq_next {β : Type} {a : RegNum} {f : Word → Result β} {b : β} :
    andThen (s.readReg a) f = .next b ↔ s.inFile a = true ∧ f (s.reg a) = .next b := by
  simp only [andThen_eq_next, State.readReg_eq_next]
  exact ⟨fun ⟨_, ⟨ha, hx⟩, h⟩ => ⟨ha, hx ▸ h⟩, fun ⟨ha, h⟩ => ⟨_, ⟨ha, rfl⟩, h⟩⟩

/-- What begins by reading a register completes only where that register is in the file. -/
theorem allInFile_of_readReg {a : RegNum} {f : Word → Result State} (h : andThen (s.readReg a) f = .next t) :
    AllInFile s [a] :=
  allInFile_single (andThen_readReg_eq_next.1 h).1

theorem allInFile_of_assign {a : RegNum} {v : Word} (h : s.assign a v = .next t) : AllInFile s [a] :=
  allInFile_single (State.assign_eq_next.1 h).1

theorem allInFile_of_mapRegs {a b : RegNum} {f : Word → Word → Word} (h : s.mapRegs a b f = .next t) :
    AllInFile s [a, b] := by
  obtain ⟨ha, hb, -⟩ := State.mapRegs_eq_next.1 h
  exact allInFile_pair ha hb

theorem allInFile_of_mapZero {a : RegNum} {f : Word → Word → Word} (h : s.mapZero a f = .next t) :
    AllInFile s [a, zeroReg] := by
  obtain ⟨hzero, ha, -⟩ := State.mapZero_eq_next.1 h
  exact allInFile_pair ha hzero

theorem allInFile_of_custom {logic : CustomLogic} {op : Word → Word → Word} {a b : RegNum}
    (h : s.custom logic op a b = .next t) : AllInFile s [a, b] := by
  obtain ⟨-, ha, hb, -⟩ := State.custom_eq_next.1 h
  exact allInFile_pair ha hb

/-- A logic instruction names its second operand only where it is a register. -/
theorem allInFile_of_logic {a : RegNum} {o : LogicOperand} {f : Word → Word → Word} (h : s.logic a o f = .next t) :
    AllInFile s (match o with | .reg b => [a, b] | .imm _ => [a]) := by
  obtain ⟨ha, y, hy, -⟩ := State.logic_eq_next.1 h
  cases o with
  | reg b => exact allInFile_pair ha (State.readReg_eq_next.1 hy).1
  | imm _ => exact allInFile_single ha

/-- A load reads its base register, and a store reads both. -/
theorem allInFile_of_load {a b : RegNum} {w : Word} (h : andThen (s.readReg b) (fun _ => s.loadTo a w) = .next t) :
    AllInFile s [a, b] := by
  obtain ⟨hb, hload⟩ := andThen_readReg_eq_next.1 h
  obtain ⟨-, ha, -⟩ := State.loadTo_eq_next.1 hload
  exact allInFile_pair ha hb

theorem allInFile_of_store {a b : RegNum} {w : Word} (h : andThen (s.readReg b) (fun _ => s.storeFrom a w) = .next t) :
    AllInFile s [a, b] := by
  obtain ⟨hb, hstore⟩ := andThen_readReg_eq_next.1 h
  exact allInFile_pair (State.storeFrom_eq_next.1 hstore).1 hb

theorem allInFile_of_storeByteLane {a : RegNum} {w : Word → Word} {n : Word → BitVec 2}
    (h : andThen (s.readReg a) (fun x => s.storeByteLane (w x) (n x)) = .next t) : AllInFile s [a, zeroReg] := by
  obtain ⟨ha, hstore⟩ := andThen_readReg_eq_next.1 h
  exact allInFile_pair ha (State.storeByteLane_eq_next.1 hstore).1

theorem allInFile_of_storeHalfLane {a : RegNum} {w : Word → Word} {n : Word → BitVec 1}
    (h : andThen (s.readReg a) (fun x => s.storeHalfLane (w x) (n x)) = .next t) : AllInFile s [a, zeroReg] := by
  obtain ⟨ha, hstore⟩ := andThen_readReg_eq_next.1 h
  exact allInFile_pair ha (State.storeHalfLane_eq_next.1 hstore).1

/-- FILL8 and FILL16 read RA and write `%r0`. -/
theorem allInFile_of_fill {a : RegNum} {v : Word → Word}
    (h : andThen (s.readReg a) (fun x => s.assign zeroReg (v x)) = .next t) : AllInFile s [a, zeroReg] := by
  obtain ⟨ha, hassign⟩ := andThen_readReg_eq_next.1 h
  exact allInFile_pair ha (State.assign_eq_next.1 hassign).1

/-- NOP names no register. -/
theorem allInFile_of_mov {a b : RegNum} (h : execMov a b s = .next t) :
    AllInFile s (if a = 0#5 ∧ b = 0#5 then [] else [a, b]) := by
  unfold execMov zeroReg at h
  split at h
  next hnop => rw [if_pos hnop]; exact allInFile_nil
  next hmov =>
    rw [if_neg hmov]
    obtain ⟨hb, hassign⟩ := andThen_readReg_eq_next.1 h
    exact allInFile_pair (State.assign_eq_next.1 hassign).1 hb

theorem allInFile_of_rdctl {a : RegNum} (h : execRdctl a s = .next t) : AllInFile s [a] := by
  unfold execRdctl at h
  split at h
  next => exact allInFile_of_assign h
  next =>
    split at h
    next => exact allInFile_of_assign h
    next =>
      split at h
      next => exact allInFile_of_assign h
      next => simp at h

theorem allInFile_of_bsr {imm11 : BitVec 11} (h : execBsr imm11 s = .next t) : AllInFile s [linkReg] := by
  obtain ⟨_, hwrite, -⟩ := andThen_eq_next.1 h
  exact allInFile_single (State.writeReg_eq_next.1 hwrite).1

theorem allInFile_of_call {a : RegNum} (h : execCall a s = .next t) : AllInFile s [a, linkReg] := by
  obtain ⟨ha, hcall⟩ := andThen_readReg_eq_next.1 h
  obtain ⟨_, hwrite, -⟩ := andThen_eq_next.1 hcall
  exact allInFile_pair ha (State.writeReg_eq_next.1 hwrite).1

/-- The p-field names the pointer register of the statements. -/
theorem pReg_eq_pointerReg (p : BitVec 2) : s.pReg p = pointerReg s.cfg p := State.pReg_eq s p

/-- No instruction completes that names a register outside the file. -/
theorem namedRegs_inFile (h : exec i s = .next t) : AllInFile s (namedRegs s.cfg i) := by
  cases i with
  | add a b =>
    obtain ⟨hb, hadd⟩ := andThen_readReg_eq_next.1 h
    exact allInFile_pair (State.addTo_eq_next.1 hadd).1 hb
  | sub a b =>
    obtain ⟨hb, hsub⟩ := andThen_readReg_eq_next.1 h
    exact allInFile_pair (State.subFrom_eq_next.1 hsub).1 hb
  | cmp a b =>
    obtain ⟨hb, hcmp⟩ := andThen_readReg_eq_next.1 h
    exact allInFile_pair (State.compare_eq_next.1 hcmp).1 hb
  | lsl a b | lsr a b | asr a b | ext8d a b | ext16d a b => exact allInFile_of_mapRegs h
  | and a o | andn a o | or a o | xor a o => cases o <;> exact allInFile_of_logic h
  | mov a b => exact allInFile_of_mov h
  | movi a imm | bgen a imm => exact allInFile_of_assign h
  | rdctl a => exact allInFile_of_rdctl h
  | addi a imm | subi a imm | cmpi a imm | lsli a imm | lsri a imm | asri a imm | movhi a imm | skp0 a imm | skp1 a imm
  | ext8s a imm | ext16s a imm => exact allInFile_of_readReg h
  | not a | neg a | abs a | sext8 a | sext16 a | rlc a | rrc a | swap a | tret a | skprz a | skprnz a | wrctl a
  | jmp a => exact allInFile_of_readReg h
  | ld a b => exact allInFile_of_load (w := s.addrK b) h
  | st a b => exact allInFile_of_store (w := s.addrK b) h
  | lds a imm8 => exact allInFile_of_load (w := s.addrSp (imm8.setWidth 32 * 4#32)) h
  | sts a imm8 => exact allInFile_of_store (w := s.addrSp (imm8.setWidth 32 * 4#32)) h
  | ldp a p imm5 =>
    rw [namedRegs, ← pReg_eq_pointerReg]
    exact allInFile_of_load (w := s.addrP p imm5) h
  | stp a p imm5 =>
    rw [namedRegs, ← pReg_eq_pointerReg]
    exact allInFile_of_store (w := s.addrP p imm5) h
  | st8d a | st8s a _ | sts8s _ => exact allInFile_of_storeByteLane h
  | st16d a | st16s a _ | sts16s _ => exact allInFile_of_storeHalfLane h
  | usr0 a b => exact allInFile_of_custom h
  | usr1 a | usr2 a | usr3 a | usr4 a => exact allInFile_of_custom h
  | fill8 a | fill16 a => exact allInFile_of_fill h
  | mstep a => exact allInFile_of_mapZero h
  | mul a =>
    simp only [exec, execMul] at h
    exact allInFile_of_mapZero h
  | call a => exact allInFile_of_call h
  | bsr imm11 => exact allInFile_of_bsr h
  | save | restore | trap | skps | br | pfx => exact allInFile_nil

/-! ### What stops by name -/

theorem badWindow_of_nwin_le {w : BitVec 5} (h : s.cfg.nwin ≤ w.toNat) : s.badWindow w = true := decide_eq_true h

theorem execWrctl_of_unknown {a : RegNum} (ha : s.inFile a = true) (hstatus : s.k ≠ 0#11)
    (histatus : s.k ≠ s.cfg.ctlIstatus) (hlimits : s.k ≠ s.cfg.ctlWvalid) :
    execWrctl a s = .fault .unknownControlRegister := by
  rw [execWrctl, State.readReg_of_inFile ha, andThen_next, if_neg hstatus, if_neg histatus, if_neg hlimits]

theorem execRdctl_of_unknown {a : RegNum} (hstatus : s.k ≠ 0#11) (histatus : s.k ≠ s.cfg.ctlIstatus)
    (hlimits : s.k ≠ s.cfg.ctlWvalid) : execRdctl a s = .fault .unknownControlRegister := by
  rw [execRdctl, if_neg hstatus, if_neg histatus, if_neg hlimits]

theorem execWrctl_of_badWindow {a : RegNum} (ha : s.inFile a = true) (hstatus : s.k = 0#11)
    (hw : s.cfg.nwin ≤ (fieldsOf s.cfg.layout (s.reg a)).cwp.toNat) :
    execWrctl a s = .fault .windowOutOfFile := by
  rw [← unpack_eq] at hw
  rw [execWrctl, State.readReg_of_inFile ha, andThen_next, if_pos hstatus, if_pos (badWindow_of_nwin_le hw)]

theorem execTret_of_badWindow {a : RegNum} (ha : s.inFile a = true) (hw : s.cfg.nwin ≤ s.istatus.cwp.toNat) :
    execTret a s = .fault .windowOutOfFile := by
  rw [execTret, State.returnFromTrap, State.readReg_of_inFile ha, andThen_next, if_pos (badWindow_of_nwin_le hw)]

/-- Settles O51: each stop is the branch its condition selects; and what completes had its registers in the file. -/
theorem stopsOutsideTheFile : Obligations.StopsOutsideTheFile := by
  refine ⟨?control, ?windowZero, ?windowAbove, ?tret, ?wrctl, ?registers⟩
  case control =>
    exact fun a s ha hstatus histatus hlimits =>
      ⟨execWrctl_of_unknown ha.1 hstatus histatus hlimits, execRdctl_of_unknown hstatus histatus hlimits⟩
  case windowZero => exact fun s imm8 n h0 => ⟨if_pos h0, if_pos h0⟩
  case windowAbove => exact fun s hnwin hhi => if_pos ⟨hnwin, hhi⟩
  case tret => exact fun a s ha hw => execTret_of_badWindow ha.1 hw
  case wrctl => exact fun a s ha hstatus hw => execWrctl_of_badWindow ha.1 hstatus hw
  case registers => exact fun i s t h => namedRegs_inFile h

/-! ### The invariant: what each operation keeps of it -/

theorem inv_setReg (hs : s.Inv) (a : RegNum) (v : Word) : (s.setReg a v).Inv :=
  { hs with fileSize := by simp [hs.fileSize] }

theorem inv_setStatus (hs : s.Inv) (st : Status) (hw : st.cwp.toNat < s.cfg.nwin) : (s.setStatus st).Inv :=
  { hs with window := hw }

theorem inv_setIstatus (hs : s.Inv) (st : Status) : (s.setIstatus st).Inv := { hs with }

theorem inv_setLimits (hs : s.Inv) (hi lo : BitVec 5) : (s.setLimits hi lo).Inv := { hs with }

/-- Storing bytes is the one operation that touches memory, and it touches nothing else. -/
theorem inv_putBytes (hs : s.Inv) (a : Word) (l : List Byte) : (s.putBytes a l).Inv := by
  obtain ⟨hmemory, hmarks, hknown⟩ := s.putBytes_keeps_memory a l hs.memory hs.marks hs.storedKnown
  exact
    { config := by simpa using hs.config
      fileSize := by simpa using hs.fileSize
      window := by simpa using hs.window
      pcEven := by simpa using hs.pcEven
      delayEven := by simpa using hs.delayEven
      pcFits := by simpa using hs.pcFits
      delayFits := by simpa using hs.delayFits
      prefixClear := by simpa using hs.prefixClear
      pendingAlone := by simpa using hs.pendingAlone
      memory := hmemory
      marks := hmarks
      memoryFits := by simpa using s.putBytes_keeps_fits a l hs.memoryFits
      storedKnown := hknown }

/-- The state a trap leaves is one in which STATUS and ISTATUS were written, whatever STATUS was before: a RESTORE
enters its trap with CWP past the file. -/
theorem inv_trapped_setStatus (hs : s.Inv) (st : Status) (n : BitVec 6) {w : BitVec 5} (hw : w.toNat < s.cfg.nwin) :
    ((s.setStatus st).trapped n w).Inv :=
  inv_setIstatus (inv_setStatus hs { st with ie := false, ipri := n, cwp := w } hw) st

theorem inv_trapped (hs : s.Inv) (n : BitVec 6) {w : BitVec 5} (hw : w.toNat < s.cfg.nwin) : (s.trapped n w).Inv :=
  inv_trapped_setStatus hs s.status n hw

theorem inv_atHandler (hs : s.Inv) (v : Word) : (s.atHandler v).Inv :=
  { hs with
    pcEven := s.address_even (getLsbD_zero_double v)
    delayEven := by simp
    pcFits := s.address_fits _
    delayFits := by simp
    prefixClear := by simp
    pendingAlone := by simp }

/-- The next pc is a pending target, which the invariant speaks of, or the address of `p`; the next pending target is
the address of `d`. -/
theorem inv_retire (hs : s.Inv) {p : Word} {d : Option Word} (hp : p.getLsbD 0 = false)
    (hd : ∀ g, d = some g → g.getLsbD 0 = false) : (s.retire p d).Inv := by
  have hpc : (s.retire p d).pc.getLsbD 0 = false ∧ (s.retire p d).pc.toNat < 2 ^ s.cfg.addrBits := by
    rw [State.retire_pc]
    cases hdelay : s.delay with
    | none => exact ⟨s.address_even hp, s.address_fits p⟩
    | some g => exact ⟨hs.delayEven g hdelay, hs.delayFits g hdelay⟩
  have hpending : ∀ g, (s.retire p d).delay = some g →
      g.getLsbD 0 = false ∧ g.toNat < 2 ^ s.cfg.addrBits := by
    intro g hg
    simp only [State.retire_delay, Option.ite_none_left_eq_some, Option.map_eq_some_iff] at hg
    obtain ⟨-, g', hg', rfl⟩ := hg
    exact ⟨s.address_even (hd g' hg'), s.address_fits g'⟩
  exact
    { hs with
      pcEven := hpc.1
      delayEven := fun g hg => (hpending g hg).1
      pcFits := hpc.2
      delayFits := fun g hg => (hpending g hg).2
      prefixClear := by simp
      pendingAlone := by simp }

/-- The address of the next instruction is even. -/
theorem pc_add_two_even (hs : s.Inv) : (s.pc + 2#32).getLsbD 0 = false := by
  rw [getLsbD_zero_add rfl, hs.pcEven]

theorem inv_advance (hs : s.Inv) : s.advance.Inv := inv_retire hs (pc_add_two_even hs) (by simp)

theorem inv_branch (hs : s.Inv) {g : Word} (hg : g.getLsbD 0 = false) : (s.branch g).Inv :=
  inv_retire hs (pc_add_two_even hs) (by simpa using hg)

/-- Behind an instruction that went on, nothing is pending, so a PFX stands alone. -/
theorem inv_advance_setPrefix (hs : s.Inv) (k : BitVec 11) : (s.advance.setPrefix k).Inv :=
  { inv_advance hs with
    prefixClear := by simp
    pendingAlone := by simp }

/-- The same of the mark of a WRCTL to STATUS. -/
theorem inv_advance_markHazard (hs : s.Inv) : s.advance.markHazard.Inv :=
  { inv_advance hs with pendingAlone := by simp }

/-! ### The invariant: the window -/

theorem nwin_le_of_inv (hs : s.Inv) : s.cfg.nwin ≤ 31 := by
  have hconfig := hs.config
  simp only [Config.wellFormed, Config.nwinOk, Bool.and_eq_true, decide_eq_true_eq] at hconfig
  omega

theorem lt_nwin_of_badWindow {w : BitVec 5} (h : s.badWindow w = false) : w.toNat < s.cfg.nwin := by
  simpa [State.badWindow] using h

/-- One window down from a window that is not window 0. -/
theorem cwp_pred_lt_nwin (hs : s.Inv) (h0 : s.status.cwp ≠ 0#5) : (s.status.cwp - 1#5).toNat < s.cfg.nwin := by
  have := (cwp_pred h0).1
  have := hs.window
  omega

/-- One window up from one that has a window above it in the file. -/
theorem cwp_succ_lt_nwin (hs : s.Inv) (hw : s.status.cwp.toNat + 1 < s.cfg.nwin) :
    (s.status.cwp + 1#5).toNat < s.cfg.nwin := by
  rwa [cwp_succ hs.window (nwin_le_of_inv hs)]

/-! ### The invariant: effects and steps -/

theorem inv_of_effect (hs : s.Inv) (h : Effect i s t) : t.Inv := by
  cases h with
  | assign a v => exact inv_advance (inv_setReg hs a v)
  | arithmetic a v f => exact inv_advance (inv_setReg (inv_setStatus hs (s.status.withFlags f) hs.window) a v)
  | compare f => exact inv_advance (inv_setStatus hs (s.status.withFlags f) hs.window)
  | logic a v r => exact inv_advance (inv_setReg (inv_setStatus hs (s.status.withNZ r) hs.window) a v)
  | rotate a v c => exact inv_advance (inv_setReg (inv_setStatus hs (s.status.withC c) hs.window) a v)
  | goOn => exact inv_advance hs
  | store w l => exact inv_advance (inv_putBytes hs w l)
  | branch g _ hg => exact inv_branch hs (hg hs.pcEven)
  | link v g _ _ hg => exact inv_branch (inv_setReg hs linkReg v) (hg hs.pcEven)
  | skip p _ hp => exact inv_retire hs (hp hs.pcEven) (by simp)
  | loadK k => exact inv_advance_setPrefix hs k
  | tret a _ _ hw =>
    exact inv_retire (inv_setStatus hs _ (lt_nwin_of_badWindow hw)) (getLsbD_zero_double _) (by simp)
  | writeStatus a st _ _ hw => exact inv_advance_markHazard (inv_setStatus hs _ (lt_nwin_of_badWindow hw))
  | writeIstatus a st => exact inv_advance (inv_setIstatus hs st)
  | writeLimits a hi lo => exact inv_advance (inv_setLimits hs hi lo)
  | save v _ h0 => exact inv_advance (inv_setReg (inv_setStatus hs (s.status.withCwp _) (cwp_pred_lt_nwin hs h0)) _ v)
  | restore _ hw => exact inv_advance (inv_setStatus hs _ (cwp_succ_lt_nwin hs hw))
  | trap u n r x w _ hu h0 hw =>
    subst hw
    rcases hu with rfl | rfl
    · exact inv_atHandler (inv_setReg (inv_trapped hs n (cwp_pred_lt_nwin hs h0)) linkReg r) x
    · have hback : (s.status.cwp + 1#5 - 1#5).toNat < s.cfg.nwin := by
        rw [BitVec.add_sub_cancel]
        exact hs.window
      exact inv_atHandler (inv_setReg (inv_trapped_setStatus hs _ n hback) linkReg r) x
  | underflow v r x _ h0 =>
    have hbelow := cwp_pred_lt_nwin hs h0
    have hsaved := inv_setReg (inv_setStatus hs (s.status.withCwp (s.status.cwp - 1#5)) hbelow) s.cfg.spReg v
    exact inv_atHandler (inv_setReg (inv_trapped hsaved 1#6 hbelow) linkReg r) x

/-- An accepted request enters its trap one window down. -/
theorem inv_of_raiseTrap (hs : s.Inv) {n : BitVec 6} {ret : Word} (h : s.raiseTrap n ret = .next t) : t.Inv := by
  obtain ⟨h0, hentry⟩ := State.raiseTrap_eq_next.1 h
  obtain ⟨-, -, rfl⟩ := State.enterTrapAt_eq_next.1 hentry
  exact inv_atHandler (inv_setReg (inv_trapped hs n (cwp_pred_lt_nwin hs h0)) linkReg _) _

/-- Settles O57: a step enters a trap or has one of the effects, and each is made of operations that keep the
invariant. -/
theorem invariantKept : Obligations.InvariantKept := by
  intro s t hs hstep
  rcases step_eq_next.1 hstep with ⟨n, -, htrap⟩ | ⟨-, i, -, -, hexec⟩
  · exact inv_of_raiseTrap hs htrap
  · exact inv_of_effect hs (exec_effect hexec)

/-! ### The invariant at reset -/

/-- The clauses of the invariant that are not plain at reset are those of the configuration's reset values. -/
theorem inv_resetWith {c : Config} (hc : c.wellFormed = true) : (State.resetWith c).Inv := by
  have hreset : c.resetOk = true := by
    simp only [Config.wellFormed, Bool.and_eq_true] at hc
    exact hc.2
  simp only [Config.resetOk, Bool.and_eq_true, decide_eq_true_eq, Bool.not_eq_true'] at hreset
  obtain ⟨⟨heven, hfits⟩, hwindow⟩ := hreset
  exact
    { config := hc
      fileSize := State.resetWith_fileSize c
      window := hwindow
      pcEven := heven
      delayEven := by simp
      pcFits := hfits
      delayFits := by simp
      prefixClear := by simp
      pendingAlone := by simp
      memory := by simp [Memory.wf]
      marks := by simp [Marks.wf]
      memoryFits := by simp
      storedKnown := by simp }

/-- Settles O58: State.reset is the reset state of the default configuration, which is well formed. -/
theorem invariantAtReset : Obligations.InvariantAtReset :=
  ⟨fun _ => inv_resetWith, inv_resetWith (by decide)⟩

end Sys2Proof.Proofs
end

section
/-!
PROOFS. The statements of 20_memory.md: which instructions change a byte of memory (R60, R63), and where a fetch, a
load, a store or a vector read stops (R75, R79).
-/

namespace Sys2Proof.Proofs

open Sys2Proof.Machine Sys2Proof.Claims

variable {s t : State} {i : Instr}

/-! ### Bytes that change are marked -/

/-- From `s` to `t`, every byte that reads differently is marked as stored, and no mark is taken back. -/
structure MarksChanges (s t : State) : Prop where
  marked : ∀ a, t.byteAt a ≠ s.byteAt a → t.wasStored a = true
  kept : ∀ a, s.wasStored a = true → t.wasStored a = true

theorem marksChanges_of_keepsMemory (h : KeepsMemory s t) : MarksChanges s t where
  marked a hne := absurd (h a).1 hne
  kept a hs := (h a).2.trans hs

theorem marksChanges_trans {u : State} (hs : MarksChanges s u) (ht : MarksChanges u t) : MarksChanges s t where
  marked a hne := by
    by_cases hu : t.byteAt a = u.byteAt a
    · exact ht.kept a (hs.marked a (hu ▸ hne))
    · exact ht.marked a hu
  kept a h := ht.kept a (hs.kept a h)

theorem marksChanges_putByte (s : State) (w : Word) (v : Byte) : MarksChanges s (s.putByte w v) where
  marked a hne := by
    rw [State.byteAt_putByte] at hne
    rw [State.wasStored_putByte, decide_eq_true (by_contra fun h => hne (if_neg h)), Bool.true_or]
  kept a h := by rw [State.wasStored_putByte, h, Bool.or_true]

theorem marksChanges_putBytes (s : State) (w : Word) (l : List Byte) : MarksChanges s (s.putBytes w l) := by
  induction l generalizing s w with
  | nil => exact marksChanges_of_keepsMemory fun _ => ⟨rfl, rfl⟩
  | cons v l ih => exact marksChanges_trans (marksChanges_putByte s w v) (ih _ _)

/-- Only the effect of a store reaches memory, and it marks what it changes. -/
theorem keepsMemory_or_marksChanges_of_effect (h : Effect i s t) :
    KeepsMemory s t ∨ isStore i = true ∧ MarksChanges s t := by
  cases h with
  | store w l hi =>
    have hadvance : KeepsMemory (s.putBytes w l) (s.putBytes w l).advance := fun _ => ⟨rfl, rfl⟩
    exact .inr ⟨hi, marksChanges_trans (marksChanges_putBytes s w l) (marksChanges_of_keepsMemory hadvance)⟩
  | trap u n r x w _ hu => rcases hu with rfl | rfl <;> exact .inl fun _ => ⟨rfl, rfl⟩
  | assign | arithmetic | compare | logic | rotate | goOn | branch | link | skip | loadK | tret | writeStatus
  | writeIstatus | writeLimits | save | restore | underflow => exact .inl fun _ => ⟨rfl, rfl⟩

/-- Settles O54: an effect that is no store keeps memory and marks as they are. -/
theorem onlyStoresWriteMemory : Obligations.OnlyStoresWriteMemory := by
  intro i s t a h
  rcases keepsMemory_or_marksChanges_of_effect (exec_effect h) with hkeeps | ⟨hi, hmarks⟩
  · obtain ⟨hbyte, hmark⟩ := hkeeps a
    exact ⟨absurd hbyte, absurd hmark, hmark.trans⟩
  · exact ⟨fun hne => ⟨hi, hmarks.marked a hne⟩, fun _ => hi, hmarks.kept a⟩

/-! ### The stops of a fetch -/

theorem fetch16_of_odd {p : Word} (hodd : p.getLsbD 0 = true) : s.fetch16 p = .refused .oddPc := if_pos hodd

theorem fetch16_of_outside {p : Word} (heven : p.getLsbD 0 = false)
    (hout : (s.admits p && s.admits (p + 1#32)) = false) : s.fetch16 p = .fault .notAdmitted := by
  have hadmits : s.admitsAll p 2 = false := by simpa [State.admitsAll] using hout
  simp only [State.fetch16, heven, hadmits, Bool.false_eq_true, if_false]

theorem fetch16_of_stored {p : Word} (heven : p.getLsbD 0 = false) (hadmits : s.admitsAll p 2 = true)
    (hstored : (s.wasStored p || s.wasStored (p + 1#32)) = true) : s.fetch16 p = .refused .selfModifiedFetch := by
  simp only [State.fetch16, heven, hadmits, hstored, if_true, Bool.false_eq_true, if_false]

theorem step_of_fetch16_fault {r : Fault} (hrequest : s.accepted = none) (hfetch : s.fetch16 s.pc = .fault r) :
    step s = .fault r := by
  simp only [step, hrequest, State.fetchInstr, hfetch, andThen_fault]

theorem step_of_fetch16_refused {r : Refusal} (hrequest : s.accepted = none) (hfetch : s.fetch16 s.pc = .refused r) :
    step s = .refused r := by
  simp only [step, hrequest, State.fetchInstr, hfetch, andThen_refused]

theorem step_of_decode_error {w : Half} {e : DecodeError} (hrequest : s.accepted = none)
    (hfetch : s.fetch16 s.pc = .next w) (hdecode : decode w s.pfx = .error e) : step s = .fault (decodeFault e) := by
  simp only [step, hrequest, State.fetchInstr, hfetch, andThen_next, hdecode, andThen_fault]

/-- Settles O6: the branches of the fetch, and of the decoding of what it answers. -/
theorem stepStopsBeforeExec : Obligations.StepStopsBeforeExec := by
  intro s hrequest
  refine ⟨?odd, ?outside, fun heven hadmits0 hadmits1 => ?memory⟩
  case odd => exact fun hodd => step_of_fetch16_refused hrequest (fetch16_of_odd hodd)
  case outside => exact fun heven hout => step_of_fetch16_fault hrequest (fetch16_of_outside heven hout)
  case memory =>
    have hadmits : s.admitsAll s.pc 2 = true := by simp [State.admitsAll, hadmits0, hadmits1]
    refine ⟨fun hstored => ?stored, fun hfresh0 hfresh1 => ?word⟩
    case stored => exact step_of_fetch16_refused hrequest (fetch16_of_stored heven hadmits hstored)
    case word =>
      have hfetch := State.fetch16_eq_next.2 ⟨heven, hadmits, hfresh0, hfresh1, rfl⟩
      exact ⟨step_of_decode_error hrequest hfetch, step_of_decode_error hrequest hfetch⟩

/-! ### Addresses in the words of the statements -/

theorem admitted_iff {w : Word} {lo n : Nat} : Admitted s w lo (lo + n) ↔ s.admitsAll (at_ w lo) n = true := by
  refine ⟨fun h => admitsAll_of h rfl rfl, fun h j hlo hhi => ?_⟩
  obtain ⟨k, rfl⟩ := Nat.exists_eq_add_of_le hlo
  rw [← at_add]
  exact (State.admitsAll_iff s _ n).1 h k (by omega)

theorem admitted_congr (h : t.cfg = s.cfg) {w : Word} {lo hi : Nat} : Admitted t w lo hi ↔ Admitted s w lo hi := by
  simp only [Admitted, State.admits_congr h]

theorem at_zero (w : Word) : at_ w 0 = w := BitVec.add_zero w

theorem byteLaneAddr_eq_at (w : Word) (n : BitVec 2) : byteLaneAddr w n = at_ w n.toNat := by
  rw [byteLaneAddr, at_, BitVec.ofNat_toNat]

theorem halfLaneAddr_eq_at (w : Word) (n : BitVec 1) : halfLaneAddr w n = at_ w (2 * n.toNat) := by
  rw [halfLaneAddr, at_, BitVec.ofNat_mul, BitVec.ofNat_toNat]

theorem vectorAddr_eq (s : State) (n : BitVec 6) :
    s.vectorAddr n = s.cfg.vecbase + BitVec.ofNat 32 (4 * n.toNat) := by
  rw [State.vectorAddr, BitVec.ofNat_mul, BitVec.ofNat_toNat]

/-- The address of STS8S: an unscaled offset from `%sp`. -/
theorem addrSp_setWidth {m : Nat} (s : State) (x : BitVec m) :
    s.addrSp (x.setWidth 32) = aligned (s.reg s.cfg.spReg + BitVec.ofNat 32 x.toNat) := by
  rw [State.addrSp, align_eq, BitVec.ofNat_toNat]

/-- The address of LDS, STS and STS16S: an offset from `%sp` in words or half-words. -/
theorem addrSp_setWidth_mul {m : Nat} (s : State) (x : BitVec m) (k : Nat) :
    s.addrSp (x.setWidth 32 * BitVec.ofNat 32 k) = aligned (s.reg s.cfg.spReg + BitVec.ofNat 32 (x.toNat * k)) := by
  rw [State.addrSp, align_eq, BitVec.ofNat_mul, BitVec.ofNat_toNat]

/-! ### The stops of a load, a store and a trap entry -/

theorem load32_of_outside {w : Word} (hout : ¬Admitted s w 0 4) : s.load32 w = .fault .notAdmitted := by
  rw [← Nat.zero_add 4, admitted_iff, at_zero] at hout
  exact if_neg hout

theorem store_of_outside {w : Word} {lo : Nat} {l : List Byte} (hout : ¬Admitted s w lo (lo + l.length)) :
    s.store (at_ w lo) l = .fault .notAdmitted := by
  rw [admitted_iff] at hout
  exact if_neg hout

theorem andThen_readReg_of_inFile {β : Type} {a : RegNum} (ha : s.inFile a = true) (f : Word → Result β) :
    andThen (s.readReg a) f = f (s.reg a) := by
  rw [State.readReg_of_inFile ha, andThen_next]

/-- LD, LDP and LDS, from the base register on. -/
theorem load_of_outside {a b : RegNum} {w : Word} (hb : s.inFile b = true) (hout : ¬Admitted s w 0 4) :
    andThen (s.readReg b) (fun _ => s.loadTo a w) = .fault .notAdmitted := by
  rw [andThen_readReg_of_inFile hb, State.loadTo, load32_of_outside hout, andThen_fault]

/-- ST, STP and STS, from the base register on. -/
theorem storeWord_of_outside {a b : RegNum} {w : Word} (ha : s.inFile a = true) (hb : s.inFile b = true)
    (hout : ¬Admitted s w 0 4) : andThen (s.readReg b) (fun _ => s.storeFrom a w) = .fault .notAdmitted := by
  have hstore : s.store w (wordBytes (s.reg a)) = .fault .notAdmitted := by
    rw [← at_zero w]
    exact store_of_outside hout
  rw [andThen_readReg_of_inFile hb, State.storeFrom, andThen_readReg_of_inFile ha, hstore, andThen_fault]

/-- ST8D, ST8S and STS8S, from the base register `a` on; `w` and `n` give address and lane from its value. -/
theorem storeByte_of_outside {a : RegNum} {w : Word → Word} {n : Word → BitVec 2} (ha : s.inFile a = true)
    (hzero : s.inFile zeroReg = true)
    (hout : ¬Admitted s (w (s.reg a)) (n (s.reg a)).toNat ((n (s.reg a)).toNat + 1)) :
    andThen (s.readReg a) (fun x => s.storeByteLane (w x) (n x)) = .fault .notAdmitted := by
  rw [andThen_readReg_of_inFile ha, State.storeByteLane, andThen_readReg_of_inFile hzero, byteLaneAddr_eq_at,
    store_of_outside hout, andThen_fault]

/-- ST16D, ST16S and STS16S, likewise. -/
theorem storeHalf_of_outside {a : RegNum} {w : Word → Word} {n : Word → BitVec 1} (ha : s.inFile a = true)
    (hzero : s.inFile zeroReg = true)
    (hout : ¬Admitted s (w (s.reg a)) (2 * (n (s.reg a)).toNat) (2 * (n (s.reg a)).toNat + 2)) :
    andThen (s.readReg a) (fun x => s.storeHalfLane (w x) (n x)) = .fault .notAdmitted := by
  rw [andThen_readReg_of_inFile ha, State.storeHalfLane, andThen_readReg_of_inFile hzero, halfLaneAddr_eq_at,
    store_of_outside hout, andThen_fault]

theorem readVector_of_outside {n : BitVec 6} (hcfg : t.cfg = s.cfg)
    (hout : ¬Admitted s (s.cfg.vecbase + BitVec.ofNat 32 (4 * n.toNat)) 0 4) :
    t.load32 (t.vectorAddr n) = .fault .notAdmitted :=
  load32_of_outside (by rwa [vectorAddr_eq, hcfg, admitted_congr hcfg])

/-- A trap entry into a window of the file writes the link register there, and then reads its vector. -/
theorem enterTrapAt_of_outside {n : BitVec 6} {ret : Word} {w : BitVec 5} (hw : w.toNat < s.cfg.nwin)
    (hout : ¬Admitted s (s.cfg.vecbase + BitVec.ofNat 32 (4 * n.toNat)) 0 4) :
    s.enterTrapAt n ret w = .fault .notAdmitted := by
  have hlink : (s.trapped n w).inFile linkReg = true := inFile_of_window hw linkReg
  rw [State.enterTrapAt, State.writeReg_of_inFile hlink, andThen_next,
    readVector_of_outside (t := (s.trapped n w).setReg linkReg _) rfl hout, andThen_fault]

theorem raiseTrap_of_outside {n : BitVec 6} {ret : Word} (h0 : s.status.cwp ≠ 0#5)
    (hw : (s.status.cwp - 1#5).toNat < s.cfg.nwin)
    (hout : ¬Admitted s (s.cfg.vecbase + BitVec.ofNat 32 (4 * n.toNat)) 0 4) :
    s.raiseTrap n ret = .fault .notAdmitted := by
  rw [State.raiseTrap, if_neg h0, enterTrapAt_of_outside hw hout]

/-- The window below one of the file is a window of the file. -/
theorem cwp_pred_lt_nwin_of_lt (h0 : s.status.cwp ≠ 0#5) (hw : s.status.cwp.toNat < s.cfg.nwin) :
    (s.status.cwp - 1#5).toNat < s.cfg.nwin := by
  obtain ⟨hpred, -⟩ := cwp_pred h0
  omega

/-- SAVE at LO_LIMIT enters vector 1 from the window it has moved to. -/
theorem execSave_of_outside {imm8 : BitVec 8} (hw : s.status.cwp.toNat < s.cfg.nwin) (h0 : s.status.cwp ≠ 0#5)
    (hdelay : s.delay = none) (hlimit : s.status.cwp = s.loLimit) (hout : ¬Admitted s (s.cfg.vecbase + 4#32) 0 4) :
    execSave imm8 s = .fault .notAdmitted := by
  have hbelow := cwp_pred_lt_nwin_of_lt h0 hw
  have hreg (r : RegNum) : (s.setStatus (s.status.withCwp (s.status.cwp - 1#5))).inFile r = true :=
    inFile_of_window hbelow r
  rw [execSave, if_neg h0, andThen_readReg_of_inFile (hreg _), State.writeReg_of_inFile (hreg _), andThen_next,
    if_pos hlimit, hdelay, Option.isSome_none, if_neg Bool.false_ne_true, State.raiseTrapHere]
  exact enterTrapAt_of_outside hbelow (mt (admitted_congr rfl).1 hout)

/-- RESTORE at HI_LIMIT enters vector 2 from the window above, and so in its own. -/
theorem execRestore_of_outside (hw : s.status.cwp.toNat < s.cfg.nwin) (hnwin : s.cfg.nwin ≤ 31)
    (hdelay : s.delay = none) (hlimit : s.status.cwp = s.hiLimit) (hout : ¬Admitted s (s.cfg.vecbase + 8#32) 0 4) :
    execRestore s = .fault .notAdmitted := by
  have habove : s.status.cwp + 1#5 ≠ 0#5 := by
    intro h
    have hsucc := cwp_succ hw hnwin
    rw [h] at hsucc
    exact Nat.succ_ne_zero _ hsucc.symm
  have hback : (s.status.cwp + 1#5 - 1#5).toNat < s.cfg.nwin := by rwa [BitVec.add_sub_cancel]
  rw [execRestore, if_neg fun h => h.2 hlimit, if_pos hlimit, hdelay, Option.isSome_none, if_neg Bool.false_ne_true]
  exact raiseTrap_of_outside habove hback (mt (admitted_congr rfl).1 hout)

/-- Settles O35: each access is one of the shared operations above, at the address that the statement spells out. -/
theorem accessOutsideMemoryStops : Obligations.AccessOutsideMemoryStops := by
  refine ⟨?base, ?pointer, ?stack, ?lanes, ?stackLanes, ?trap, ?restore⟩
  case base =>
    exact fun a b s ha hb hout =>
      ⟨load_of_outside (w := s.addrK b) hb.1 hout, storeWord_of_outside (w := s.addrK b) ha.1 hb.1 hout⟩
  case pointer =>
    intro a p imm5 s ha hp hout
    rw [← pReg_eq_pointerReg] at hp
    exact ⟨load_of_outside (w := s.addrP p imm5) hp.1 hout,
      storeWord_of_outside (w := s.addrP p imm5) ha.1 hp.1 hout⟩
  case stack =>
    intro a imm8 s ha hsp hout
    rw [← addrSp_setWidth_mul] at hout
    exact ⟨load_of_outside hsp.1 hout, storeWord_of_outside ha.1 hsp.1 hout⟩
  case lanes =>
    intro a imm2 imm1 s n ha hzero
    refine ⟨?st8d, ?st8s, ?st16d, ?st16s⟩
    case st8d =>
      rintro rfl hout
      exact storeByte_of_outside (n := fun x => x.extractLsb' 0 2) ha.1 hzero.1 (by simpa using hout)
    case st8s =>
      rintro rfl hout
      exact storeByte_of_outside (w := fun _ => s.addrK a) (n := fun _ => imm2) ha.1 hzero.1 hout
    case st16d =>
      rintro rfl hout
      exact storeHalf_of_outside (n := fun x => x.extractLsb' 1 1) ha.1 hzero.1
        (by simpa [Nat.shiftRight_eq_div_pow] using hout)
    case st16s =>
      rintro rfl hout
      exact storeHalf_of_outside (w := fun _ => s.addrK a) (n := fun _ => imm1) ha.1 hzero.1 hout
  case stackLanes =>
    intro imm10 imm9 s n hsp hzero
    refine ⟨?sts8s, ?sts16s⟩
    case sts8s =>
      rintro rfl hout
      rw [← addrSp_setWidth] at hout
      exact storeByte_of_outside (n := fun _ => imm10.extractLsb' 0 2) hsp.1 hzero.1 (by simpa using hout)
    case sts16s =>
      rintro rfl hout
      rw [← addrSp_setWidth_mul] at hout
      exact storeHalf_of_outside (n := fun _ => imm9.extractLsb' 0 1) hsp.1 hzero.1 (by simpa using hout)
  case trap =>
    intro n imm8 s hwindow h0
    have hbelow := cwp_pred_lt_nwin_of_lt h0 hwindow.1
    refine ⟨fun hout => ⟨raiseTrap_of_outside h0 hbelow hout, fun haccepted => ?request⟩,
      fun hout hdelay hlimit => ?save⟩
    case request =>
      simp only [step, haccepted]
      exact raiseTrap_of_outside h0 hbelow hout
    case save => exact execSave_of_outside hwindow.1 h0 hdelay hlimit hout
  case restore =>
    exact fun s hwindow hnwin hdelay hlimit hout => execRestore_of_outside hwindow.1 hnwin hdelay hlimit hout

end Sys2Proof.Proofs
end

section
/-!
PROOFS. The statements of 30_encoding.md: the decoder and the encoder are inverse (R91, R100 to R102), the words that
are no instructions (R94, R103, R104), and the sequence that loads a constant (R119). A word is taken as a number: its
fields are quotients and remainders, and what a format says of its fields is linear arithmetic.
-/

namespace Sys2Proof.Proofs

open Sys2Proof.Machine Sys2Proof.Claims

variable {w : Half} {i : Instr} {pfx : Bool} {a b : BitVec 5}

/-! ### Bits as numbers -/

theorem toNat_append_eq_add {m n : Nat} (x : BitVec m) (y : BitVec n) :
    (x ++ y).toNat = x.toNat * 2 ^ n + y.toNat := by
  rw [BitVec.toNat_append, ← Nat.shiftLeft_add_eq_or_of_lt y.isLt, Nat.shiftLeft_eq]

theorem toNat_extractLsb'_eq_mod {m : Nat} (x : BitVec m) (k n : Nat) :
    (x.extractLsb' k n).toNat = x.toNat / 2 ^ k % 2 ^ n := by
  rw [BitVec.extractLsb'_toNat, Nat.shiftRight_eq_div_pow]

theorem getLsbD_iff_mod {m : Nat} (x : BitVec m) (k : Nat) : x.getLsbD k = true ↔ x.toNat / 2 ^ k % 2 = 1 := by
  rw [← BitVec.testBit_toNat, Nat.testBit_eq_decide_div_mod_eq, decide_eq_true_eq]

/-! ### The formats: which fields make a word the word of a format (30_encoding.md R91) -/

/-- RR and Ri5. -/
theorem rr_eq_iff {op6 : BitVec 6} :
    encodeRR op6 b a = w ↔ w.extractLsb' 10 6 = op6 ∧ fieldB w = b ∧ fieldA w = a := by
  simp only [← BitVec.toNat_inj, encodeRR, fieldA, fieldB, toNat_append_eq_add, toNat_extractLsb'_eq_mod]
  omega

/-- Rw. -/
theorem rw_eq_iff : encodeRw b a = w ↔ w.extractLsb' 10 6 = 0b011111#6 ∧ fieldB w = b ∧ fieldA w = a := rr_eq_iff

/-- i4w, the format Rw with bit 4 zero: SKPS. -/
theorem i4w_eq_iff {c : BitVec 4} :
    encodeRw b (0#1 ++ c) = w ↔
      w.extractLsb' 10 6 = 0b011111#6 ∧ fieldB w = b ∧ ¬w.getLsbD 4 ∧ w.extractLsb' 0 4 = c := by
  simp only [← BitVec.toNat_inj, encodeRw, fieldB, toNat_append_eq_add, toNat_extractLsb'_eq_mod, getLsbD_iff_mod,
    BitVec.toNat_ofNat]
  omega

/-- i10. -/
theorem i10_eq_iff {op6 : BitVec 6} {j : BitVec 10} :
    op6 ++ j = w ↔ w.extractLsb' 10 6 = op6 ∧ w.extractLsb' 0 10 = j := by
  simp only [← BitVec.toNat_inj, toNat_append_eq_add, toNat_extractLsb'_eq_mod]
  omega

/-- i9, with bit 0 zero. -/
theorem i9_eq_iff {op6 : BitVec 6} {j : BitVec 9} :
    op6 ++ j ++ 0#1 = w ↔ w.extractLsb' 10 6 = op6 ∧ ¬w.getLsbD 0 ∧ w.extractLsb' 1 9 = j := by
  simp only [← BitVec.toNat_inj, toNat_append_eq_add, toNat_extractLsb'_eq_mod, getLsbD_iff_mod,
    BitVec.toNat_ofNat]
  omega

/-- Ri2u. -/
theorem ri2u_eq_iff {op6 : BitVec 6} {u : BitVec 3} {j : BitVec 2} :
    op6 ++ u ++ j ++ a = w ↔
      w.extractLsb' 10 6 = op6 ∧ w.extractLsb' 7 3 = u ∧ w.extractLsb' 5 2 = j ∧ fieldA w = a := by
  simp only [← BitVec.toNat_inj, fieldA, toNat_append_eq_add, toNat_extractLsb'_eq_mod]
  omega

/-- Ri1u, with bit 5 zero. -/
theorem ri1u_eq_iff {op6 : BitVec 6} {u : BitVec 3} {j : BitVec 1} :
    op6 ++ u ++ j ++ 0#1 ++ a = w ↔
      w.extractLsb' 10 6 = op6 ∧ w.extractLsb' 7 3 = u ∧ ¬w.getLsbD 5 ∧ w.extractLsb' 6 1 = j ∧ fieldA w = a := by
  simp only [← BitVec.toNat_inj, fieldA, toNat_append_eq_add, toNat_extractLsb'_eq_mod, getLsbD_iff_mod,
    BitVec.toNat_ofNat]
  omega

/-- i8v. -/
theorem i8v_eq_iff {op6 : BitVec 6} {v : BitVec 2} {j : BitVec 8} :
    op6 ++ v ++ j = w ↔ w.extractLsb' 10 6 = op6 ∧ w.extractLsb' 8 2 = v ∧ w.extractLsb' 0 8 = j := by
  simp only [← BitVec.toNat_inj, toNat_append_eq_add, toNat_extractLsb'_eq_mod]
  omega

/-- i6v, with bits 7..6 zero. -/
theorem i6v_eq_iff {op6 : BitVec 6} {v : BitVec 2} {j : BitVec 6} :
    op6 ++ v ++ 0#2 ++ j = w ↔
      w.extractLsb' 10 6 = op6 ∧ w.extractLsb' 8 2 = v ∧ w.extractLsb' 6 2 = 0#2 ∧ w.extractLsb' 0 6 = j := by
  simp only [← BitVec.toNat_inj, toNat_append_eq_add, toNat_extractLsb'_eq_mod, BitVec.toNat_ofNat]
  omega

/-- i11: the decoder reads the five opcode bits as three and two. -/
theorem i11_eq_iff {op5 : BitVec 5} {j : BitVec 11} :
    op5 ++ j = w ↔
      w.extractLsb' 13 3 = op5.extractLsb' 2 3 ∧ w.extractLsb' 11 2 = op5.extractLsb' 0 2 ∧ w.extractLsb' 0 11 = j := by
  simp only [← BitVec.toNat_inj, toNat_append_eq_add, toNat_extractLsb'_eq_mod]
  omega

/-- RPi5: the decoder reads the four opcode bits as three and one. -/
theorem rpi5_eq_iff {op4 : BitVec 4} {p : BitVec 2} :
    op4 ++ p ++ b ++ a = w ↔
      w.extractLsb' 13 3 = op4.extractLsb' 1 3 ∧ w.getLsbD 12 = op4.getLsbD 0 ∧ w.extractLsb' 10 2 = p ∧
        fieldB w = b ∧ fieldA w = a := by
  simp only [← BitVec.toNat_inj, fieldA, fieldB, toNat_append_eq_add, toNat_extractLsb'_eq_mod]
  rw [Bool.eq_iff_iff, getLsbD_iff_mod, getLsbD_iff_mod]
  omega

/-- Ri8. -/
theorem ri8_eq_iff {op3 : BitVec 3} {j : BitVec 8} :
    op3 ++ j ++ a = w ↔ w.extractLsb' 13 3 = op3 ∧ w.extractLsb' 5 8 = j ∧ fieldA w = a := by
  simp only [← BitVec.toNat_inj, fieldA, toNat_append_eq_add, toNat_extractLsb'_eq_mod]
  omega

/-! ### The operand of AND, ANDN, OR, XOR (30_encoding.md R102) -/

theorem fieldLogic_eq_of_fits {o : LogicOperand} (h : o.fits pfx = true) (hb : fieldB w = o.bits) :
    fieldLogic w pfx = o := by
  cases o with
  | reg b =>
    obtain rfl : pfx = false := by simpa [LogicOperand.fits] using h
    exact congrArg LogicOperand.reg hb
  | imm j =>
    obtain rfl : pfx = true := h
    exact congrArg LogicOperand.imm hb

theorem bits_fieldLogic (w : Half) (pfx : Bool) : (fieldLogic w pfx).bits = fieldB w := by
  cases pfx <;> rfl

theorem fits_fieldLogic (w : Half) (pfx : Bool) : (fieldLogic w pfx).fits pfx = true := by
  cases pfx <;> rfl

/-! ### From an instruction to its word and back (30_encoding.md R101) -/

/-- A word with bit 15 zero is decoded by its six opcode bits. -/
theorem decode_of_op6_lt (h : (w.extractLsb' 10 6).toNat < 32) : decode w pfx = decodeOp6 w pfx := by
  have hsel : (w.extractLsb' 13 3).toNat < 4 := by
    rw [toNat_extractLsb'_eq_mod] at h ⊢
    omega
  unfold decode
  split
  case h_5 => rfl
  all_goals omega

/-- Format by format: the fields of the word are the opcodes and the operands of the instruction, so the decoder takes
the branch of the instruction and reads its operands. -/
theorem decode_of_encode_eq (h : i.wellFormed pfx = true) (hw : encode i = w) : decode w pfx = .ok i := by
  cases i with
  | and a o | andn a o | or a o | xor a o =>
    obtain ⟨hop, hb, rfl⟩ := rr_eq_iff.1 hw
    simp [decode_of_op6_lt, decodeOp6, hop, fieldLogic_eq_of_fits h hb]
  | add | addi | sub | subi | cmp | cmpi | lsl | lsli | lsr | lsri | asr | asri | mov | movi | bgen | ext8d | skp0
  | skp1 | ld | st | ext16d | movhi | usr0 =>
    obtain ⟨hop, rfl, rfl⟩ := rr_eq_iff.1 hw
    simp [decode_of_op6_lt, decodeOp6, hop]
  | not | neg | abs | sext8 | sext16 | rlc | rrc | swap | usr1 | usr2 | usr3 | usr4 | tret | st8d | st16d
  | fill8 | fill16 | mstep | mul | skprz | wrctl | rdctl | skprnz | jmp | call =>
    obtain ⟨hop, hsel, rfl⟩ := rw_eq_iff.1 hw
    simp [decode_of_op6_lt, decodeOp6, decodeW, hop, hsel]
  | restore =>
    obtain ⟨hop, hsel, hzero⟩ := rw_eq_iff.1 hw
    simp [decode_of_op6_lt, decodeOp6, decodeW, hop, hsel, hzero]
  | skps =>
    obtain ⟨hop, hsel, hzero, rfl⟩ := i4w_eq_iff.1 hw
    simp [decode_of_op6_lt, decodeOp6, decodeW, hop, hsel, hzero, -BitVec.getLsbD_eq_getElem]
  | sts8s =>
    obtain ⟨hop, rfl⟩ := i10_eq_iff.1 hw
    simp [decode_of_op6_lt, decodeOp6, hop]
  | sts16s =>
    obtain ⟨hop, hzero, rfl⟩ := i9_eq_iff.1 hw
    simp [decode_of_op6_lt, decodeOp6, hop, hzero, -BitVec.getLsbD_eq_getElem]
  | ext8s | st8s =>
    obtain ⟨hop, hsel, rfl, rfl⟩ := ri2u_eq_iff.1 hw
    simp [decode_of_op6_lt, decodeOp6, decodeU, hop, hsel]
  | ext16s | st16s =>
    obtain ⟨hop, hsel, hzero, rfl, rfl⟩ := ri1u_eq_iff.1 hw
    simp [decode_of_op6_lt, decodeOp6, decodeU, hop, hsel, hzero, -BitVec.getLsbD_eq_getElem]
  | save =>
    obtain ⟨hop, hsel, rfl⟩ := i8v_eq_iff.1 hw
    simp [decode_of_op6_lt, decodeOp6, decodeV, hop, hsel]
  | trap =>
    obtain ⟨hop, hsel, hzero, rfl⟩ := i6v_eq_iff.1 hw
    simp [decode_of_op6_lt, decodeOp6, decodeV, hop, hsel, hzero]
  | br | bsr | pfx =>
    obtain ⟨hop, hsel, rfl⟩ := i11_eq_iff.1 hw
    simp [decode, hop, hsel]
  | stp | ldp =>
    obtain ⟨hop, hsel, rfl, rfl, rfl⟩ := rpi5_eq_iff.1 hw
    simp [decode, hop, hsel, -BitVec.getLsbD_eq_getElem]
  | sts | lds =>
    obtain ⟨hop, rfl, rfl⟩ := ri8_eq_iff.1 hw
    simp [decode, hop]

/-! ### From a word to its instruction and back

Branch by branch: the fields that the decoder has looked at and the operands that it reads make up the whole word.
Case `h_n` is the n-th arm of a match; in `decodeOp6`, `decodeU`, `decodeV` and `decodeW` that is the selector n - 1.
The last arm excludes every other value of the selector; omega reads these exclusions as `¬`, so they are rewritten
from `→ False`. -/

theorem encode_of_decodeU_eq_ok (hop : w.extractLsb' 10 6 = 0b011101#6) (h : decodeU w = .ok i) :
    encode i = w ∧ i.wellFormed pfx = true := by
  unfold decodeU at h
  split at h
  case h_2 hsel | h_6 hsel =>
    split at h
    · cases h
    next hzero =>
      cases h
      exact ⟨ri1u_eq_iff.2 ⟨hop, BitVec.eq_of_toNat_eq hsel, hzero, rfl, rfl⟩, rfl⟩
  case h_1 hsel | h_5 hsel =>
    cases h
    exact ⟨ri2u_eq_iff.2 ⟨hop, BitVec.eq_of_toNat_eq hsel, rfl, rfl⟩, rfl⟩
  all_goals cases h

theorem encode_of_decodeV_eq_ok (hop : w.extractLsb' 10 6 = 0b011110#6) (h : decodeV w = .ok i) :
    encode i = w ∧ i.wellFormed pfx = true := by
  unfold decodeV at h
  split at h
  case h_1 hsel =>
    cases h
    exact ⟨i8v_eq_iff.2 ⟨hop, BitVec.eq_of_toNat_eq hsel, rfl⟩, rfl⟩
  case h_2 hsel =>
    split at h
    next hzero =>
      cases h
      exact ⟨i6v_eq_iff.2 ⟨hop, BitVec.eq_of_toNat_eq hsel, hzero, rfl⟩, rfl⟩
    · cases h
  case h_3 => cases h

theorem encode_of_decodeW_eq_ok (hop : w.extractLsb' 10 6 = 0b011111#6) (h : decodeW w = .ok i) :
    encode i = w ∧ i.wellFormed pfx = true := by
  unfold decodeW at h
  split at h
  case h_14 hsel =>
    split at h
    next hzero =>
      cases h
      exact ⟨rw_eq_iff.2 ⟨hop, BitVec.eq_of_toNat_eq hsel, hzero⟩, rfl⟩
    · cases h
  case h_24 hsel =>
    split at h
    · cases h
    next hzero =>
      cases h
      exact ⟨i4w_eq_iff.2 ⟨hop, BitVec.eq_of_toNat_eq hsel, hzero, rfl⟩, rfl⟩
  case h_32 =>
    cases h
    have hsel : fieldB w = 0b11111#5 := by
      simp only [imp_false] at *
      bv_omega
    exact ⟨rw_eq_iff.2 ⟨hop, hsel, rfl⟩, rfl⟩
  case h_8 | h_16 | h_28 | h_29 | h_30 => cases h
  all_goals
    cases h
    exact ⟨rw_eq_iff.2 ⟨hop, BitVec.eq_of_toNat_eq ‹_›, rfl⟩, rfl⟩

theorem encode_of_decodeOp6_eq_ok (hlow : (w.extractLsb' 10 6).toNat < 32) (h : decodeOp6 w pfx = .ok i) :
    encode i = w ∧ i.wellFormed pfx = true := by
  unfold decodeOp6 at h
  split at h
  case h_15 hop | h_16 hop | h_17 hop | h_18 hop =>
    cases h
    exact ⟨rr_eq_iff.2 ⟨BitVec.eq_of_toNat_eq hop, (bits_fieldLogic w pfx).symm, rfl⟩, fits_fieldLogic w pfx⟩
  case h_25 hop =>
    cases h
    exact ⟨i10_eq_iff.2 ⟨BitVec.eq_of_toNat_eq hop, rfl⟩, rfl⟩
  case h_26 hop =>
    split at h
    · cases h
    next hzero =>
      cases h
      exact ⟨i9_eq_iff.2 ⟨BitVec.eq_of_toNat_eq hop, hzero, rfl⟩, rfl⟩
  case h_30 hop => exact encode_of_decodeU_eq_ok (BitVec.eq_of_toNat_eq hop) h
  case h_31 hop => exact encode_of_decodeV_eq_ok (BitVec.eq_of_toNat_eq hop) h
  case h_32 =>
    have hop : w.extractLsb' 10 6 = 0b011111#6 := by
      simp only [imp_false] at *
      bv_omega
    exact encode_of_decodeW_eq_ok hop h
  all_goals
    cases h
    exact ⟨rr_eq_iff.2 ⟨BitVec.eq_of_toNat_eq ‹_›, rfl, rfl⟩, rfl⟩

theorem encode_of_decode_eq_ok (h : decode w pfx = .ok i) : encode i = w ∧ i.wellFormed pfx = true := by
  unfold decode at h
  split at h
  case h_1 hop | h_2 hop =>
    cases h
    exact ⟨ri8_eq_iff.2 ⟨BitVec.eq_of_toNat_eq hop, rfl, rfl⟩, rfl⟩
  case h_3 hop =>
    split at h
    next hbit =>
      cases h
      exact ⟨rpi5_eq_iff.2 ⟨BitVec.eq_of_toNat_eq hop, hbit, rfl, rfl, rfl⟩, rfl⟩
    next hbit =>
      cases h
      exact ⟨rpi5_eq_iff.2 ⟨BitVec.eq_of_toNat_eq hop, Bool.eq_false_of_not_eq_true hbit, rfl, rfl, rfl⟩, rfl⟩
  case h_4 hop =>
    split at h
    case h_1 hsel | h_2 hsel =>
      cases h
      exact ⟨i11_eq_iff.2 ⟨BitVec.eq_of_toNat_eq hop, BitVec.eq_of_toNat_eq hsel, rfl⟩, rfl⟩
    case h_3 => cases h
    case h_4 =>
      cases h
      have hsel : w.extractLsb' 11 2 = 0b11#2 := by
        simp only [imp_false] at *
        bv_omega
      exact ⟨i11_eq_iff.2 ⟨BitVec.eq_of_toNat_eq hop, hsel, rfl⟩, rfl⟩
  case h_5 =>
    refine encode_of_decodeOp6_eq_ok ?_ h
    simp only [imp_false, toNat_extractLsb'_eq_mod] at *
    omega

/-- Decoding and encoding are inverse. -/
theorem decode_eq_ok_iff : decode w pfx = .ok i ↔ encode i = w ∧ i.wellFormed pfx = true :=
  ⟨encode_of_decode_eq_ok, fun ⟨hw, h⟩ => decode_of_encode_eq h hw⟩

/-- Settles O2, by the formats of the 69 instructions. -/
theorem decodeOfEncode : Obligations.DecodeOfEncode := fun _ _ h => decode_eq_ok_iff.2 ⟨rfl, h⟩

/-- Settles O3, by the branches of the decoder. -/
theorem encodeOfDecode : Obligations.EncodeOfDecode := fun _ _ _ h => decode_eq_ok_iff.1 h

/-- Settles O1: each word is what its instruction encodes to. -/
theorem decodesSpecWords : Obligations.DecodesSpecWords := by
  unfold Obligations.DecodesSpecWords
  and_intros
  all_goals exact decode_of_encode_eq rfl rfl

/-! ### The words that are no instructions -/

/-- The ranges of the opcodes marked "Unused" (30_encoding.md R103). -/
abbrev IsUnused (n : Nat) : Prop :=
  (0x7500 ≤ n ∧ n ≤ 0x75FF) ∨ (0x7CE0 ≤ n ∧ n ≤ 0x7CFF) ∨ (0x7DE0 ≤ n ∧ n ≤ 0x7DFF) ∨ (0x7F60 ≤ n ∧ n ≤ 0x7FBF)

/-- The words that Table 16 does not list, or with a one in a must-be-zero bit (30_encoding.md R94, R104). -/
abbrev IsUnlisted (n : Nat) : Prop :=
  (0x7700 ≤ n ∧ n ≤ 0x77FF) ∨ (0x7A00 ≤ n ∧ n ≤ 0x7BFF) ∨ (0x9000 ≤ n ∧ n ≤ 0x97FF) ∨
    (0x6400 ≤ n ∧ n ≤ 0x67FF ∧ n / 2 ^ 0 % 2 = 1) ∨ (0x7480 ≤ n ∧ n ≤ 0x74FF ∧ n / 2 ^ 5 % 2 = 1) ∨
    (0x7680 ≤ n ∧ n ≤ 0x76FF ∧ n / 2 ^ 5 % 2 = 1) ∨ (0x7940 ≤ n ∧ n ≤ 0x79FF) ∨ (0x7DA1 ≤ n ∧ n ≤ 0x7DBF) ∨
    (0x7EF0 ≤ n ∧ n ≤ 0x7EFF)

/-- What a decoder answers for the word is an error exactly where the spec has no instruction, and it is the error of
decision D18 (log 18). -/
structure RefusedExactly (w : Half) (r : Except DecodeError Instr) : Prop where
  unused : r = .error .unusedOpcode ↔ IsUnused w.toNat
  unlisted : r = .error .unlistedOpcode ↔ IsUnlisted w.toNat
  truncated : r ≠ .error .truncated

theorem refusedExactly_ok (h : ¬(IsUnused w.toNat ∨ IsUnlisted w.toNat)) : RefusedExactly w (.ok i) := by
  obtain ⟨hunused, hunlisted⟩ := not_or.1 h
  exact ⟨iff_of_false nofun hunused, iff_of_false nofun hunlisted, nofun⟩

theorem refusedExactly_unused (h : IsUnused w.toNat) : RefusedExactly w (.error .unusedOpcode) :=
  have hunlisted : ¬IsUnlisted w.toNat := by omega
  ⟨iff_of_true rfl h, iff_of_false nofun hunlisted, nofun⟩

theorem refusedExactly_unlisted (h : IsUnlisted w.toNat) : RefusedExactly w (.error .unlistedOpcode) :=
  have hunused : ¬IsUnused w.toNat := by omega
  ⟨iff_of_false nofun hunused, iff_of_true rfl h, nofun⟩

theorem refusedExactly_decodeU (hop : (w.extractLsb' 10 6).toNat = 29) : RefusedExactly w (decodeU w) := by
  simp only [decodeU, toNat_extractLsb'_eq_mod, getLsbD_iff_mod] at hop ⊢
  split
  case h_1 | h_5 => exact refusedExactly_ok (by omega)
  case h_2 | h_6 =>
    split
    · exact refusedExactly_unlisted (by omega)
    · exact refusedExactly_ok (by omega)
  case h_3 | h_4 => exact refusedExactly_unused (by omega)
  case h_7 =>
    simp only [imp_false] at *
    exact refusedExactly_unlisted (by omega)

theorem refusedExactly_decodeV (hop : (w.extractLsb' 10 6).toNat = 30) : RefusedExactly w (decodeV w) := by
  simp only [decodeV, ← BitVec.toNat_inj, BitVec.toNat_ofNat, toNat_extractLsb'_eq_mod] at hop ⊢
  split
  case h_1 => exact refusedExactly_ok (by omega)
  case h_2 =>
    split
    · exact refusedExactly_ok (by omega)
    · exact refusedExactly_unlisted (by omega)
  case h_3 =>
    simp only [imp_false] at *
    exact refusedExactly_unlisted (by omega)

theorem refusedExactly_decodeW (hop : (w.extractLsb' 10 6).toNat = 31) : RefusedExactly w (decodeW w) := by
  simp only [decodeW, fieldA, fieldB, ← BitVec.toNat_inj, BitVec.toNat_ofNat, toNat_extractLsb'_eq_mod,
    getLsbD_iff_mod] at hop ⊢
  split
  case h_8 | h_16 | h_28 | h_29 | h_30 => exact refusedExactly_unused (by omega)
  case h_14 =>
    split
    · exact refusedExactly_ok (by omega)
    · exact refusedExactly_unlisted (by omega)
  case h_24 =>
    split
    · exact refusedExactly_unlisted (by omega)
    · exact refusedExactly_ok (by omega)
  case h_32 =>
    simp only [imp_false] at *
    exact refusedExactly_ok (by omega)
  all_goals exact refusedExactly_ok (by omega)

theorem refusedExactly_decodeOp6 (hlow : (w.extractLsb' 10 6).toNat < 32) :
    RefusedExactly w (decodeOp6 w pfx) := by
  unfold decodeOp6
  split
  case h_30 hop => exact refusedExactly_decodeU hop
  case h_31 hop => exact refusedExactly_decodeV hop
  case h_32 =>
    simp only [imp_false] at *
    exact refusedExactly_decodeW (by omega)
  case h_26 =>
    simp only [toNat_extractLsb'_eq_mod, getLsbD_iff_mod] at *
    split
    · exact refusedExactly_unlisted (by omega)
    · exact refusedExactly_ok (by omega)
  all_goals
    simp only [toNat_extractLsb'_eq_mod] at *
    exact refusedExactly_ok (by omega)

theorem refusedExactly_decode (w : Half) (pfx : Bool) : RefusedExactly w (decode w pfx) := by
  simp only [decode, toNat_extractLsb'_eq_mod]
  split
  case h_1 | h_2 => exact refusedExactly_ok (by omega)
  case h_3 => split <;> exact refusedExactly_ok (by omega)
  case h_4 =>
    split
    case h_3 => exact refusedExactly_unlisted (by omega)
    case h_1 | h_2 => exact refusedExactly_ok (by omega)
    case h_4 =>
      simp only [imp_false] at *
      exact refusedExactly_ok (by omega)
  case h_5 =>
    simp only [imp_false] at *
    refine refusedExactly_decodeOp6 ?_
    rw [toNat_extractLsb'_eq_mod]
    omega

/-- Settles O4: at every leaf of the decoder, the fields that led there place the word inside or outside the ranges. -/
theorem refusedWordsExactly : Obligations.RefusedWordsExactly := by
  intro pfx w
  obtain ⟨hunused, hunlisted, htruncated⟩ := refusedExactly_decode w pfx
  simp only [getLsbD_iff_mod]
  exact ⟨hunused, hunlisted, htruncated⟩

/-! ### Loading a constant (30_encoding.md R119) -/

section

variable {s : State} {k : BitVec 11} {v : Word}

theorem wrapped_wrapped_add (s : State) (p q : Word) : wrapped s (wrapped s p + q) = wrapped s (p + q) := by
  simp only [← address_eq, State.address_add]

/-- The state behind `PFX k` and an instruction that writes `v` into a register, as execAll_pfx_movi and
execAll_pfx_movhi have it. -/
def pfxAssign (s : State) (k : BitVec 11) (a : RegNum) (v : Word) : State :=
  ((s.advance.setPrefix k).setReg a v).advance

theorem execAll_cons_of_next {i : Instr} {s t : State} (h : exec i s = .next t) (l : List Instr) :
    execAll (i :: l) s = execAll l t := by
  rw [execAll, h, andThen_next]

theorem execAll_pfx_movi (ha : s.inFile a = true) (k : BitVec 11) (j : BitVec 5) (l : List Instr) :
    execAll (.pfx k :: .movi a j :: l) s = execAll l (pfxAssign s k a ((k ++ j).setWidth 32)) := by
  have hpfx : exec (.pfx k) s = .next (s.advance.setPrefix k) := rfl
  have hmovi : exec (.movi a j) (s.advance.setPrefix k) = .next (pfxAssign s k a ((k ++ j).setWidth 32)) :=
    State.assign_eq_next.2 ⟨ha, rfl⟩
  rw [execAll_cons_of_next hpfx, execAll_cons_of_next hmovi]

theorem execAll_pfx_movhi (ha : s.inFile a = true) (k : BitVec 11) (j : BitVec 5) (l : List Instr) :
    execAll (.pfx k :: .movhi a j :: l) s =
      execAll l (pfxAssign s k a (k ++ j ++ halfLane (s.reg a) 0#1)) := by
  have hpfx : exec (.pfx k) s = .next (s.advance.setPrefix k) := rfl
  have hmovhi : exec (.movhi a j) (s.advance.setPrefix k) =
      .next (pfxAssign s k a (k ++ j ++ halfLane (s.reg a) 0#1)) := State.mapReg_eq_next.2 ⟨ha, rfl⟩
  rw [execAll_cons_of_next hpfx, execAll_cons_of_next hmovhi]

theorem hasReg_pfxAssign (ha : HasReg s a) : HasReg (pfxAssign s k a v) a :=
  ⟨ha.1, List.length_set.trans ha.2⟩

theorem reg_pfxAssign (ha : HasReg s a) : (pfxAssign s k a v).reg a = v :=
  State.reg_setReg_self (s := s.advance.setPrefix k) ha.1 ha.2 v

theorem keepsOtherCells_pfxAssign : KeepsOtherCells s (pfxAssign s k a v) (s.regIndex a) :=
  fun _ hn => State.cell_setReg_ne (s := s.advance.setPrefix k) hn v

theorem delay_pfxAssign : (pfxAssign s k a v).delay = none := State.advance_delay _

theorem pc_pfxAssign (hdelay : s.delay = none) : (pfxAssign s k a v).pc = wrapped s (s.pc + 4#32) := by
  have hpc : (pfxAssign s k a v).pc = s.address (s.address (s.pc + 2#32) + 2#32) := by
    simp [pfxAssign, hdelay]
  rw [hpc, State.address_add, BitVec.add_assoc, address_eq]
  rfl

end

/-- What MOVHI puts over the lower half that MOVI left: each half is the eleven bits of K over the five of IMM5. -/
theorem constant_of_halves (x : Word) :
    x.extractLsb' 21 11 ++ x.extractLsb' 16 5 ++
      halfLane ((x.extractLsb' 5 11 ++ x.extractLsb' 0 5).setWidth 32) 0#1 = x := by
  have hlane (y : Word) : halfLane y 0#1 = y.extractLsb' 0 16 := rfl
  apply BitVec.eq_of_toNat_eq
  simp only [hlane, toNat_append_eq_add, toNat_extractLsb'_eq_mod, BitVec.toNat_setWidth]
  omega

/-- Settles O27: two pairs of PFX and a move, one for each half of the constant. -/
theorem loadsConstant : Obligations.LoadsConstant := by
  intro a x s ha hdelay
  have hrun : execAll [.pfx (x.extractLsb' 5 11), .movi a (x.extractLsb' 0 5), .pfx (x.extractLsb' 21 11),
        .movhi a (x.extractLsb' 16 5)] s =
      .next (pfxAssign (pfxAssign s (x.extractLsb' 5 11) a
        ((x.extractLsb' 5 11 ++ x.extractLsb' 0 5).setWidth 32)) (x.extractLsb' 21 11) a x) := by
    rw [execAll_pfx_movi ha.1, execAll_pfx_movhi (hasReg_pfxAssign ha).1, reg_pfxAssign ha, constant_of_halves]
    rfl
  refine ⟨_, hrun, ?reg, ?cells, rfl, ?pc, fun _ => ⟨rfl, rfl⟩⟩
  case reg => exact reg_pfxAssign (hasReg_pfxAssign ha)
  case cells =>
    exact fun n hn =>
      (keepsOtherCells_pfxAssign (s := pfxAssign s _ a _) n hn).trans (keepsOtherCells_pfxAssign n hn)
  case pc =>
    rw [pc_pfxAssign delay_pfxAssign, pc_pfxAssign hdelay]
    exact (wrapped_wrapped_add s _ _).trans (by rw [BitVec.add_assoc]; rfl)

end Sys2Proof.Proofs
end

section
/-!
PROOFS. The statements of 40_prefix.md: what PFX leaves behind (R130), and that no other instruction leaves a prefix
(R131).
-/

namespace Sys2Proof.Proofs

open Sys2Proof.Machine Sys2Proof.Claims

variable {s t : State} {i : Instr}

/-! ### The life of a prefix -/

/-- Every effect but that of PFX ends in a retirement or at a handler, and both clear the prefix. -/
theorem isPfx_or_prefixClear_of_effect (h : Effect i s t) :
    (∃ k, i = .pfx k) ∨ t.k = 0#11 ∧ t.pfx = false := by
  cases h with
  | loadK k hi => exact .inl ⟨k, hi⟩
  | assign | arithmetic | compare | logic | rotate | goOn | store | writeIstatus | writeLimits | save | restore =>
    exact .inr ⟨State.advance_k _, State.advance_pfx _⟩
  | writeStatus a st => exact .inr ⟨State.advance_k (s.setStatus st), State.advance_pfx (s.setStatus st)⟩
  | branch g | link v g => exact .inr ⟨State.branch_k _ g, State.branch_pfx _ g⟩
  | skip | tret => exact .inr ⟨State.retire_k _ _ none, State.retire_pfx _ _ none⟩
  | trap u n r x | underflow v r x => exact .inr ⟨State.atHandler_k _ x, State.atHandler_pfx _ x⟩

/-- Settles O9: an effect that leaves a prefix is that of PFX. -/
theorem prefixLivesOneInstruction : Obligations.PrefixLivesOneInstruction := by
  intro i s t hexec hi
  refine (isPfx_or_prefixClear_of_effect (exec_effect hexec)).resolve_left ?_
  exact fun ⟨k, hk⟩ => hi k hk

/-! ### PFX -/

theorem exec_pfx (k : BitVec 11) (s : State) : exec (.pfx k) s = .next (s.advance.setPrefix k) := rfl

/-- K and `pfx` are no part of what the frame speaks of. -/
theorem quiet_advance_setPrefix (s : State) (k : BitVec 11) : Quiet s (s.advance.setPrefix k) := quiet_advance s

theorem pc_advance (hdelay : s.delay = none) : s.advance.pc = wrapped s (s.pc + 2#32) := by
  rw [State.advance_pc, hdelay, Option.getD_none, address_eq]

/-- Behind a PFX the words of AND, ANDN, OR and XOR are those of their immediate forms (30_encoding.md R102). -/
theorem decode_logic_of_pfx (a f : BitVec 5) :
    decode (0b001110#6 ++ f ++ a) true = .ok (.and a (.imm f)) ∧
      decode (0b001111#6 ++ f ++ a) true = .ok (.andn a (.imm f)) ∧
      decode (0b010000#6 ++ f ++ a) true = .ok (.or a (.imm f)) ∧
      decode (0b010001#6 ++ f ++ a) true = .ok (.xor a (.imm f)) :=
  ⟨decode_of_encode_eq rfl rfl, decode_of_encode_eq rfl rfl, decode_of_encode_eq rfl rfl,
    decode_of_encode_eq rfl rfl⟩

/-- Settles O8: PFX goes on as any instruction does, and then loads K. -/
theorem pfxLoadsK : Obligations.PfxLoadsK := by
  refine fun k s => ⟨rfl, notInSlot rfl, fun hdelay => ⟨_, exec_pfx k s, ?_⟩⟩
  exact ⟨State.setPrefix_k _ k, State.setPrefix_pfx _ k, pc_advance hdelay, State.advance_delay s,
    State.advance_wrctlHazard s, quiet_advance_setPrefix s k, decode_logic_of_pfx⟩

end Sys2Proof.Proofs
end

section
/-!
PROOFS. The statements of 41_arithmetic.md: the sum, the difference and the comparison with their flags (R141 to R146),
the negative and the absolute value (R147, R148), and what the flags mean (R149). A word is taken as the number it is,
signed or unsigned; a sum or difference of two words is the exact one, or is 2^32 away from it.
-/

namespace Sys2Proof.Proofs

open Sys2Proof.Machine Sys2Proof.Claims

/-! ### The meanings, with the second operand read -/

section

variable {i : Instr} {s : State} {a b : RegNum} {y : Word}

theorem andThen_readReg (hb : HasReg s b) (f : Word → Result State) : andThen (s.readReg b) f = f (s.reg b) := by
  rw [State.readReg_of_inFile hb.1, andThen_next]

theorem exec_add (hb : HasReg s b) : exec (.add a b) s = s.addTo a (s.reg b) := andThen_readReg hb _

theorem exec_addi (j : BitVec 5) : exec (.addi a j) s = s.addTo a (immediate s j) :=
  congrArg (s.addTo a) (imm16_eq s j)

theorem exec_sub (hb : HasReg s b) : exec (.sub a b) s = s.subFrom a (s.reg b) := andThen_readReg hb _

theorem exec_subi (j : BitVec 5) : exec (.subi a j) s = s.subFrom a (immediate s j) :=
  congrArg (s.subFrom a) (imm16_eq s j)

theorem exec_cmp (hb : HasReg s b) : exec (.cmp a b) s = s.compare a (s.reg b) := andThen_readReg hb _

theorem exec_cmpi (j : BitVec 5) : exec (.cmpi a j) s = s.compare a (immediate s j) :=
  congrArg (s.compare a) (imm16_eq s j)

/-! ### The shared operations in the words of the statements -/

theorem addTo_assigns (ha : HasReg s a) (h : exec i s = s.addTo a y) :
    Assigns i s a (s.reg a + y) (addStatus s.status (s.reg a) y) := by
  rw [← addStatus_eq]
  exact assigns_setStatus ha rfl (h.trans (State.addTo_eq_next.2 ⟨ha.1, rfl⟩))

theorem subFrom_assigns (ha : HasReg s a) (h : exec i s = s.subFrom a y) :
    Assigns i s a (s.reg a - y) (subStatus s.status (s.reg a) y) := by
  rw [← subStatus_eq]
  exact assigns_setStatus ha rfl (h.trans (State.subFrom_eq_next.2 ⟨ha.1, rfl⟩))

theorem compare_setsStatus (ha : HasReg s a) (h : exec i s = s.compare a y) :
    SetsStatus i s (subStatus s.status (s.reg a) y) := by
  rw [← subStatus_eq]
  exact setsStatus (h.trans (State.compare_eq_next.2 ⟨ha.1, rfl⟩))

end

/-- Settles O10: both forms are `State.addTo`, whose second operand is a register or the immediate. -/
theorem addsWithFlags : Obligations.AddsWithFlags :=
  ⟨fun _ _ _ => ⟨rfl, fun ha hb => addTo_assigns ha (exec_add hb)⟩,
    fun _ j _ => ⟨rfl, fun ha => addTo_assigns ha (exec_addi j)⟩⟩

/-- Settles O11: both forms are `State.subFrom`. -/
theorem subtractsWithFlags : Obligations.SubtractsWithFlags :=
  ⟨fun _ _ _ ha hb => subFrom_assigns ha (exec_sub hb), fun _ j _ ha => subFrom_assigns ha (exec_subi j)⟩

/-- Settles O12: both forms are `State.compare`. -/
theorem comparesWithFlags : Obligations.ComparesWithFlags :=
  ⟨fun _ _ _ ha hb => compare_setsStatus ha (exec_cmp hb), fun _ j _ ha => compare_setsStatus ha (exec_cmpi j)⟩

/-! ### Words as signed numbers -/

/-- Bit 31 is the sign. -/
theorem getLsbD_31_eq_decide (x : Word) : x.getLsbD 31 = decide (x.toInt < 0) := by
  rw [← BitVec.msb_eq_toInt, BitVec.msb_eq_getLsbD_last]

/-- A number less than 2^32 away from zero, brought into the signed words: itself where it fits, and 2^32 away where it
does not. -/
theorem bmod_cases {e : Int} (hlo : -4294967296 ≤ e) (hhi : e < 4294967296) :
    (-2147483648 ≤ e ∧ e < 2147483648 ∧ e.bmod (2 ^ 32) = e) ∨
      (2147483648 ≤ e ∧ e.bmod (2 ^ 32) = e - 4294967296) ∨
      (e < -2147483648 ∧ e.bmod (2 ^ 32) = e + 4294967296) := by
  rw [Int.bmod_def]
  omega

/-- The range of the signed words, in numerals. -/
theorem toInt_range (x : Word) : -2147483648 ≤ x.toInt ∧ x.toInt < 2147483648 := ⟨x.le_toInt, x.toInt_lt⟩

/-! ### NEG and ABS -/

/-- The most negative number gives itself: its negative is 2^31. -/
theorem zero_sub_eq_ofInt (x : Word) : 0#32 - x = BitVec.ofInt 32 (-x.toInt) := by
  rw [BitVec.zero_sub, BitVec.ofInt_neg, BitVec.ofInt_toInt]

theorem abs_eq_ofNat (x : Word) :
    (if x.getLsbD 31 then 0#32 - x else x) = BitVec.ofNat 32 x.toInt.natAbs := by
  rw [getLsbD_31_eq_decide, ← BitVec.ofInt_natCast 32 x.toInt.natAbs]
  by_cases hneg : x.toInt < 0
  · rw [decide_eq_true hneg, if_pos rfl, zero_sub_eq_ofInt, Int.ofNat_natAbs_of_nonpos (by omega)]
  · rw [decide_eq_false hneg, if_neg Bool.false_ne_true, Int.natAbs_of_nonneg (by omega), BitVec.ofInt_toInt]

/-- Settles O14: both map RA, and the value mapped to is the negative or the absolute one. -/
theorem negatesAndTakesAbs : Obligations.NegatesAndTakesAbs := fun _ _ ha =>
  ⟨mapReg_assigns ha rfl (zero_sub_eq_ofInt _), mapReg_assigns ha rfl (abs_eq_ofNat _)⟩

/-! ### The flags of a sum -/

section

variable (a b : Word) (st : Status)

theorem addFlags_v_iff_signs : (addFlags a b).v = true ↔
    (a.toInt < 0 ↔ b.toInt < 0) ∧ ¬((a + b).toInt < 0 ↔ a.toInt < 0) := by
  simp only [addFlags, getLsbD_31_eq_decide, Bool.and_eq_true, beq_iff_eq, bne_iff_ne, ne_eq, decide_eq_decide]

theorem addFlags_v_iff : (addFlags a b).v = true ↔ (a + b).toInt ≠ a.toInt + b.toInt := by
  have ha := toInt_range a
  have hb := toInt_range b
  rw [addFlags_v_iff_signs, BitVec.toInt_add]
  rcases bmod_cases (e := a.toInt + b.toInt) (by omega) (by omega) with h | h | h <;> omega

theorem addFlags_c_iff : (addFlags a b).c = true ↔ (a + b).toNat ≠ a.toNat + b.toNat := by
  have hcarry : (addFlags a b).c = true ↔ 4294967296 ≤ a.toNat + b.toNat := decide_eq_true_iff
  rw [hcarry, BitVec.toNat_add]
  omega

/-! ### The flags of a difference -/

theorem subFlags_v_iff_signs : (subFlags a b).v = true ↔
    ¬(a.toInt < 0 ↔ b.toInt < 0) ∧ ¬((a - b).toInt < 0 ↔ a.toInt < 0) := by
  simp only [subFlags, getLsbD_31_eq_decide, Bool.and_eq_true, bne_iff_ne, ne_eq, decide_eq_decide]

theorem subFlags_v_iff : (subFlags a b).v = true ↔ (a - b).toInt ≠ a.toInt - b.toInt := by
  have ha := toInt_range a
  have hb := toInt_range b
  rw [subFlags_v_iff_signs, BitVec.toInt_sub]
  rcases bmod_cases (e := a.toInt - b.toInt) (by omega) (by omega) with h | h | h <;> omega

theorem subFlags_c : (subFlags a b).c = decide (a.toNat < b.toNat) := rfl

theorem subFlags_c_iff : (subFlags a b).c = true ↔ ((a - b).toNat : Int) ≠ (a.toNat : Int) - b.toNat := by
  rw [subFlags_c, decide_eq_true_iff, BitVec.toNat_sub]
  omega

theorem subFlags_z : (subFlags a b).z = decide (a = b) := by
  have hz : (subFlags a b).z = decide (a - b = 0#32) := rfl
  rw [hz, decide_eq_decide]
  exact sub_eq_zero

theorem subFlags_z_toNat : (subFlags a b).z = decide (a.toNat = b.toNat) := by
  rw [subFlags_z, decide_eq_decide, BitVec.toNat_inj]

theorem subFlags_z_toInt : (subFlags a b).z = decide (a.toInt = b.toInt) := by
  rw [subFlags_z, decide_eq_decide, BitVec.toInt_inj]

/-- N is the sign of the difference, and V says that it is the wrong sign: where they differ, the exact difference is
negative. -/
theorem subFlags_n_bne_v : ((subFlags a b).n != (subFlags a b).v) = decide (a.toInt < b.toInt) := by
  have ha := toInt_range a
  have hb := toInt_range b
  have hn : (subFlags a b).n = true ↔ (a - b).toInt < 0 := by
    rw [subFlags, flagN, getLsbD_31_eq_decide, decide_eq_true_iff]
  have hv := subFlags_v_iff a b
  rw [Bool.eq_iff_iff, bne_iff_ne, ne_eq, Bool.eq_iff_iff, hn, hv, decide_eq_true_iff, BitVec.toInt_sub]
  rcases bmod_cases (e := a.toInt - b.toInt) (by omega) (by omega) with h | h | h <;> omega

/-! ### The conditions after a comparison (45_control_transfer.md R268) -/

theorem conditionHolds_c_subFlags :
    conditionHolds (st.withFlags (subFlags a b)) .c = decide (a.toNat < b.toNat) := rfl

theorem conditionHolds_z_subFlags : conditionHolds (st.withFlags (subFlags a b)) .z = decide (a = b) := subFlags_z a b

theorem conditionHolds_lt_subFlags :
    conditionHolds (st.withFlags (subFlags a b)) .lt = decide (a.toInt < b.toInt) := subFlags_n_bne_v a b

theorem conditionHolds_le_subFlags :
    conditionHolds (st.withFlags (subFlags a b)) .le = decide (a.toInt ≤ b.toInt) := by
  have hle : conditionHolds (st.withFlags (subFlags a b)) .le =
      ((subFlags a b).z || ((subFlags a b).n != (subFlags a b).v)) := rfl
  rw [hle, subFlags_z_toInt, subFlags_n_bne_v, ← Bool.decide_or, decide_eq_decide]
  omega

theorem conditionHolds_ls_subFlags :
    conditionHolds (st.withFlags (subFlags a b)) .ls = decide (a.toNat ≤ b.toNat) := by
  have hls : conditionHolds (st.withFlags (subFlags a b)) .ls = ((subFlags a b).c || (subFlags a b).z) := rfl
  rw [hls, subFlags_c, subFlags_z_toNat, ← Bool.decide_or, decide_eq_decide]
  omega

end

/-! ### The opposite conditions -/

section

variable (st : Status)

theorem conditionHolds_nc : conditionHolds st .nc = !conditionHolds st .c := rfl

theorem conditionHolds_nz : conditionHolds st .nz = !conditionHolds st .z := rfl

theorem conditionHolds_ge : conditionHolds st .ge = !conditionHolds st .lt := (Bool.not_not _).symm

theorem conditionHolds_gt : conditionHolds st .gt = !conditionHolds st .le := by
  simp only [conditionHolds, bne, Bool.not_or, Bool.not_not]

theorem conditionHolds_hi : conditionHolds st .hi = !conditionHolds st .ls := (Bool.not_or _ _).symm

end

/-- Settles O13: V and C compare the result with the exact one; five conditions are read off the flags of the
difference, and the other five are their opposites. -/
theorem flagsMeanOverflow : Obligations.FlagsMeanOverflow := by
  intro a b st
  refine ⟨addFlags_v_iff a b, addFlags_c_iff a b, subFlags_v_iff a b, subFlags_c_iff a b,
    conditionHolds_c_subFlags a b st, ?nc, conditionHolds_z_subFlags a b st, ?nz, ?ge,
    conditionHolds_lt_subFlags a b st, conditionHolds_le_subFlags a b st, ?gt, conditionHolds_ls_subFlags a b st, ?hi⟩
  case nc => rw [conditionHolds_nc, conditionHolds_c_subFlags, ← decide_not, decide_eq_decide, not_lt]
  case nz => rw [conditionHolds_nz, conditionHolds_z_subFlags, ← decide_not]
  case ge => rw [conditionHolds_ge, conditionHolds_lt_subFlags, ← decide_not, decide_eq_decide, not_lt]
  case gt => rw [conditionHolds_gt, conditionHolds_le_subFlags, ← decide_not, decide_eq_decide, not_le]
  case hi => rw [conditionHolds_hi, conditionHolds_ls_subFlags, ← decide_not, decide_eq_decide, not_le]

end Sys2Proof.Proofs
end

section
/-!
PROOFS. The statements of 42_logic_shift.md: AND, ANDN, OR, XOR in both readings of their second operand (R160 to R163),
NOT (R164), the shifts by a register and by an immediate (R170 to R175), the rotates through C (R182, R183) and BGEN
(R185). What an instruction writes is one of the shared operations; what is left to say is that its word is the number,
or has the bits, of the statement.
-/

namespace Sys2Proof.Proofs

open Sys2Proof.Machine Sys2Proof.Claims

variable {i : Instr} {s : State} {a b : RegNum}

/-! ### AND, ANDN, OR, XOR -/

/-- Behind an instruction that is no PFX the words of AND, ANDN, OR and XOR are those of their register forms
(30_encoding.md R102). -/
theorem decode_logic_of_not_pfx (a f : BitVec 5) :
    decode (0b001110#6 ++ f ++ a) false = .ok (.and a (.reg f)) ∧
      decode (0b001111#6 ++ f ++ a) false = .ok (.andn a (.reg f)) ∧
      decode (0b010000#6 ++ f ++ a) false = .ok (.or a (.reg f)) ∧
      decode (0b010001#6 ++ f ++ a) false = .ok (.xor a (.reg f)) :=
  ⟨decode_of_encode_eq rfl rfl, decode_of_encode_eq rfl rfl, decode_of_encode_eq rfl rfl,
    decode_of_encode_eq rfl rfl⟩

/-- The second operand in the words of the statements. -/
theorem logicOperand_eq_of_reads {o : LogicOperand} {y : Word}
    (h : (∃ b, o = .reg b ∧ HasReg s b ∧ y = s.reg b) ∨ ∃ f, o = .imm f ∧ y = immediate s f) :
    s.logicOperand o = .next y := by
  obtain ⟨b, ho, hb, hy⟩ | ⟨f, ho, hy⟩ := h
  · exact State.logicOperand_eq_next.2 (.inl ⟨b, ho, hb.1, hy⟩)
  · exact State.logicOperand_eq_next.2 (.inr ⟨f, ho, hy.trans (imm16_eq s f).symm⟩)

theorem logic_assigns {o : LogicOperand} {y : Word} (f : Word → Word → Word) (ha : HasReg s a)
    (hy : s.logicOperand o = .next y) (h : exec i s = s.logic a o f) :
    Assigns i s a (f (s.reg a) y) (logicStatus s.status (f (s.reg a) y)) := by
  rw [← logicStatus_eq]
  exact assigns_setStatus ha rfl (h.trans (State.logic_eq_next.2 ⟨ha.1, y, hy, rfl⟩))

/-- Settles O15: the prefix bit chooses the operand, and all four are `State.logic` with it. -/
theorem logicInBothForms : Obligations.LogicInBothForms := by
  refine ⟨fun a f => ?decodings, fun a o y s ha hreads => ?meanings⟩
  case decodings =>
    obtain ⟨hand, handn, hor, hxor⟩ := decode_logic_of_not_pfx a f
    obtain ⟨handi, handni, hori, hxori⟩ := decode_logic_of_pfx a f
    exact ⟨hand, handi, handn, handni, hor, hori, hxor, hxori⟩
  case meanings =>
    have hy : s.logicOperand o = .next y := logicOperand_eq_of_reads hreads
    exact ⟨logic_assigns (· &&& ·) ha hy rfl, logic_assigns (· &&& ~~~·) ha hy rfl,
      logic_assigns (· ||| ·) ha hy rfl, logic_assigns (· ^^^ ·) ha hy rfl⟩

/-! ### Shifted words as numbers -/

theorem shiftLeft_eq_ofNat (x : Word) (n : Nat) : x <<< n = BitVec.ofNat 32 (x.toNat * 2 ^ n) := by
  apply BitVec.eq_of_toNat_eq
  rw [BitVec.toNat_shiftLeft, Nat.shiftLeft_eq, BitVec.toNat_ofNat]

theorem ushiftRight_eq_ofNat (x : Word) (n : Nat) : x >>> n = BitVec.ofNat 32 (x.toNat / 2 ^ n) := by
  rw [← Nat.shiftRight_eq_div_pow, ← BitVec.toNat_ushiftRight, BitVec.ofNat_toNat, BitVec.setWidth_eq]

/-- The bits that enter on the left are copies of the sign. -/
theorem getLsbD_sshiftRight_word (x : Word) (n : Nat) {j : Nat} (hj : j < 32) :
    (x.sshiftRight n).getLsbD j = if j + n < 32 then x.getLsbD (j + n) else x.getLsbD 31 := by
  rw [BitVec.getLsbD_sshiftRight, decide_eq_false (by omega), Bool.not_false, Bool.true_and, Nat.add_comm,
    BitVec.msb_eq_getLsbD_last]

/-- The quotient is rounded down, also for a negative number. -/
theorem toInt_sshiftRight_word (x : Word) (n : Nat) : (x.sshiftRight n).toInt = x.toInt / 2 ^ n := by
  rw [BitVec.toInt_sshiftRight, Int.shiftRight_eq_div_pow, Nat.cast_pow, Nat.cast_ofNat]

/-- Settles O17: the three map RA and RB, and only the low five bits of RB count. -/
theorem shiftsByRegister : Obligations.ShiftsByRegister := by
  refine fun a b s => ⟨rfl, rfl, rfl, fun ha hb n hn => ?_⟩
  obtain rfl : n = shiftCount (s.reg b) := hn.trans (shiftCount_eq _).symm
  exact ⟨mapRegs_assigns ha hb rfl (shiftLeft_eq_ofNat _ _), mapRegs_assigns ha hb rfl (ushiftRight_eq_ofNat _ _),
    _, fun _ => getLsbD_sshiftRight_word _ _, toInt_sshiftRight_word _ _, mapRegs_assigns ha hb rfl rfl⟩

/-- Settles O18: the three map RA, and K is no part of what they map it to. -/
theorem shiftsByImmediate : Obligations.ShiftsByImmediate := fun _ _ _ =>
  ⟨rfl, rfl, rfl, fun ha =>
    ⟨mapReg_assigns ha rfl (shiftLeft_eq_ofNat _ _), mapReg_assigns ha rfl (ushiftRight_eq_ofNat _ _),
      _, fun _ => getLsbD_sshiftRight_word _ _, mapReg_assigns ha rfl rfl⟩⟩

/-! ### NOT and BGEN -/

theorem one_shiftLeft_eq_ofNat (n : Nat) : 1#32 <<< n = BitVec.ofNat 32 (2 ^ n) :=
  (shiftLeft_eq_ofNat 1#32 n).trans (congrArg _ (Nat.one_mul _))

/-- Settles O16: NOT maps RA, and BGEN writes it without reading. -/
theorem complementAndBitGenerate : Obligations.ComplementAndBitGenerate := by
  refine ⟨fun a s => ⟨rfl, fun ha => ?not⟩, fun a imm5 s => ⟨rfl, fun ha => ?bgen⟩⟩
  case not =>
    refine ⟨~~~s.reg a, fun j hj => ?_, mapReg_assigns ha rfl rfl⟩
    rw [BitVec.getLsbD_not, decide_eq_true hj, Bool.true_and]
  case bgen =>
    rw [← one_shiftLeft_eq_ofNat]
    exact assign_assigns ha rfl

/-! ### The rotates through C -/

/-- RLC and RRC write RA and C, each from the old RA. -/
theorem rotate_assigns {f : Word → Word} {v : Word} (g : Word → Bool) (ha : HasReg s a)
    (h : exec i s = andThen (s.readReg a) fun x => (s.setStatus (s.status.withC (g x))).assign a (f x))
    (hv : f (s.reg a) = v) : Assigns i s a v (s.status.withC (g (s.reg a))) := by
  have hin : (s.setStatus (s.status.withC (g (s.reg a)))).inFile a = true := ha.1
  refine assigns_setStatus ha rfl ?_
  rw [h, andThen_readReg ha, hv]
  exact State.assign_eq_next.2 ⟨hin, rfl⟩

/-- RLC: bit 31 leaves, and the old C is the lowest bit. -/
theorem extractLsb'_append_ofBool_eq_ofNat (x : Word) (c : Bool) :
    x.extractLsb' 0 31 ++ BitVec.ofBool c = BitVec.ofNat 32 (x.toNat * 2 + c.toNat) := by
  have hc : c.toNat < 2 := c.toNat_lt
  apply BitVec.eq_of_toNat_eq
  rw [toNat_append_eq_add, toNat_extractLsb'_eq_mod, BitVec.toNat_ofBool, BitVec.toNat_ofNat]
  omega

/-- RRC: bit 0 leaves, and the old C is the highest bit. -/
theorem ofBool_append_extractLsb'_eq_ofNat (x : Word) (c : Bool) :
    BitVec.ofBool c ++ x.extractLsb' 1 31 = BitVec.ofNat 32 (x.toNat / 2 + c.toNat * 2 ^ 31) := by
  have hc : c.toNat < 2 := c.toNat_lt
  apply BitVec.eq_of_toNat_eq
  rw [toNat_append_eq_add, toNat_extractLsb'_eq_mod, BitVec.toNat_ofBool, BitVec.toNat_ofNat]
  omega

/-- Settles O19: the 33 bits are RA and C, turned by one place. -/
theorem rotatesThroughCarry : Obligations.RotatesThroughCarry := fun _ s ha =>
  ⟨rotate_assigns (·.getLsbD 31) ha rfl (extractLsb'_append_ofBool_eq_ofNat _ s.status.c),
    rotate_assigns (·.getLsbD 0) ha rfl (ofBool_append_extractLsb'_eq_ofNat _ s.status.c)⟩

end Sys2Proof.Proofs
end

section
/-!
PROOFS. The statements of 43_move_extract_multiply.md: MOV and NOP (R190), the move immediates (R191, R192), SWAP and
the sign extensions (R193 to R195), the extractions (R196 to R199), FILL8 and FILL16 (R206, R207), MSTEP and MUL (R210,
R211), and the multiplication by sixteen MSTEPs (R213). What an instruction writes is one of the shared operations; what
is left to say is that its lanes are those of the statement, or that its word is the number.
-/

namespace Sys2Proof.Proofs

open Sys2Proof.Machine Sys2Proof.Claims

variable {i : Instr} {s : State} {a b : RegNum}

/-! ### MOV and NOP -/

theorem setReg_reg_self (ha : HasReg s a) : s.setReg a (s.reg a) = s := by
  obtain ⟨hin, hsize⟩ := ha
  have hlt : s.regIndex a < s.regs.length := hsize ▸ of_decide_eq_true hin
  have hreg : s.reg a = s.regs[s.regIndex a] := List.getD_eq_getElem _ _ hlt
  rw [State.setReg, hreg, List.set_getElem_self]

theorem exec_nop (s : State) : exec (.mov 0#5 0#5) s = .next s.advance := rfl

/-- NOP, too, leaves what a copy of `%g0` to itself would leave. -/
theorem exec_mov (ha : HasReg s a) (hb : HasReg s b) : exec (.mov a b) s = s.assign a (s.reg b) := by
  by_cases hnop : a = zeroReg ∧ b = zeroReg
  · obtain ⟨rfl, rfl⟩ := hnop
    exact (State.assign_eq_next.2 ⟨ha.1, by rw [setReg_reg_self ha]⟩).symm
  · exact (if_neg hnop).trans (andThen_readReg hb _)

/-- Settles O20: MOV writes RA with what it reads in RB, and NOP only goes on. -/
theorem movesAndNop : Obligations.MovesAndNop :=
  ⟨fun _ _ _ ha hb => assign_assigns ha (exec_mov ha hb),
    fun s => ⟨_, exec_nop s, quiet_advance s, advances_refl s s rfl rfl rfl⟩, rfl⟩

/-! ### Lanes -/

theorem byteLane_eq_byteOf (x : Word) (n : BitVec 2) : byteLane x n = byteOf x n.toNat := rfl

theorem halfLane_eq_halfOf (x : Word) (n : BitVec 1) : halfLane x n = halfOf x n.toNat := rfl

theorem toNat_halfLane_zero (x : Word) : (halfLane x 0#1).toNat = x.toNat % 2 ^ 16 := by
  rw [halfLane_eq_halfOf, halfOf, toNat_extractLsb'_eq_mod]
  exact congrArg (· % 2 ^ 16) (Nat.div_one _)

theorem toNat_halfLane_one (x : Word) : (halfLane x 1#1).toNat = x.toNat / 2 ^ 16 := by
  have hlt : x.toNat / 2 ^ 16 < 2 ^ 16 := by omega
  rw [halfLane_eq_halfOf, halfOf, toNat_extractLsb'_eq_mod]
  exact Nat.mod_eq_of_lt hlt

/-! ### The move immediates, SWAP and the sign extensions -/

/-- MOVHI: the immediate over the lower half that stays. -/
theorem append_halfLane_eq_ofNat (k : BitVec 11) (j : BitVec 5) (x : Word) :
    k ++ j ++ halfLane x 0#1 = BitVec.ofNat 32 ((k.toNat * 32 + j.toNat) * 2 ^ 16 + x.toNat % 2 ^ 16) := by
  apply BitVec.eq_of_toNat_eq
  rw [BitVec.toNat_ofNat, toNat_append_eq_add, toNat_append_eq_add, toNat_halfLane_zero]
  omega

/-- SWAP: the lower half over the upper one. -/
theorem halfLane_append_halfLane_eq_ofNat (x : Word) :
    halfLane x 0#1 ++ halfLane x 1#1 = BitVec.ofNat 32 (x.toNat % 2 ^ 16 * 2 ^ 16 + x.toNat / 2 ^ 16) := by
  apply BitVec.eq_of_toNat_eq
  rw [BitVec.toNat_ofNat, toNat_append_eq_add, toNat_halfLane_zero, toNat_halfLane_one]
  omega

/-- Settles O21: MOVI writes RA without reading it, and MOVHI maps it. -/
theorem movesImmediates : Obligations.MovesImmediates := fun _ j s =>
  ⟨rfl, rfl, fun ha =>
    ⟨assign_assigns ha (congrArg (s.assign _) (imm16_eq s j)),
      mapReg_assigns ha rfl (append_halfLane_eq_ofNat s.k j _)⟩⟩

/-- Settles O22: the three map RA; a sign-extended lane is the lane's signed number. -/
theorem swapsAndExtends : Obligations.SwapsAndExtends := fun _ _ =>
  ⟨rfl, rfl, rfl, fun ha =>
    ⟨mapReg_assigns ha rfl (halfLane_append_halfLane_eq_ofNat _), mapReg_assigns ha rfl rfl,
      mapReg_assigns ha rfl rfl⟩⟩

/-! ### The extractions -/

/-- EXT8D: the low two bits of RB name the byte. -/
theorem byteLane_extractLsb' (x y : Word) : byteLane x (y.extractLsb' 0 2) = byteOf x (y.toNat % 4) := by
  rw [byteLane_eq_byteOf, toNat_extractLsb'_eq_mod, Nat.pow_zero, Nat.div_one]
  rfl

/-- EXT16D: bit 1 of RB names the half-word, and bit 0 does not count. -/
theorem halfLane_extractLsb' (x y : Word) : halfLane x (y.extractLsb' 1 1) = halfOf x (y.toNat / 2 % 2) := by
  rw [halfLane_eq_halfOf, toNat_extractLsb'_eq_mod]
  rfl

/-- Every word of EXT16S has a zero in bit 5. -/
theorem decode_ne_ext16s_of_bit5 {w : Half} {f : Bool} {n : BitVec 1} (hbit : w.getLsbD 5 = true) :
    decode w f ≠ .ok (.ext16s b n) := by
  intro h
  obtain ⟨hencode, -⟩ := decode_eq_ok_iff.1 h
  obtain ⟨-, -, hzero, -, -⟩ := ri1u_eq_iff.1 hencode
  exact hzero hbit

theorem getLsbD_5_of_append {m : Nat} (x : BitVec m) (a : BitVec 5) : (x ++ 1#1 ++ a).getLsbD 5 = true := by
  simp [BitVec.getLsbD_append]

/-- Settles O23: the four map RA, EXT8D and EXT16D with the low bits of RB, and bit 5 is the decoder's. -/
theorem extractsLanes : Obligations.ExtractsLanes := by
  refine ⟨fun a b s => ⟨rfl, rfl, fun ha hb => ⟨?ext8d, ?ext16d⟩⟩,
    fun a n s => ⟨rfl, fun ha => mapReg_assigns ha rfl rfl⟩,
    fun a n s => ⟨rfl, fun f b m => ?bit5, fun ha => mapReg_assigns ha rfl rfl⟩⟩
  case ext8d => exact mapRegs_assigns ha hb rfl (congrArg _ (byteLane_extractLsb' _ _))
  case ext16d => exact mapRegs_assigns ha hb rfl (congrArg _ (halfLane_extractLsb' _ _))
  case bit5 => exact decode_ne_ext16s_of_bit5 (getLsbD_5_of_append _ a)

/-! ### FILL8 and FILL16 -/

theorem byteOf_fill (v : Byte) {j : Nat} (hj : j < 4) : byteOf (v ++ v ++ v ++ v) j = v := by
  have hnext {m : Nat} (x : BitVec m) {k : Nat} (hk : 8 ≤ k) :
      (x ++ v).extractLsb' k 8 = x.extractLsb' (k - 8) 8 := BitVec.extractLsb'_append_eq_of_le hk
  match j with
  | 0 => exact BitVec.extractLsb'_append_eq_right
  | 1 => exact (hnext _ (by decide)).trans BitVec.extractLsb'_append_eq_right
  | 2 => exact (hnext _ (by decide)).trans ((hnext _ (by decide)).trans BitVec.extractLsb'_append_eq_right)
  | 3 => exact (hnext _ (by decide)).trans ((hnext _ (by decide)).trans BitVec.extractLsb'_append_eq_left)

theorem halfOf_fill (v : Half) {j : Nat} (hj : j < 2) : halfOf (v ++ v) j = v := by
  match j with
  | 0 => exact BitVec.extractLsb'_append_eq_right
  | 1 => exact BitVec.extractLsb'_append_eq_left

/-- FILL8 and FILL16 read RA and write `%r0`. -/
theorem fill_assigns (f : Word → Word) (hzero : HasReg s 0#5) (ha : HasReg s a)
    (h : exec i s = andThen (s.readReg a) fun x => s.assign zeroReg (f x)) :
    Assigns i s 0#5 (f (s.reg a)) s.status :=
  assign_assigns hzero (h.trans (andThen_readReg ha _))

/-- Settles O24: the lanes of a word of equal lanes are that lane. -/
theorem fillsR0 : Obligations.FillsR0 := fun _ _ =>
  ⟨rfl, rfl, fun hzero ha =>
    ⟨⟨_, fun _ => byteOf_fill _,
        fill_assigns (fun x => byteLane x 0#2 ++ byteLane x 0#2 ++ byteLane x 0#2 ++ byteLane x 0#2) hzero ha rfl⟩,
      _, fun _ => halfOf_fill _, fill_assigns (fun x => halfLane x 0#1 ++ halfLane x 0#1) hzero ha rfl⟩⟩

/-! ### MSTEP and MUL -/

section

variable {r x : Word}

/-- The bit that MSTEP tests, as an order. -/
theorem getLsbD_31_iff_le : r.getLsbD 31 = true ↔ 2 ^ 31 ≤ r.toNat := by
  rw [getLsbD_iff_mod]
  omega

theorem mstepValue_of_le (hbit : 2 ^ 31 ≤ r.toNat) :
    mstepValue r x = BitVec.ofNat 32 (r.toNat * 2 + x.toNat) := by
  rw [mstepValue, if_pos (getLsbD_31_iff_le.2 hbit), shiftLeft_eq_ofNat, Nat.pow_one,
    BitVec.ofNat_add _ x.toNat, BitVec.ofNat_toNat, BitVec.setWidth_eq]

theorem mstepValue_of_lt (hbit : r.toNat < 2 ^ 31) : mstepValue r x = BitVec.ofNat 32 (r.toNat * 2) := by
  rw [mstepValue, if_neg fun h => absurd (getLsbD_31_iff_le.1 h) (by omega), shiftLeft_eq_ofNat, Nat.pow_one]

theorem mstepValue_eq_ite (r x : Word) :
    mstepValue r x =
      if r.toNat ≥ 2 ^ 31 then BitVec.ofNat 32 (r.toNat * 2 + x.toNat) else BitVec.ofNat 32 (r.toNat * 2) := by
  split
  next hbit => exact mstepValue_of_le hbit
  next hbit => exact mstepValue_of_lt (Nat.lt_of_not_le hbit)

/-- Two 16-bit factors have a 32-bit product, so MUL does not wrap. -/
theorem toNat_mul_low_halves (r x : Word) :
    ((r &&& 0xFFFF#32) * (x &&& 0xFFFF#32)).toNat = r.toNat % 2 ^ 16 * (x.toNat % 2 ^ 16) := by
  have hlow (y : Word) : (y &&& 0xFFFF#32).toNat = y.toNat % 2 ^ 16 := Nat.and_two_pow_sub_one_eq_mod _ 16
  have hlt : r.toNat % 2 ^ 16 * (x.toNat % 2 ^ 16) < 2 ^ 16 * 2 ^ 16 :=
    Nat.mul_lt_mul'' (Nat.mod_lt _ (by decide)) (Nat.mod_lt _ (by decide))
  rw [BitVec.toNat_mul, hlow, hlow]
  exact Nat.mod_eq_of_lt hlt

/-- Settles O25: both map `%r0` and RA. -/
theorem multipliesIntoR0 : Obligations.MultipliesIntoR0 := fun _ _ =>
  ⟨rfl, rfl, fun hzero ha =>
    ⟨mapZero_assigns hzero ha rfl (mstepValue_eq_ite _ _),
      _, toNat_mul_low_halves _ _,
      mapZero_assigns (f := fun r x => (r &&& 0xFFFF#32) * (x &&& 0xFFFF#32)) hzero ha rfl rfl⟩⟩

/-! ### Sixteen multiply steps (43_move_extract_multiply.md R213)

Before each step `%r0` holds `u * p + y`: above the weight `p` the bits `u` of the multiplier that are still to be used,
below it the sum `y` so far. A step takes the highest bit of `u`, doubles the weight and the sum, and adds the
multiplicand where that bit was one. As `y + x < p`, the sum never reaches the multiplier's bits. -/

/-- One step; the highest bit of `u` has the weight `q` in it. -/
theorem toNat_mstepValue_of_eq_mul_add {u y p q : Nat} (hpq : q * p = 2 ^ 31) (hu : u < 2 * q) (hy : y + x.toNat < p)
    (hr : r.toNat = u * p + y) :
    (mstepValue r x).toNat = u % q * (2 * p) + (2 * y + u / q * x.toNat) := by
  have hroom {v : Nat} (hv : v < q) : v * p + p ≤ 2 ^ 31 := by
    rw [← Nat.succ_mul, ← hpq]
    exact Nat.mul_le_mul_right p hv
  obtain hlow | ⟨v, rfl⟩ := (Nat.lt_or_ge u q).imp_right Nat.exists_eq_add_of_le
  · have hsum : u * p + p ≤ 2 ^ 31 := hroom hlow
    rw [mstepValue_of_lt (by omega), BitVec.toNat_ofNat, Nat.mod_eq_of_lt hlow, Nat.div_eq_of_lt hlow,
      Nat.mul_left_comm]
    omega
  · have hv : v < q := by omega
    have hsum : v * p + p ≤ 2 ^ 31 := hroom hv
    rw [Nat.add_mul, hpq] at hr
    rw [mstepValue_of_le (by omega), BitVec.toNat_ofNat, Nat.add_mod_left, Nat.mod_eq_of_lt hv,
      Nat.add_div_left v (by omega), Nat.div_eq_of_lt hv, Nat.mul_left_comm]
    omega

/-- `n` steps use up `n` bits of the multiplier. -/
theorem toNat_iterate_mstepValue (n : Nat) {r : Word} {u y p : Nat} (hp : 2 ^ n * p = 2 ^ 32) (hu : u < 2 ^ n)
    (hy : y + x.toNat < p) (hr : r.toNat = u * p + y) :
    ((mstepValue · x)^[n] r).toNat = y * 2 ^ n + u * x.toNat := by
  induction n generalizing r u y p with
  | zero =>
    obtain rfl : u = 0 := Nat.lt_one_iff.1 hu
    simpa using hr
  | succ n ih =>
    rw [Nat.pow_succ'] at hp hu
    have hpq : 2 ^ n * p = 2 ^ 31 := by
      rw [Nat.mul_assoc] at hp
      omega
    have hbit : u / 2 ^ n * x.toNat ≤ x.toNat :=
      mul_le_of_le_one_left (Nat.zero_le _) (Nat.le_of_lt_succ (Nat.div_lt_of_lt_mul (Nat.mul_comm 2 _ ▸ hu)))
    have hsplit : u = 2 ^ n * (u / 2 ^ n) + u % 2 ^ n := (Nat.div_add_mod u _).symm
    have hp' : 2 ^ n * (2 * p) = 2 ^ 32 := by rw [Nat.mul_left_comm, ← Nat.mul_assoc, hp]
    have hu' : u % 2 ^ n < 2 ^ n := Nat.mod_lt u (Nat.two_pow_pos n)
    rw [Function.iterate_succ_apply, ih hp' hu' (by omega) (toNat_mstepValue_of_eq_mul_add hpq hu hy hr)]
    calc (2 * y + u / 2 ^ n * x.toNat) * 2 ^ n + u % 2 ^ n * x.toNat
      _ = y * 2 ^ (n + 1) + (2 ^ n * (u / 2 ^ n) + u % 2 ^ n) * x.toNat := by ring
      _ = y * 2 ^ (n + 1) + u * x.toNat := by rw [← hsplit]

end

/-- The state behind one MSTEP. -/
def afterMstep (a : RegNum) (s : State) : State :=
  (s.setReg zeroReg (mstepValue (s.reg zeroReg) (s.reg a))).advance

theorem exec_mstep (hw : InWindow s) (a : RegNum) : exec (.mstep a) s = .next (afterMstep a s) :=
  State.mapZero_eq_next.2 ⟨(hasReg_of_inWindow hw _).1, (hasReg_of_inWindow hw _).1, rfl⟩

theorem inWindow_afterMstep (hw : InWindow s) (a : RegNum) : InWindow (afterMstep a s) :=
  ⟨hw.1, List.length_set.trans hw.2⟩

theorem reg_zero_afterMstep (hw : InWindow s) (a : RegNum) :
    (afterMstep a s).reg 0#5 = mstepValue (s.reg 0#5) (s.reg a) :=
  State.reg_setReg_self (hasReg_of_inWindow hw 0#5).1 hw.2 _

theorem reg_afterMstep (ha : a ≠ 0#5) : (afterMstep a s).reg a = s.reg a :=
  State.cell_setReg_ne (fun h => ha (regIndex_injective h)) _

/-- MSTEPs in a row iterate the step's value in `%r0` and keep the multiplicand. -/
theorem execAll_replicate_mstep (ha : a ≠ 0#5) (n : Nat) {s : State} (hw : InWindow s) :
    ∃ t, execAll (List.replicate n (.mstep a)) s = .next t ∧
      t.reg 0#5 = (mstepValue · (s.reg a))^[n] (s.reg 0#5) ∧ t.reg a = s.reg a := by
  induction n generalizing s with
  | zero => exact ⟨s, rfl, rfl, rfl⟩
  | succ n ih =>
    obtain ⟨t, hrun, hzero, hkeep⟩ := ih (inWindow_afterMstep hw a)
    rw [reg_afterMstep ha] at hzero hkeep
    rw [reg_zero_afterMstep hw] at hzero
    exact ⟨t, (execAll_cons_of_next (exec_mstep hw a) _).trans hrun, hzero, hkeep⟩

/-- Settles O26: at first every bit of the multiplier is still to be used, at the weight 2^16, and the sum is zero. -/
theorem sixteenMstepsMultiply : Obligations.SixteenMstepsMultiply := by
  intro a s m x hw ha hm hx hmultiplier hmultiplicand
  obtain ⟨t, hrun, hzero, hkeep⟩ := execAll_replicate_mstep ha 16 hw
  have hproduct : ((mstepValue · (s.reg a))^[16] (s.reg 0#5)).toNat = 0 * 2 ^ 16 + m * (s.reg a).toNat :=
    toNat_iterate_mstepValue 16 (y := 0) (p := 2 ^ 16) (by norm_num) hm (by omega) (by rw [hmultiplier, Nat.add_zero])
  refine ⟨t, hrun, ?_, hkeep⟩
  rw [hzero, hproduct, hmultiplicand, Nat.zero_mul, Nat.zero_add]

end Sys2Proof.Proofs
end

section
/-!
PROOFS. The statements of 44_load_store.md: the loads (R221, R226, R228), the word stores (R222, R224, R230), the stores
of one lane (R232 to R242) and the two byte idioms (R243, R245). Each instruction reads its base register and is then
one of the shared operations, at the address and the lane that the statement spells out.
-/

namespace Sys2Proof.Proofs

open Sys2Proof.Machine Sys2Proof.Claims

variable {s : State} {a b : RegNum} {v : Word}

/-! ### Addresses -/

/-- The address of LD, ST and the lane stores: the base plus the signed number of words in K. -/
theorem addrK_eq (s : State) (b : RegNum) : s.addrK b = aligned (s.reg b + wordOffset s.k.toInt) := by
  rw [State.addrK, align_eq, State.offsetK_eq, wordOffset]

/-- The address of LDP and STP: the pointer register plus the signed number of words in K and IMM5. -/
theorem addrP_eq (s : State) (p : BitVec 2) (j : BitVec 5) :
    s.addrP p j = aligned (s.reg (pointerReg s.cfg p) + wordOffset (s.k ++ j).toInt) := by
  rw [State.addrP, align_eq, State.offsetK5_eq, pReg_eq_pointerReg, wordOffset]

/-- Rounding down takes off what the two low bits count. -/
theorem at_aligned_mod_four (x : Word) : at_ (aligned x) (x.toNat % 4) = x := by
  rw [at_, aligned, ← BitVec.ofNat_add, Nat.div_add_mod', BitVec.ofNat_toNat, BitVec.setWidth_eq]

/-- An offset in words does not reach the two low bits. -/
theorem toNat_add_wordOffset_mod_four (x : Word) (n : Int) : (x + wordOffset n).toNat % 4 = x.toNat % 4 := by
  have hoffset : (wordOffset n).toNat % 4 = 0 := by
    rw [wordOffset, BitVec.toNat_ofInt]
    omega
  rw [BitVec.toNat_add]
  omega

theorem addrK_of_k_eq_zero (hk : s.k = 0#11) (b : RegNum) : s.addrK b = aligned (s.reg b) := by
  rw [addrK_eq, hk]
  exact congrArg aligned (BitVec.add_zero _)

theorem toNat_extractLsb'_zero {m : Nat} (x : BitVec m) (n : Nat) : (x.extractLsb' 0 n).toNat = x.toNat % 2 ^ n := by
  rw [toNat_extractLsb'_eq_mod, Nat.pow_zero, Nat.div_one]

/-! ### Loads -/

/-- Settles O28: the base is read, and the word at the address goes to RA. -/
theorem loadsWord : Obligations.LoadsWord := fun _ b s =>
  ⟨rfl, addrK_eq s b, fun ha hb hin => loads ha hin (andThen_readReg hb _)⟩

/-- Settles O29: the same, from another base register. -/
theorem loadsFromPointerAndStack : Obligations.LoadsFromPointerAndStack := by
  refine ⟨fun a p imm5 s => ⟨addrP_eq s p imm5, fun ha hp hin => ?ldp⟩, fun a imm8 s w hw ha hsp hin => ?lds⟩
  case ldp =>
    rw [← pReg_eq_pointerReg] at hp
    exact loads ha hin (andThen_readReg hp _)
  case lds =>
    rw [← addrSp_setWidth_mul] at hw
    subst hw
    exact loads ha hin (andThen_readReg hsp _)

/-! ### Stores of a word -/

/-- Settles O30: the base is read, and RA's word goes to the address. -/
theorem storesWord : Obligations.StoresWord := fun _ b s =>
  ⟨rfl, addrK_eq s b, fun hfit ha hb hin => storeWord hfit ha hin (andThen_readReg hb _)⟩

/-- Settles O31: the same, from another base register. -/
theorem storesToPointerAndStack : Obligations.StoresToPointerAndStack := by
  refine ⟨fun a p imm5 s hfit ha hp hin => ?stp,
    fun a imm8 s => ⟨addrSp_setWidth_mul s imm8 4, fun hfit ha hsp hin => ?sts⟩⟩
  case stp =>
    rw [← pReg_eq_pointerReg] at hp
    exact storeWord hfit ha hin (andThen_readReg hp _)
  case sts => exact storeWord hfit ha hin (andThen_readReg hsp _)

/-! ### Stores of a lane -/

/-- ST8D's lane of the word it addresses is the byte at the base plus the offset: the low two bits of the base are the
lane, and the offset keeps them. -/
theorem at_addrK_lane (s : State) (a : RegNum) :
    at_ (s.addrK a) ((s.reg a).toNat % 4) = s.reg a + wordOffset s.k.toInt := by
  rw [addrK_eq, ← toNat_add_wordOffset_mod_four _ s.k.toInt, at_aligned_mod_four]

theorem st8d_stores (ha : HasReg s a) (hzero : HasReg s 0#5)
    (hin : Admitted s (s.addrK a) ((s.reg a).toNat % 4) ((s.reg a).toNat % 4 + 1)) :
    Stores (.st8d a) s (s.addrK a) ((s.reg a).toNat % 4) ((s.reg a).toNat % 4 + 1) (s.reg 0#5) :=
  storeByte hzero (toNat_extractLsb'_zero _ 2).symm hin (andThen_readReg ha _)

/-- Settles O32: the lane comes from the base register or from the instruction. -/
theorem storesByteLane : Obligations.StoresByteLane := by
  refine ⟨fun a s n => ⟨rfl, addrK_eq s a, ?st8d⟩,
    fun _ _ _ => ⟨rfl, fun ha hzero hin => storeByte hzero rfl hin (andThen_readReg ha _)⟩⟩
  case st8d =>
    rintro rfl
    exact ⟨at_addrK_lane s a, st8d_stores⟩

/-- Settles O33: the half-word lane of ST16D is bit 1 of the base register. -/
theorem storesHalfLane : Obligations.StoresHalfLane := by
  refine ⟨fun a s n => ⟨rfl, addrK_eq s a, ?st16d⟩,
    fun _ _ _ => ⟨rfl, fun hfit ha hzero hin => storeHalf hfit hzero rfl hin (andThen_readReg ha _)⟩⟩
  case st16d =>
    rintro rfl hfit ha hzero hin
    exact storeHalf hfit hzero (toNat_extractLsb'_eq_mod _ 1 1).symm hin (andThen_readReg ha _)

/-- Settles O34: the low bits of the immediate are the lane. -/
theorem storesStackLanes : Obligations.StoresStackLanes := by
  refine ⟨fun imm10 s n => ⟨addrSp_setWidth s imm10, ?sts8s⟩,
    fun imm9 s n => ⟨addrSp_setWidth_mul s imm9 2, ?sts16s⟩⟩
  case sts8s =>
    rintro rfl hsp hzero hin
    exact storeByte hzero (toNat_extractLsb'_zero imm10 2).symm hin (andThen_readReg hsp _)
  case sts16s =>
    rintro rfl hfit hsp hzero hin
    exact storeHalf hfit hzero (toNat_extractLsb'_zero imm9 1).symm hin (andThen_readReg hsp _)

/-! ### The byte idioms

The first instruction of each writes one register and goes on, which clears K: the second works without an offset. -/

/-- The state behind an instruction that writes `v` into a register. -/
def afterAssign (a : RegNum) (v : Word) (s : State) : State := (s.setReg a v).advance

theorem inWindow_afterAssign (hw : InWindow s) : InWindow (afterAssign a v s) :=
  ⟨hw.1, List.length_set.trans hw.2⟩

theorem reg_afterAssign_self (hw : InWindow s) (a : RegNum) (v : Word) : (afterAssign a v s).reg a = v :=
  State.reg_setReg_self (hasReg_of_inWindow hw a).1 hw.2 v

theorem reg_afterAssign_of_ne (h : b ≠ a) : (afterAssign a v s).reg b = s.reg b :=
  State.cell_setReg_ne (fun hindex => h (regIndex_injective hindex)) v

theorem exec_fill8 (hw : InWindow s) (c : RegNum) :
    exec (.fill8 c) s = .next (afterAssign 0#5
      (byteOf (s.reg c) 0 ++ byteOf (s.reg c) 0 ++ byteOf (s.reg c) 0 ++ byteOf (s.reg c) 0) s) :=
  (andThen_readReg (hasReg_of_inWindow hw c) _).trans
    (State.assign_eq_next.2 ⟨(hasReg_of_inWindow hw 0#5).1, rfl⟩)

theorem exec_ld (hw : InWindow s) (hin : Admitted s (s.addrK b) 0 4) (a : RegNum) :
    exec (.ld a b) s = .next (afterAssign a (s.wordAt (s.addrK b)) s) :=
  (andThen_readReg (hasReg_of_inWindow hw b) _).trans
    (State.loadTo_eq_next.2 ⟨admitsAll_of hin (at_zero _).symm rfl, (hasReg_of_inWindow hw a).1, rfl⟩)

theorem execAll_pair {i j : Instr} {t u : State} (hi : exec i s = .next t) (hj : exec j t = .next u) :
    execAll [i, j] s = .next u := by
  rw [execAll_cons_of_next hi, execAll_cons_of_next hj, execAll]

/-- Without an offset, ST8D stores one byte at the byte address that its register holds. -/
theorem st8d_stores_byte (hw : InWindow s) (hk : s.k = 0#11) (hin : s.admits (s.reg a) = true) :
    ∃ t, exec (.st8d a) s = .next t ∧ t.byteAt (s.reg a) = byteOf (s.reg 0#5) ((s.reg a).toNat % 4) ∧
      ∀ x, wrapped s x ≠ wrapped s (s.reg a) → t.byteAt x = s.byteAt x := by
  have hbyte {j : Nat} (hlo : (s.reg a).toNat % 4 ≤ j) (hhi : j < (s.reg a).toNat % 4 + 1) :
      at_ (s.addrK a) j = s.reg a := by
    rw [Nat.le_antisymm (Nat.le_of_lt_succ hhi) hlo, addrK_of_k_eq_zero hk, at_aligned_mod_four]
  obtain ⟨t, hrun, hstored, hkept, -⟩ := st8d_stores (hasReg_of_inWindow hw a) (hasReg_of_inWindow hw 0#5)
    fun j hlo hhi => by rwa [hbyte hlo hhi]
  obtain ⟨hlane, -⟩ := hstored _ le_rfl (Nat.lt_succ_self _)
  rw [hbyte le_rfl (Nat.lt_succ_self _)] at hlane
  exact ⟨t, hrun, hlane, fun x hx => (hkept x fun j hlo hhi => by rwa [hbyte hlo hhi]).1⟩

/-- The first idiom: whichever lane of `%r0` ST8D takes, FILL8 has put the byte there. -/
theorem fill8_st8d_stores_byte (hw : InWindow s) (hb : b ≠ 0#5) (hin : s.admits (s.reg b) = true) (c : RegNum) :
    ∃ t, execAll [.fill8 c, .st8d b] s = .next t ∧ t.byteAt (s.reg b) = byteOf (s.reg c) 0 ∧
      ∀ x, wrapped s x ≠ wrapped s (s.reg b) → t.byteAt x = s.byteAt x := by
  have hst8d (v : Word) := st8d_stores_byte (s := afterAssign 0#5 v s) (a := b) (inWindow_afterAssign hw) rfl
  simp only [reg_afterAssign_of_ne hb, reg_afterAssign_self hw] at hst8d
  obtain ⟨t, hrun, hstored, hkept⟩ := hst8d _ hin
  exact ⟨t, execAll_pair (exec_fill8 hw c) hrun, hstored.trans (byteOf_fill _ (Nat.mod_lt _ (by decide))), hkept⟩

/-- The second idiom: EXT8D takes from the word around a byte address the byte at it. -/
theorem ld_ext8d_reads_byte (hw : InWindow s) (hab : a ≠ b) (hk : s.k = 0#11)
    (hin : Admitted s (aligned (s.reg b)) 0 4) :
    ∃ t, execAll [.ld a b, .ext8d a b] s = .next t ∧ t.reg a = (s.byteAt (s.reg b)).setWidth 32 := by
  rw [← addrK_of_k_eq_zero hk] at hin
  have hw' : InWindow (afterAssign a (s.wordAt (s.addrK b)) s) := inWindow_afterAssign hw
  obtain ⟨hext8d, -⟩ := extractsLanes
  obtain ⟨-, -, hassign⟩ := hext8d a b (afterAssign a (s.wordAt (s.addrK b)) s)
  obtain ⟨⟨t, hrun, hreg, -⟩, -⟩ := hassign (hasReg_of_inWindow hw' a) (hasReg_of_inWindow hw' b)
  refine ⟨t, execAll_pair (exec_ld hw hin a) hrun, ?_⟩
  rw [hreg, reg_afterAssign_self hw, reg_afterAssign_of_ne hab.symm, wordAt_ok s _ _ (Nat.mod_lt _ (by decide)),
    addrK_of_k_eq_zero hk, at_aligned_mod_four]

/-- Settles O36, by the two idioms. -/
theorem byteIdioms : Obligations.ByteIdioms :=
  ⟨fun _ c _ hw hb hin => fill8_st8d_stores_byte hw hb hin c,
    fun _ _ _ hw hab hk hin => ld_ext8d_reads_byte hw hab hk hin⟩

end Sys2Proof.Proofs
end

section
/-!
PROOFS. The statements of 45_control_transfer.md: the delay slot (R252, R253), the branches, jumps and calls (R254 to
R257), and the skips (R260 to R268). A branch is `State.branch`, with or without the link register written first; a skip
is `State.skipIf` on its condition; in a slot both, and every other retirement, end at the pending target.
-/

namespace Sys2Proof.Proofs

open Sys2Proof.Machine Sys2Proof.Claims

variable {s t : State} {i : Instr} {a : RegNum}

/-! ### Branches, jumps and calls -/

/-- The link is the half-word address after the slot. -/
theorem linkValue_eq (s : State) : s.linkValue = halfAddress (wrapped s (s.pc + 4#32)) := by
  rw [State.linkValue, half_eq, address_eq]

/-- A register holds half the byte address that JMP and CALL go to. -/
theorem mul_two_eq_ofNat (x : Word) : x * 2#32 = BitVec.ofNat 32 (x.toNat * 2) := by
  rw [BitVec.ofNat_mul, BitVec.ofNat_toNat, BitVec.setWidth_eq]

theorem exec_br (j : BitVec 11) : exec (.br j) s = .next (s.branch (s.branchTarget j)) := rfl

theorem andThen_writeReg_link (hlink : HasReg s 15#5) (v : Word) (f : State → Result State) :
    andThen (s.writeReg linkReg v) f = f (s.setReg linkReg v) := by
  rw [State.writeReg_of_inFile (i := linkReg) hlink.1, andThen_next]

theorem exec_bsr (hlink : HasReg s 15#5) (j : BitVec 11) :
    exec (.bsr j) s = .next ((s.setReg linkReg s.linkValue).branch (s.branchTarget j)) :=
  andThen_writeReg_link hlink _ _

theorem exec_jmp (ha : HasReg s a) : exec (.jmp a) s = .next (s.branch (s.reg a * 2#32)) := andThen_readReg ha _

/-- The target is twice the RA of the state before the link register is written (log 36). -/
theorem exec_call (ha : HasReg s a) (hlink : HasReg s 15#5) :
    exec (.call a) s = .next ((s.setReg linkReg s.linkValue).branch (s.reg a * 2#32)) :=
  (andThen_readReg ha _).trans (andThen_writeReg_link hlink _ _)

theorem branch_branches {g : Word} (h : exec i s = .next (s.branch g)) :
    ∃ t, exec i s = .next t ∧ BranchesTo s t g ∧ Quiet s t :=
  ⟨_, h, branches_refl s s g rfl rfl rfl, fun _ => rfl, rfl, ⟨rfl, rfl, rfl, rfl, rfl⟩, fun _ => ⟨rfl, rfl⟩⟩

/-- BSR and CALL write the link register and no other cell, and then branch. -/
theorem link_branches {g : Word} (hlink : HasReg s 15#5)
    (h : exec i s = .next ((s.setReg linkReg s.linkValue).branch g)) :
    ∃ t, exec i s = .next t ∧ BranchesTo s t g ∧ t.reg 15#5 = halfAddress (wrapped s (s.pc + 4#32)) ∧
      KeepsOtherCells s t (s.regIndex 15#5) ∧ t.status = s.status ∧ KeepsSystem s t ∧ KeepsMemory s t := by
  refine ⟨_, h, branches_refl _ s g rfl rfl rfl, ?link, ?cells, rfl, ⟨rfl, rfl, rfl, rfl, rfl⟩, fun _ => ⟨rfl, rfl⟩⟩
  case link =>
    rw [← linkValue_eq]
    exact State.reg_setReg_self hlink.1 hlink.2 s.linkValue
  case cells => exact fun _ hn => State.cell_setReg_ne hn s.linkValue

/-- Settles O37: BR branches to its target, BSR with the link written. -/
theorem branchesRelative : Obligations.BranchesRelative := by
  refine ⟨fun j s => ⟨rfl, notInSlot rfl, fun _ => ?br⟩, fun j s => ⟨rfl, notInSlot rfl, fun _ hlink => ?bsr⟩⟩
  case br =>
    rw [← State.branchTarget_eq]
    exact branch_branches (exec_br j)
  case bsr =>
    rw [← State.branchTarget_eq]
    exact link_branches hlink (exec_bsr hlink j)

/-- Settles O38: JMP branches to twice RA. -/
theorem jumpsToRegister : Obligations.JumpsToRegister := by
  refine fun a s => ⟨rfl, notInSlot rfl, fun _ ha => ?_⟩
  rw [← mul_two_eq_ofNat]
  exact branch_branches (exec_jmp ha)

/-- Settles O39: CALL branches to twice the old RA, with the link written. -/
theorem callsRegister : Obligations.CallsRegister := by
  refine fun a s => ⟨notInSlot rfl, fun _ ha hlink => ?_⟩
  rw [← mul_two_eq_ofNat]
  exact link_branches hlink (exec_call ha hlink)

/-! ### The delay slot -/

theorem slotForbidden_iff (i : Instr) : slotForbidden i = true ↔
    (∃ imm11, i = .br imm11 ∨ i = .bsr imm11 ∨ i = .pfx imm11) ∨
      (∃ a, i = .call a ∨ i = .jmp a ∨ i = .skprz a ∨ i = .skprnz a ∨ i = .tret a) ∨
      (∃ a imm5, i = .skp0 a imm5 ∨ i = .skp1 a imm5) ∨ (∃ imm4, i = .skps imm4) ∨ ∃ imm6, i = .trap imm6 := by
  constructor
  · intro h
    cases i with
    | br j | bsr j | pfx j => exact .inl ⟨j, by simp⟩
    | call a | jmp a | skprz a | skprnz a | tret a => exact .inr (.inl ⟨a, by simp⟩)
    | skp0 a j | skp1 a j => exact .inr (.inr (.inl ⟨a, j, by simp⟩))
    | skps code => exact .inr (.inr (.inr (.inl ⟨code, rfl⟩)))
    | trap n => exact .inr (.inr (.inr (.inr ⟨n, rfl⟩)))
    | _ => exact absurd h Bool.false_ne_true
  · rintro (⟨j, rfl | rfl | rfl⟩ | ⟨a, rfl | rfl | rfl | rfl | rfl⟩ | ⟨a, j, rfl | rfl⟩ | ⟨code, rfl⟩ | ⟨n, rfl⟩) <;> rfl

/-- Whatever next pc and target an instruction has of its own, in a slot the pending target is taken. -/
theorem retire_of_pending {target : Word} (hpending : s.delay = some target) (p : Word) (d : Option Word) :
    (s.retire p d).pc = target ∧ (s.retire p d).delay = none := by
  simp [hpending]

/-- Every effect but a trap entry ends in a retirement that sees the pending target; and what enters a trap is forbidden
in a slot (TRAP), or enters none there (SAVE and RESTORE). -/
theorem pending_taken_of_effect {target : Word} (hpending : s.delay = some target) (hallowed : slotForbidden i = false)
    (h : Effect i s t) : t.pc = target ∧ t.delay = none := by
  cases h with
  | assign | arithmetic | compare | logic | rotate | goOn | branch | link | skip | loadK | tret | writeStatus
  | writeIstatus | writeLimits | save | restore => exact retire_of_pending hpending _ _
  | store w l => exact retire_of_pending ((State.putBytes_delay ..).trans hpending) _ _
  | trap u n r x w _ _ _ _ _ hd =>
    rcases hd with hnone | hforbidden
    · exact absurd (hnone.symm.trans hpending) (Option.some_ne_none target).symm
    · exact absurd (hallowed.symm.trans hforbidden) Bool.false_ne_true
  | underflow v r x _ _ _ _ hnone => exact absurd (hnone.symm.trans hpending) (Option.some_ne_none target).symm

/-- Settles O40: the forbidden instructions by name, and the effects of the others. -/
theorem slotGoesToTarget : Obligations.SlotGoesToTarget :=
  ⟨slotForbidden_iff, fun _ _ _ _ hpending hallowed h => pending_taken_of_effect hpending hallowed (exec_effect h)⟩

/-! ### Skips -/

/-- Settles O41: each reads its register and is `State.skipIf` on its test. -/
theorem skipsOnRegister : Obligations.SkipsOnRegister := by
  refine fun a j s => ⟨⟨notInSlot rfl, notInSlot rfl, notInSlot rfl, notInSlot rfl⟩,
    fun ha => ⟨?skp0, ?skp1, ?skprz, ?skprnz⟩⟩
  case skp0 => exact skipsWhen (iff_of_eq (Bool.not_eq_true' _)).symm (andThen_readReg ha _)
  case skp1 => exact skipsWhen Iff.rfl (andThen_readReg ha _)
  case skprz => exact skipsWhen beq_iff_eq.symm (andThen_readReg ha _)
  case skprnz => exact skipsWhen bne_iff_ne.symm (andThen_readReg ha _)

theorem means_iff (name : Condition) (st : Status) : means name st ↔ conditionHolds st name = true := by
  cases name with
  | c | z | mi | v => exact Iff.rfl
  | nc | nz | pl | nv => exact (iff_of_eq (Bool.not_eq_true' _)).symm
  | ge => exact beq_iff_eq.symm
  | lt => exact bne_iff_ne.symm
  | le | gt | ls | hi => simp [means, conditionHolds]

/-- A code that names a condition skips where the condition holds. -/
theorem skps_skipsWhen {code : BitVec 4} {name : Condition} (hname : s.cfg.cc.getD code.toNat none = some name) :
    SkipsWhen (.skps code) s (means name s.status) :=
  skipsWhen (means_iff name s.status) (by rw [exec, execSkps, condition, hname, Option.map_some])

theorem exec_skps_of_unnamed {code : BitVec 4} (hname : s.cfg.cc.getD code.toNat none = none) :
    exec (.skps code) s = .fault .badCondition := by
  rw [exec, execSkps, condition, hname, Option.map_none]

/-- Settles O42: the names of the default numbering are read off, code by code. -/
theorem skipsOnCondition : Obligations.SkipsOnCondition := by
  refine ⟨fun _ _ => ⟨notInSlot rfl, fun _ => skps_skipsWhen, exec_skps_of_unnamed⟩, fun s hcc => ?numbered⟩
  have named (code : BitVec 4) {name : Condition} (h : Config.default.cc.getD code.toNat none = some name) :
      SkipsWhen (.skps code) s (means name s.status) := skps_skipsWhen (by rwa [hcc])
  have unnamed (code : BitVec 4) (h : Config.default.cc.getD code.toNat none = none) :
      exec (.skps code) s = .fault .badCondition := exec_skps_of_unnamed (by rwa [hcc])
  exact ⟨named 0#4 rfl, named 1#4 rfl, named 2#4 rfl, named 3#4 rfl, named 4#4 rfl, named 5#4 rfl, named 6#4 rfl,
    named 7#4 rfl, named 8#4 rfl, named 9#4 rfl, named 10#4 rfl, named 11#4 rfl, named 12#4 rfl, named 13#4 rfl,
    unnamed 14#4 rfl, unnamed 15#4 rfl⟩

end Sys2Proof.Proofs
end

section
/-!
PROOFS. The statements of 46_window_trap_control.md: SAVE and RESTORE away from the limits (R290, R291), TRAP and TRET
(R292, R293), WRCTL and RDCTL (R294, R295). Each meaning is first brought to the one state it answers; what is new in
that state and what is as before are then read off the shared operations.
-/

namespace Sys2Proof.Proofs

open Sys2Proof.Machine Sys2Proof.Claims

variable {s t : State} {a : RegNum}

/-! ### The window moved -/

/-- The state with CWP replaced and nothing else: what SAVE and RESTORE go on from. -/
def inWindowOf (s : State) (w : BitVec 5) : State := s.setStatus (s.status.withCwp w)

theorem reg_inWindowOf (s : State) (w : BitVec 5) (r : RegNum) :
    (inWindowOf s w).reg r = s.cell (cellOf w.toNat r) := rfl

theorem badWindow_of_lt_nwin {w : BitVec 5} (hw : w.toNat < s.cfg.nwin) : s.badWindow w = false :=
  decide_eq_false (Nat.not_le.2 hw)

/-- The window below a legal one is legal. -/
theorem inWindow_below (hw : InWindow s) (h0 : s.status.cwp ≠ 0#5) : InWindow (inWindowOf s (s.status.cwp - 1#5)) :=
  ⟨cwp_pred_lt_nwin_of_lt h0 hw.1, hw.2⟩

/-- With `%sp` and `%fp` an out and in pair, the `%fp` of the window below is the `%sp` of this one (decision D4). -/
theorem cellOf_below_fpReg (hpair : StackPair s.cfg) (h0 : s.status.cwp ≠ 0#5) :
    cellOf (s.status.cwp - 1#5).toNat s.cfg.fpReg = s.regIndex s.cfg.spReg := by
  obtain ⟨hlo, hhi, hfp⟩ := hpair
  obtain ⟨hpred, hpos⟩ := cwp_pred h0
  have hfpNat : s.cfg.fpReg.toNat = s.cfg.spReg.toNat + 16 := by bv_omega
  rw [cellOf, if_neg (by omega), sw_regIndex _ _ hlo, hpred]
  omega

/-! ### SAVE and RESTORE -/

/-- The state that SAVE leaves away from LO_LIMIT: `%sp` of the window below is four times IMM8 below its `%fp`. -/
def afterSave (imm8 : BitVec 8) (s : State) : State :=
  ((inWindowOf s (s.status.cwp - 1#5)).setReg s.cfg.spReg
    (s.cell (cellOf (s.status.cwp.toNat - 1) s.cfg.fpReg) - BitVec.ofNat 32 (imm8.toNat * 4))).advance

theorem exec_save (hw : InWindow s) (h0 : s.status.cwp ≠ 0#5) (hlimit : s.status.cwp ≠ s.loLimit) (imm8 : BitVec 8) :
    exec (.save imm8) s = .next (afterSave imm8 s) := by
  have hreg (r : RegNum) := (hasReg_of_inWindow (inWindow_below hw h0) r).1
  have hfp : (inWindowOf s (s.status.cwp - 1#5)).reg s.cfg.fpReg =
      s.cell (cellOf (s.status.cwp.toNat - 1) s.cfg.fpReg) := by
    rw [reg_inWindowOf, (cwp_pred h0).1]
  rw [exec, execSave, if_neg h0, ← inWindowOf, andThen_readReg_of_inFile (hreg _), State.writeReg_of_inFile (hreg _),
    andThen_next, if_neg hlimit, afterSave, hfp, BitVec.ofNat_mul, BitVec.ofNat_toNat]

/-- In the window that SAVE moved to, `%sp` is the new value. -/
theorem reg_spReg_afterSave (hw : InWindow s) (h0 : s.status.cwp ≠ 0#5) (imm8 : BitVec 8) :
    (afterSave imm8 s).reg s.cfg.spReg =
      s.cell (cellOf (s.status.cwp.toNat - 1) s.cfg.fpReg) - BitVec.ofNat 32 (imm8.toNat * 4) := by
  obtain ⟨hin, hlen⟩ := hasReg_of_inWindow (inWindow_below hw h0) s.cfg.spReg
  exact State.reg_setReg_self hin hlen _

theorem keepsOtherCells_afterSave (h0 : s.status.cwp ≠ 0#5) (imm8 : BitVec 8) :
    KeepsOtherCells s (afterSave imm8 s) (cellOf (s.status.cwp.toNat - 1) s.cfg.spReg) := by
  rw [← (cwp_pred h0).1]
  exact fun n hn => State.cell_setReg_ne (s := inWindowOf s (s.status.cwp - 1#5)) hn _

/-- The `%fp` of the window that SAVE moved to is the `%sp` it came from: another cell than the new `%sp`. -/
theorem reg_fpReg_afterSave (hpair : StackPair s.cfg) (h0 : s.status.cwp ≠ 0#5) (imm8 : BitVec 8) :
    (afterSave imm8 s).reg s.cfg.fpReg = s.reg s.cfg.spReg := by
  have hne : s.cfg.fpReg ≠ s.cfg.spReg := by
    obtain ⟨-, -, hfp⟩ := hpair
    bv_omega
  have hkept : (afterSave imm8 s).reg s.cfg.fpReg = s.cell (cellOf (s.status.cwp - 1#5).toNat s.cfg.fpReg) :=
    State.cell_setReg_ne (s := inWindowOf s (s.status.cwp - 1#5)) (fun h => hne (regIndex_injective h)) _
  rw [hkept, cellOf_below_fpReg hpair h0, State.reg]

theorem exec_restore (hw : s.status.cwp.toNat + 1 < s.cfg.nwin) (hlimit : s.status.cwp ≠ s.hiLimit) :
    exec .restore s = .next (inWindowOf s (s.status.cwp + 1#5)).advance := by
  rw [exec, execRestore, if_neg fun h => absurd h.1 (Nat.not_le.2 hw), if_neg hlimit, inWindowOf]

/-- Settles O43: the states that SAVE and RESTORE leave, field by field. -/
theorem movesWindow : Obligations.MovesWindow := by
  refine ⟨fun imm8 s hw h0 hlimit => ?save, fun s hw _ hlimit => ?restore⟩
  case save =>
    refine ⟨_, exec_save hw h0 hlimit imm8, rfl, reg_spReg_afterSave hw h0 imm8, fun hpair => ⟨?sp, ?fp⟩,
      keepsOtherCells_afterSave h0 imm8, ⟨rfl, rfl, rfl, rfl, rfl⟩, fun _ => ⟨rfl, rfl⟩, advances_refl _ _ rfl rfl rfl⟩
    case sp => rw [reg_spReg_afterSave hw h0, ← (cwp_pred h0).1, cellOf_below_fpReg hpair h0, State.reg]
    case fp => exact reg_fpReg_afterSave hpair h0 imm8
  case restore =>
    exact ⟨_, exec_restore hw hlimit, rfl, fun _ => rfl, ⟨rfl, rfl, rfl, rfl, rfl⟩, fun _ => ⟨rfl, rfl⟩,
      advances_refl _ _ rfl rfl rfl⟩

/-! ### TRAP and TRET -/

theorem exec_trap (h0 : s.status.cwp ≠ 0#5) (n : BitVec 6) :
    exec (.trap n) s = s.enterTrapAt n (s.pc + 2#32) (s.status.cwp - 1#5) := if_neg h0

theorem exec_tret (ha : s.inFile a = true) (hw : s.istatus.cwp.toNat < s.cfg.nwin) :
    exec (.tret a) s = .next ((s.setStatus s.istatus).retire (s.reg a * 2#32) none) :=
  State.returnFromTrap_eq_next.2 ⟨ha, badWindow_of_lt_nwin hw, rfl⟩

/-- Settles O46: TRAP is the trap entry into the window below, from the state itself. -/
theorem trapEnters : Obligations.TrapEnters := by
  refine fun n s => ⟨notInSlot rfl, fun h0 henter => ?_⟩
  rw [← (cwp_pred h0).1] at henter ⊢
  rw [exec_trap h0]
  exact atHandler_of rfl rfl rfl rfl rfl rfl rfl henter

/-- Settles O47: TRET is a retirement at twice RA, with ISTATUS as STATUS. -/
theorem tretReturns : Obligations.TretReturns := by
  refine fun a s => ⟨notInSlot rfl, fun hdelay ha hw => ⟨_, exec_tret ha.1 hw, rfl, ?pc, ?delay, rfl, rfl, rfl,
    fun _ => rfl, ⟨rfl, rfl, rfl, rfl, rfl⟩, fun _ => ⟨rfl, rfl⟩⟩⟩
  case pc =>
    rw [State.retire_pc, State.setStatus_delay, hdelay, Option.getD_none, State.setStatus_address, mul_two_eq_ofNat,
      address_eq]
  case delay => simp [hdelay]

/-! ### TRAP and back -/

/-- The state at the handler of a TRAP: STATUS saved, the link in `%o7` of the window below, the pc from the vector. -/
def afterTrap (n : BitVec 6) (s : State) : State :=
  ((s.trapped n (s.status.cwp - 1#5)).setReg linkReg (s.address (s.pc + 2#32) >>> 1)).atHandler
    (s.wordAt (s.vectorAddr n))

/-- A TRAP that completes had a window below its own, with its `%o7` in the file. -/
theorem exec_trap_eq_next {n : BitVec 6} (h : exec (.trap n) s = .next t) :
    s.status.cwp ≠ 0#5 ∧ (s.trapped n (s.status.cwp - 1#5)).inFile linkReg = true ∧ t = afterTrap n s := by
  obtain ⟨h0, henter⟩ := State.raiseTrap_eq_next.1 h
  obtain ⟨hlink, -, ht⟩ := State.enterTrapAt_eq_next.1 henter
  exact ⟨h0, hlink, ht⟩

/-- The `%o7` of a window of the file is the cell that a trap entry into it writes. -/
theorem regIndex_linkReg_trapped (n : BitVec 6) (w : BitVec 5) :
    (s.trapped n w).regIndex linkReg = 16 * w.toNat + 15 := sw_regIndex _ _ (by decide)

/-- Half of an even address, doubled, is the address. -/
theorem ushiftRight_one_mul_two {x : Word} (heven : x.getLsbD 0 = false) : x >>> 1 * 2#32 = x := by
  have hmod : ¬x.toNat / 2 ^ 0 % 2 = 1 := mt (getLsbD_iff_mod x 0).2 (Bool.eq_false_iff.1 heven)
  apply BitVec.eq_of_toNat_eq
  rw [BitVec.toNat_mul, BitVec.toNat_ushiftRight, Nat.shiftRight_eq_div_pow, BitVec.toNat_ofNat]
  omega

/-- In the handler's window twice `%o7` is the address behind the TRAP. -/
theorem double_link_afterTrap {n : BitVec 6} (hlink : (s.trapped n (s.status.cwp - 1#5)).inFile linkReg = true)
    (hlen : s.regs.length = s.cfg.nregs) (heven : s.pc.getLsbD 0 = false) :
    (afterTrap n s).reg linkReg * 2#32 = s.address (s.pc + 2#32) := by
  have hreg : (afterTrap n s).reg linkReg = s.address (s.pc + 2#32) >>> 1 :=
    State.reg_setReg_self (s := s.trapped n (s.status.cwp - 1#5)) hlink hlen _
  rw [hreg, ushiftRight_one_mul_two (s.address_even ((getLsbD_zero_add rfl).trans heven))]

theorem keepsOtherCells_afterTrap (n : BitVec 6) (h0 : s.status.cwp ≠ 0#5) :
    KeepsOtherCells s (afterTrap n s) (16 * (s.status.cwp.toNat - 1) + 15) := by
  rw [← (cwp_pred h0).1, ← regIndex_linkReg_trapped (s := s) n]
  exact fun _ hm => State.cell_setReg_ne (s := s.trapped n (s.status.cwp - 1#5)) hm _

/-- Settles O48: TRET %o7 from the state at the handler, where ISTATUS is the old STATUS. -/
theorem trapTretRoundTrip : Obligations.TrapTretRoundTrip := by
  intro n s t hw heven htrap
  obtain ⟨h0, hlink, rfl⟩ := exec_trap_eq_next htrap
  refine ⟨_, exec_tret (s := afterTrap n s) hlink hw.1, ?pc, rfl, keepsOtherCells_afterTrap n h0, fun _ => ⟨rfl, rfl⟩⟩
  case pc =>
    calc (afterTrap n s).address ((afterTrap n s).reg linkReg * 2#32)
        = (afterTrap n s).address (s.address (s.pc + 2#32)) := by rw [double_link_afterTrap hlink hw.2 heven]
      _ = s.address (s.pc + 2#32) := State.address_address s _
      _ = wrapped s (s.pc + 2#32) := address_eq s _

/-! ### WRCTL -/

theorem exec_wrctl_status (ha : HasReg s a) (hk : s.k = 0#11)
    (hw : (fieldsOf s.cfg.layout (s.reg a)).cwp.toNat < s.cfg.nwin) :
    exec (.wrctl a) s = .next (s.setStatus (fieldsOf s.cfg.layout (s.reg a))).advance.markHazard := by
  rw [exec, execWrctl, andThen_readReg ha, if_pos hk, unpack_eq, badWindow_of_lt_nwin hw, if_neg Bool.false_ne_true]

theorem exec_wrctl_istatus (ha : HasReg s a) (hstatus : s.k ≠ 0#11) (hk : s.k = s.cfg.ctlIstatus) :
    exec (.wrctl a) s = .next (s.setIstatus (fieldsOf s.cfg.layout (s.reg a))).advance := by
  rw [exec, execWrctl, andThen_readReg ha, if_neg hstatus, if_pos hk, unpack_eq]

theorem exec_wrctl_limits (ha : HasReg s a) (hstatus : s.k ≠ 0#11) (histatus : s.k ≠ s.cfg.ctlIstatus)
    (hk : s.k = s.cfg.ctlWvalid) :
    exec (.wrctl a) s = .next (s.setLimits ((s.reg a).extractLsb' 5 5) ((s.reg a).extractLsb' 0 5)).advance := by
  rw [exec, execWrctl, andThen_readReg ha, if_neg hstatus, if_neg histatus, if_pos hk]

/-- Settles O49: K selects the register that is replaced. -/
theorem writesControl : Obligations.WritesControl := by
  refine ⟨fun a s ha => ⟨fun hk hw => ?status, fun hstatus hk => ?istatus, fun hstatus histatus hk => ?limits⟩,
    statusNumber_fields⟩
  case status =>
    refine ⟨_, exec_wrctl_status ha hk hw, rfl, rfl, ?pc, State.advance_delay _, rfl, rfl, fun _ => rfl,
      ⟨rfl, rfl, rfl, rfl, rfl⟩, fun _ => ⟨rfl, rfl⟩⟩
    case pc =>
      rw [← address_eq]
      rfl
  case istatus =>
    exact ⟨_, exec_wrctl_istatus ha hstatus hk, rfl, rfl, rfl, rfl, rfl, rfl, fun _ => rfl, fun _ => ⟨rfl, rfl⟩,
      advances_refl _ _ rfl rfl rfl⟩
  case limits =>
    exact ⟨_, exec_wrctl_limits ha hstatus histatus hk, toNat_extractLsb'_eq_mod _ 5 5, toNat_extractLsb'_zero _ 5, rfl,
      rfl, rfl, rfl, fun _ => rfl, fun _ => ⟨rfl, rfl⟩, advances_refl _ _ rfl rfl rfl⟩

/-! ### RDCTL -/

theorem exec_rdctl_status (hk : s.k = 0#11) : exec (.rdctl a) s = s.assign a (s.status.pack s.cfg.layout) := if_pos hk

theorem exec_rdctl_istatus (hstatus : s.k ≠ 0#11) (hk : s.k = s.cfg.ctlIstatus) :
    exec (.rdctl a) s = s.assign a (s.istatus.pack s.cfg.layout) := by
  rw [exec, execRdctl, if_neg hstatus, if_pos hk]

theorem exec_rdctl_limits (hstatus : s.k ≠ 0#11) (histatus : s.k ≠ s.cfg.ctlIstatus) (hk : s.k = s.cfg.ctlWvalid) :
    exec (.rdctl a) s = s.assign a s.wvalid := by
  rw [exec, execRdctl, if_neg hstatus, if_neg histatus, if_pos hk]

theorem wvalid_eq_ofNat (s : State) : s.wvalid = BitVec.ofNat 32 (s.hiLimit.toNat * 32 + s.loLimit.toNat) := by
  rw [State.wvalid, ← BitVec.ofNat_toNat, toNat_append_eq_add]
  rfl

/-- In the default layout a packed STATUS is the number that the rule writes out. -/
theorem toNat_pack_of_default {l : StatusLayout} (hl : l = Config.default.layout) (st : Status) :
    (st.pack l).toNat = statusNumber st := by
  rw [hl, pack_number]

/-- Settles O50: K selects the register whose packed value is assigned to RA. -/
theorem readsControl : Obligations.ReadsControl := by
  refine fun a s ha => ⟨fun hk => ?status, fun hstatus hk => ?istatus, fun hstatus histatus hk => ?limits⟩
  case status =>
    exact ⟨_, assign_assigns ha (exec_rdctl_status hk), fun hl => readsAs_pack hl _, fun hl => toNat_pack_of_default hl _⟩
  case istatus =>
    exact ⟨_, assign_assigns ha (exec_rdctl_istatus hstatus hk), fun hl => readsAs_pack hl _,
      fun hl => toNat_pack_of_default hl _⟩
  case limits =>
    rw [← wvalid_eq_ofNat]
    exact assign_assigns ha (exec_rdctl_limits hstatus histatus hk)

end Sys2Proof.Proofs
end

section
/-!
PROOFS. The statement of 47_custom.md: USR0 to USR4 (R321 to R327). All five are the one shared operation
`State.custom`, which goes by the kind of the configured block.
-/

namespace Sys2Proof.Proofs

open Sys2Proof.Machine Sys2Proof.Claims

variable {s : State} {a b : RegNum} {logic : CustomLogic} {op : Word → Word → Word}

theorem custom_assigns {i : Instr} (ha : HasReg s a) (hb : HasReg s b) (h : exec i s = s.custom logic op a b)
    (hpure : logic = .pure) : Assigns i s a (op (s.reg a) (s.reg b)) s.status :=
  assigns_setReg ha (h.trans (State.custom_eq_next.2 ⟨hpure, ha.1, hb.1, rfl⟩))

theorem custom_of_absent (h : logic = .absent) : s.custom logic op a b = .fault .customAbsent := by
  rw [h, State.custom]

theorem custom_of_impure (h : logic = .impure) : s.custom logic op a b = .refused .customNotPure := by
  rw [h, State.custom]

/-- Settles O52: USR0 combines RA with RB, the others RA with `%r0`, and the kind of the block decides. -/
theorem customInstructions : Obligations.CustomInstructions := by
  refine ⟨fun a b s ha hb => ?pureRB, fun a s ha hzero => ?pureR0, fun a b s => ?noFunction⟩
  case pureRB => exact custom_assigns ha hb rfl
  case pureR0 =>
    exact ⟨custom_assigns ha hzero rfl, custom_assigns ha hzero rfl, custom_assigns ha hzero rfl,
      custom_assigns ha hzero rfl⟩
  case noFunction =>
    exact ⟨custom_of_absent, custom_of_absent, custom_of_absent, custom_of_absent, custom_of_absent,
      custom_of_impure, custom_of_impure, custom_of_impure, custom_of_impure, custom_of_impure⟩

end Sys2Proof.Proofs
end

section
/-!
PROOFS. The statements of 60_exceptions.md: the interrupt hook (R340), and the window traps of SAVE and RESTORE (R334,
R335). Each is brought to the one trap entry `State.enterTrapAt` (R332), of which `atHandler_of` says what it leaves.
-/

namespace Sys2Proof.Proofs

open Sys2Proof.Machine Sys2Proof.Claims

variable {s t : State}

/-! ### The interrupt hook -/

theorem step_of_accepted {n : BitVec 6} (h : s.accepted = some n) : step s = s.raiseTrap n s.pc := by
  rw [step, h]

/-- A request that does not meet the conditions of the hook is not accepted. -/
theorem accepted_eq_none {n : BitVec 6} (hrequest : s.request = some n)
    (h : ¬(s.delay = none ∧ s.pfx = false ∧ s.wrctlHazard = false ∧ s.status.ie = true ∧
      n.toNat < s.status.ipri.toNat)) : s.accepted = none := by
  refine Option.eq_none_iff_forall_ne_some.2 fun m hm => ?_
  obtain ⟨hsame, hconditions⟩ := State.accepted_eq_some.1 hm
  obtain rfl : n = m := Option.some.inj (hrequest.symm.trans hsame)
  exact h hconditions

theorem accepted_of_request_eq_none (h : s.request = none) : s.accepted = none := by
  rw [State.accepted, h]

/-- Without an accepted request a step is a fetch, the checks and the instruction, and none of them looks at the
interrupt input. -/
theorem step_withRequest {q : Option (BitVec 6)} (hs : s.accepted = none) (hq : (s.withRequest q).accepted = none) :
    step (s.withRequest q) = Result.withRequest (step s) q := by
  have hfetch : (s.withRequest q).fetchInstr = s.fetchInstr := by
    rw [State.fetchInstr, State.fetch16_congr (s := s) (t := s.withRequest q) rfl rfl rfl]
    rfl
  simp only [step, hs, hq, hfetch]
  refine withRequest_andThen fun i => ?_
  rw [show (s.withRequest q).placeFault i = s.placeFault i from rfl]
  cases s.placeFault i with
  | some r => rfl
  | none => exact exec_withRequest i

/-- A request that is not accepted: the step is that of the state without it, in which it then stands again. -/
theorem step_of_not_accepted {q : Option (BitVec 6)} (hrequest : s.request = q) (h : s.accepted = none) :
    step s = Result.withRequest (step { s with request := none }) q := by
  subst hrequest
  exact step_withRequest (s := { s with request := none }) (accepted_of_request_eq_none rfl) h

/-- Settles O7: an accepted request is a trap entry one window down; any other passes through the step. -/
theorem requestEntersTrap : Obligations.RequestEntersTrap := by
  refine fun s n hrequest => ⟨fun hconditions => ⟨fun h0 henter => ?enters, fun h0 => ?windowZero⟩,
    fun hconditions => ?ignored⟩
  case enters =>
    rw [← (cwp_pred h0).1] at henter ⊢
    rw [step_of_accepted (State.accepted_eq_some.2 ⟨hrequest, hconditions⟩), State.raiseTrap, if_neg h0]
    exact atHandler_of rfl rfl rfl rfl rfl rfl rfl henter
  case windowZero =>
    rw [step_of_accepted (State.accepted_eq_some.2 ⟨hrequest, hconditions⟩), State.raiseTrap, if_pos h0]
  case ignored =>
    rw [step_of_not_accepted hrequest (accepted_eq_none hrequest hconditions)]
    exact ⟨fun t h => by rw [h]; rfl, fun r h => by rw [h]; rfl, fun r h => by rw [h]; rfl⟩

/-! ### SAVE at LO_LIMIT -/

/-- The state from which SAVE enters its trap: CWP one lower, and the `%sp` of that window written. -/
def savedBelow (imm8 : BitVec 8) (s : State) : State :=
  (inWindowOf s (s.status.cwp - 1#5)).setReg s.cfg.spReg
    (s.cell (cellOf (s.status.cwp.toNat - 1) s.cfg.fpReg) - BitVec.ofNat 32 (imm8.toNat * 4))

/-- A SAVE that does not trap goes on from the same state. -/
theorem advance_savedBelow (imm8 : BitVec 8) (s : State) : (savedBelow imm8 s).advance = afterSave imm8 s := rfl

theorem exec_save_at_loLimit (hw : InWindow s) (h0 : s.status.cwp ≠ 0#5) (hlimit : s.status.cwp = s.loLimit)
    (imm8 : BitVec 8) :
    exec (.save imm8) s = if s.delay.isSome then .fault .trapInDelaySlot
      else (savedBelow imm8 s).enterTrapAt 1#6 (s.pc + 2#32) (s.status.cwp - 1#5) := by
  have hreg (r : RegNum) := (hasReg_of_inWindow (inWindow_below hw h0) r).1
  have hfp : (inWindowOf s (s.status.cwp - 1#5)).reg s.cfg.fpReg =
      s.cell (cellOf (s.status.cwp.toNat - 1) s.cfg.fpReg) := by
    rw [reg_inWindowOf, (cwp_pred h0).1]
  rw [exec, execSave, if_neg h0, ← inWindowOf, andThen_readReg_of_inFile (hreg _), State.writeReg_of_inFile (hreg _),
    andThen_next, if_pos hlimit, hfp, savedBelow, BitVec.ofNat_mul, BitVec.ofNat_toNat]
  rfl

/-- With `%sp` and `%fp` a pair, the new `%sp` is four times IMM8 below the old one (decision D4). -/
theorem reg_spReg_savedBelow (hw : InWindow s) (h0 : s.status.cwp ≠ 0#5) (hpair : StackPair s.cfg) (imm8 : BitVec 8) :
    (savedBelow imm8 s).reg s.cfg.spReg = s.reg s.cfg.spReg - BitVec.ofNat 32 (imm8.toNat * 4) := by
  have hsp := reg_spReg_afterSave hw h0 imm8
  rw [← (cwp_pred h0).1, cellOf_below_fpReg hpair h0, ← State.reg] at hsp
  exact hsp

/-- A trap entry in the window the machine is in keeps its out registers other than `%o7`. -/
theorem reg_eq_of_link_written {r : RegNum} (hcwp : t.status.cwp = s.status.cwp)
    (hcells : ∀ m, m ≠ 16 * s.status.cwp.toNat + 15 → t.cell m = s.cell m) (hlo : 8 ≤ r.toNat) (hhi : r.toNat < 15) :
    t.reg r = s.reg r := by
  rw [State.reg, State.regIndex_congr hcwp, State.reg]
  refine hcells _ ?_
  rw [sw_regIndex _ _ hlo]
  omega

/-- Settles O44: SAVE at LO_LIMIT is a trap entry from the window it has moved to, where it has written `%sp`. -/
theorem underflowTraps : Obligations.UnderflowTraps := by
  refine ⟨fun imm8 s hw h0 hlimit => ⟨fun hdelay henter => ?traps, fun hdelay => ?saveInSlot⟩,
    fun s hlimit hdelay => ?restoreInSlot⟩
  case traps =>
    rw [exec_save_at_loLimit hw h0 hlimit, hdelay, Option.isSome_none, if_neg Bool.false_ne_true]
    rw [← (cwp_pred h0).1] at henter
    obtain ⟨t, hentry, hhandler, hcells⟩ :=
      atHandler_of (s := s) (u := savedBelow imm8 s) (ret := s.pc + 2#32) rfl rfl rfl rfl rfl rfl
        (by simp [savedBelow, inWindowOf]) henter
    refine ⟨t, hentry, hhandler, fun hpair => ?sp, fun m hsp hlink => ?frame⟩
    case sp =>
      rw [← reg_spReg_savedBelow hw h0 hpair imm8]
      obtain ⟨-, hstatus, -⟩ := hhandler
      have hcwp : t.status.cwp = (savedBelow imm8 s).status.cwp := by rw [hstatus]; rfl
      obtain ⟨hlo, hhi, -⟩ := hpair
      exact reg_eq_of_link_written hcwp hcells hlo hhi
    case frame =>
      rw [← (cwp_pred h0).1] at hlink
      rw [hcells m hlink]
      exact keepsOtherCells_afterSave h0 imm8 m hsp
  case saveInSlot =>
    rw [exec_save_at_loLimit hw h0 hlimit, if_pos (Option.isSome_iff_ne_none.2 hdelay)]
  case restoreInSlot =>
    rw [exec, execRestore, if_neg fun h => h.2 hlimit, if_pos hlimit, if_pos (Option.isSome_iff_ne_none.2 hdelay)]

/-! ### RESTORE at HI_LIMIT -/

/-- The window above one of a file of at most 31 is not window 0: the entry can decrement CWP again. -/
theorem cwp_succ_ne_zero {w : BitVec 5} {n : Nat} (hw : w.toNat < n) (hn : n ≤ 31) : w + 1#5 ≠ 0#5 := by
  have hsucc := cwp_succ hw hn
  intro h
  simp [h] at hsucc

theorem exec_restore_at_hiLimit (hw : s.hiLimit.toNat < s.cfg.nwin) (hnwin : s.cfg.nwin ≤ 31)
    (hlimit : s.status.cwp = s.hiLimit) (hdelay : s.delay = none) :
    exec .restore s = (inWindowOf s (s.hiLimit + 1#5)).enterTrapAt 2#6 (s.pc + 2#32) s.hiLimit := by
  have habove : (inWindowOf s (s.hiLimit + 1#5)).status.cwp ≠ 0#5 := cwp_succ_ne_zero hw hnwin
  have hback : (inWindowOf s (s.hiLimit + 1#5)).status.cwp - 1#5 = s.hiLimit := BitVec.add_sub_cancel _ _
  rw [exec, execRestore, if_neg fun h => h.2 hlimit, if_pos hlimit, hdelay, Option.isSome_none,
    if_neg Bool.false_ne_true, hlimit, ← inWindowOf, State.raiseTrap, if_neg habove, hback]

/-- Settles O45: RESTORE at HI_LIMIT is a trap entry from the window above, which is not in the file, back into its
own. -/
theorem overflowTraps : Obligations.OverflowTraps := by
  intro s hlimit hnwin henter hdelay
  rw [exec_restore_at_hiLimit henter.1 hnwin hlimit hdelay]
  exact atHandler_of rfl rfl rfl rfl rfl rfl rfl henter

end Sys2Proof.Proofs
end

section
/-!
PROOFS. The statement of 70_reset_and_hazards.md: what reset leaves (R370, R371).
-/

namespace Sys2Proof.Proofs

open Sys2Proof.Machine Sys2Proof.Claims

/-- HI_LIMIT holds the last window of a file of at most 31 (10_state.md R36). -/
theorem toNat_hiLimit_resetWith {c : Config} (hc : c.wellFormed = true) :
    (State.resetWith c).hiLimit.toNat = c.nwin - 1 := by
  have hnwin : c.nwin ≤ 31 := nwin_le_of_inv (inv_resetWith hc)
  rw [State.resetWith_hiLimit, BitVec.toNat_ofNat]
  omega

/-- Settles O59: the fields of the reset state; that NWIN - 1 fits HI_LIMIT is what the configuration must give. -/
theorem resetHiddenState : Obligations.ResetHiddenState := by
  rintro c _ hc rfl
  exact ⟨rfl, rfl, rfl, rfl, rfl, rfl, rfl, toNat_hiLimit_resetWith hc, rfl, State.resetWith_fileSize c, fun _ => rfl⟩

end Sys2Proof.Proofs
end
